-- ==== Sys2Proof/Word.lean ====
section
/-!
DEFINITION. The bit-vector types of the QCU.
Bits are numbered from 0 at the least significant end (00_scope.md R8), as Lean's `BitVec` numbers them.
-/

namespace Sys2Proof

/-- One byte of the register window (20_memory.md R75). -/
abbrev Byte := BitVec 8

/-- The 16 stored bits of a count, an offset or a width (10_state.md R48, R50, R54, R55). -/
abbrev Half := BitVec 16

/-- One 32-bit bus word (20_memory.md R72, R73). -/
abbrev Word := BitVec 32

/-- The 64-bit pattern of an IEEE 754 binary64 value: sign in bit 63, exponent in bits 62:52,
fraction in bits 51:0 (00_scope.md R10). -/
abbrev F64 := BitVec 64

end Sys2Proof
end

