-- ==== Sys2Proof/Config.lean ====
section
/-!
DEFINITION. What is fixed for a given QCU: the sizes of 00_scope.md R6, the frozen constants of R7, and the
parameters that the spec leaves OPEN or calls any value, gathered in `Params` and left uninterpreted in `params`.
None of it is state (10_state.md R62).
-/

namespace Sys2Proof.Config

/-- `FRAME_LEN`, the coefficients of one spectral block (00_scope.md R6). -/
def frameLen : Nat := 1024

/-- `MAX_SFB`, the capacity of every band array (00_scope.md R6, decision D13). -/
def maxSfb : Nat := 128

/-- `BWL_NUM`, the long-geometry numerator of the Bandwidth Limiter (00_scope.md R6, D15). -/
def bwlNum : Nat := 1024

/-- `BWS_NUM`, the short-geometry numerator: half the long block length (00_scope.md R6, D15, conflict C6). -/
def bwsNum : Nat := 512

/-- The size in bytes of the register window (20_memory.md R70). -/
def windowBytes : Nat := 0x10000

/-- The constant that `ID` reads: "QCM" and interface revision 1 (10_state.md R31). -/
def idWord : Word := 0x51434D01

/-- The constant that `CAPS` reads: `FRAME_LEN`, `MAX_SFB`, no vectorized path (10_state.md R32). -/
def capsWord : Word := 0x00800400

/-! ### The constants of 00_scope.md R7, each as its exact binary64 pattern -/

/-- `NOISETONE` = 0.2. -/
def noisetone : F64 := 0x3FC999999999999A

/-- `POWM` = 0.4. -/
def powm : F64 := 0x3FD999999999999A

/-- `C_NOISE` = Mul64(Add64(1.0, -NOISETONE), 0.45). -/
def cNoise : F64 := 0x3FD70A3D70A3D70B

/-- `W_LONG` = 0.45. -/
def wLong : F64 := 0x3FDCCCCCCCCCCCCD

/-- `C_POS` = 10.0. -/
def cPos : F64 := 0x4024000000000000

/-- `SIL_FLOOR` = 10.0. -/
def silFloor : F64 := 0x4024000000000000

/-- `SFSTEP` = 20 / (1.5 ln 10). -/
def sfstep : F64 := 0x401729913C4B1436

/-- `MAGIC` = 0.4054. -/
def magic : F64 := 0x3FD9F212D77318FC

/-- `THR_SILENT` = 1e-20. -/
def thrSilent : F64 := 0x3BC79CA10C924223

/-- `ONE` = 1.0. -/
def one : F64 := 0x3FF0000000000000

/-- `F_BLOCK_LONG` = 1024.0. -/
def fBlockLong : F64 := 0x4090000000000000

/-- The parameters a QCU fixes (00_scope.md R6, 92_eei_decisions.md "Parameters left OPEN") and the choices
the spec leaves as `any value` (93_implementation_defined.md part 1). Every function of a value or of a
counter here is a free value: nothing of the model constrains it, but that the model takes `pow`, `log` and `exp`
within the range of the exact functions and `defqual` as finite and positive (log entries 20, 21). -/
structure Params where
  /-- `DEFQUAL`, OPEN (D12, U13). -/
  defqual : F64
  /-- `SF_SILENT`, OPEN (D9, U12). -/
  sfSilent : Word
  /-- `Pow64` where its special cases do not apply: a finite positive base (00_scope.md R14, D3, U9). -/
  pow : F64 → F64 → F64
  /-- `Log64` where its special cases do not apply: finite, positive, not 1 (00_scope.md R15, D3, U9). -/
  log : F64 → F64
  /-- `Exp64` where its special cases do not apply: finite, not zero (00_scope.md R16, D3, U9). -/
  exp : F64 → F64
  /-- `LAT`: how many Host events come between the acceptance of a command and its completion step,
  chosen anew for each command (70_reset_and_hazards.md R245, D32, U24). -/
  latency : Nat → Nat
  /-- The `any value` that a read of an output location returns while a command runs, chosen anew at
  each read (70_reset_and_hazards.md R242, U17). -/
  freeWord : Nat → Word
  /-- The content of a byte of local memory that nothing has written since reset number `epoch`:
  any value, fixed until written (10_state.md R61, U14). Arguments: the epoch, the byte offset. -/
  ramByte : Nat → Nat → Byte
  /-- The sign and payload of a NaN that the masking stage stores in `BANDQ`, as a function of the
  operands the band's target depends on (00_scope.md R11, U8; log entry 5). -/
  nanBits : List F64 → F64
  /-- `QCU_BASE` in units of 64 KiB, OPEN (00_scope.md R6, D1, U27): the base is 64 KiB aligned. -/
  qcuBase : Nat
deriving Inhabited

/-- The parameters of the QCU that is modelled: uninterpreted, so that whatever is proved holds for every
choice the spec allows. -/
opaque params : Params

end Sys2Proof.Config
end

