-- ==== Sys2Proof/Syntax.lean ====
section
/-!
DEFINITION. The commands of the QCU, the fields of a command word, the Host's bus events, and the operations of a
host program.
-/

namespace Sys2Proof

/-- The commands, one constructor per row of spec/opcode_table.json (30_encoding.md R103). Every operand is
implicit (R105), so no constructor has a field. -/
inductive Instr where
  /-- Limit bandwidth and initialise the Quantizer Configuration (40_limbw.md R120). -/
  | limbw
  /-- Quantize one spectral block (43_qblk.md R180). -/
  | qblk
deriving DecidableEq, Repr

/-- The fields of a `CMD32` command word (30_encoding.md R100). -/
structure Cmd32 where
  /-- Bits 31:8, which must be zero. -/
  mbz : BitVec 24
  /-- Bits 7:0, the command opcode. -/
  opc : BitVec 8
deriving DecidableEq, Repr

/-- The width the bus presents an access with (20_memory.md R74). -/
inductive Width where
  | byte
  | half
  | word
  /-- A 64-bit burst presented as one access. -/
  | dword
deriving DecidableEq, Repr

/-- One host bus access at a byte offset of the window (00_scope.md R9, 20_memory.md R72, R73). -/
inductive Access where
  /-- `MemRead(off, width)`. -/
  | read (off : Nat) (width : Width)
  /-- `MemWrite(off, width, data)`; only a 32-bit access is ever performed, so the data is one word. -/
  | write (off : Nat) (width : Width) (data : Word)
deriving DecidableEq, Repr

/-- The byte offset of an access. -/
def Access.off : Access → Nat
  | .read o _ => o
  | .write o _ _ => o

/-- The width of an access. -/
def Access.width : Access → Width
  | .read _ w => w
  | .write _ w _ => w

/-- What can reach the QCU from outside, in the one total order of 20_memory.md R80. -/
inductive HostEvent where
  /-- One bus access. -/
  | access (a : Access)
  /-- The polling loop of 30_encoding.md R106: one read of `STATUS`, repeated until bit 0 of the value read is 0. -/
  | wait
  /-- Reset is asserted, with the bus access it interrupts if there is one (70_reset_and_hazards.md R230). -/
  | reset (inProgress : Option Access)
deriving DecidableEq, Repr

/-- One line of a host program (30_encoding.md R106). -/
inductive HostOp where
  | wr (off : Nat) (w : Word)
  | rd (off : Nat)
  | limbw
  | qblk
  /-- `p` is the binary64 pattern to write. -/
  | wr64 (off : Nat) (p : F64)
  | wait
  | clr
  | expect (off : Nat) (w : Word)
deriving DecidableEq, Repr

end Sys2Proof
end

