-- ==== Sys2Proof/WellFormed.lean ====
section
/-!
DEFINITION. What makes a command word legal and a bus access one that the QCU performs.
-/

namespace Sys2Proof

/-- The opcode is one of the two of the opcode map (30_encoding.md R103). -/
def Cmd32.opcKnown (c : Cmd32) : Bool := c.opc == 0x01 || c.opc == 0x02

/-- The must-be-zero bits are zero (30_encoding.md R100). -/
def Cmd32.mbzZero (c : Cmd32) : Bool := c.mbz == 0

/-- A legal command word: every other word is illegal (30_encoding.md R104). -/
def Cmd32.wellFormed (c : Cmd32) : Bool := c.opcKnown && c.mbzZero

/-- The fields of each command's word (30_encoding.md R103; opcode_table.json). -/
def Instr.fields : Instr → Cmd32
  | .limbw => { mbz := 0, opc := 0x01 }
  | .qblk => { mbz := 0, opc := 0x02 }

/-- A command is well formed when its word is legal. No command has an explicit operand (30_encoding.md R105),
so both are. -/
def Instr.wellFormed (i : Instr) : Bool := i.fields.wellFormed

/-- The offset lies in the 64 KiB window (20_memory.md R70). -/
def Access.inWindow (a : Access) : Bool := decide (a.off < Config.windowBytes)

/-- `addr[1:0] = 0` (20_memory.md R74). -/
def Access.aligned (a : Access) : Bool := a.off % 4 == 0

/-- The bus presents the access as 32 bits wide (20_memory.md R74). -/
def Access.isWord (a : Access) : Bool := a.width == .word

/-- An access that the QCU performs rather than refuses with a bus error (20_memory.md R74). -/
def Access.wellFormed (a : Access) : Bool := a.inWindow && a.aligned && a.isWord

/-- An event that stays inside the window; a wait and a reset always do. -/
def HostEvent.inWindow : HostEvent → Bool
  | .access a => a.inWindow
  | .wait => true
  | .reset _ => true

end Sys2Proof
end

