-- ==== Sys2Proof/Decode.lean ====
section
/-!
DEFINITION. The command decoder, total on any word and on any bytes and rejecting by name, and after it the encoder.
The QCU takes a command word from the bus data of the CMD write (20_memory.md R83); a word's bytes are little-endian
(20_memory.md R75).
-/

namespace Sys2Proof

/-- Why a word is no command. Both kinds of word are illegal encodings (30_encoding.md R104). -/
inductive DecodeError where
  /-- The opcode is reserved: 0x00, or 0x03 to 0xFF. -/
  | reservedOpcode (opc : BitVec 8)
  /-- A bit of `MBZ` is set. -/
  | mbzNotZero (mbz : BitVec 24)
  /-- The bytes are not exactly one 32-bit word (30_encoding.md R100). -/
  | wrongLength (bytes : Nat)
deriving DecidableEq, Repr

/-- The fields of a word: `OPC` is bits 7:0, `MBZ` is bits 31:8 (30_encoding.md R100). -/
def Cmd32.ofWord (w : Word) : Cmd32 := { mbz := w.extractLsb' 8 24, opc := w.extractLsb' 0 8 }

/-- The word with the given fields. -/
def Cmd32.toWord (c : Cmd32) : Word := c.mbz ++ c.opc

/-- The whole word is matched (30_encoding.md R101, R103). -/
def decodeWord (w : Word) : Except DecodeError Instr :=
  let c := Cmd32.ofWord w
  if c.mbz ≠ 0 then .error (.mbzNotZero c.mbz)
  else if c.opc = 0x01 then .ok .limbw
  else if c.opc = 0x02 then .ok .qblk
  else .error (.reservedOpcode c.opc)

/-- Four bytes as one little-endian word (20_memory.md R75). -/
def wordOfBytes (b0 b1 b2 b3 : Byte) : Word := b3 ++ b2 ++ b1 ++ b0

/-- The bytes of a word, the least significant first (20_memory.md R75). -/
def bytesOfWord (w : Word) : List Byte :=
  [w.extractLsb' 0 8, w.extractLsb' 8 8, w.extractLsb' 16 8, w.extractLsb' 24 8]

/-- The decoder on bytes: a command is always one 32-bit word (30_encoding.md R100). -/
def decodeBytes (bs : List Byte) : Except DecodeError Instr :=
  match bs with
  | [b0, b1, b2, b3] => decodeWord (wordOfBytes b0 b1 b2 b3)
  | _ => .error (.wrongLength bs.length)

/-- The bus word of an instruction whose first `nbits` bits are `w` and whose other bits are 0;
`none` where a bit of it lies above bit 31. -/
def tableWord (nbits w : Nat) : Option Word :=
  if w % 2 ^ nbits < 2 ^ 32 then some (BitVec.ofNat 32 (w % 2 ^ nbits)) else none

/-- The instruction that the decoder reads from an instruction whose bits are `w`, numbered as
spec/opcode_table.json numbers them: laid out as little-endian bytes and given to the decoder. -/
def decodeTableWord (nbits w : Nat) : Option Instr :=
  match tableWord nbits w with
  | none => none
  | some v =>
    match decodeBytes (bytesOfWord v) with
    | .ok i => some i
    | .error _ => none

/-- The command word of an instruction (30_encoding.md R103). -/
def encode (i : Instr) : Word := i.fields.toWord

/-- The bytes of an instruction's word as the Host's memory holds it (20_memory.md R75). -/
def encodeBytes (i : Instr) : List Byte := bytesOfWord (encode i)

/-- Bits 7:0 of the command word (10_state.md R41). -/
def opcodeByte (i : Instr) : BitVec 8 := (encode i).extractLsb' 0 8

end Sys2Proof
end

