-- ==== Sys2Proof/Machine/State.lean ====
section
/-!
DEFINITION. The state of the machine: the architectural state of 10_state.md R30 (`Arch`), and around it what the
model itself needs to be one deterministic step function (`State`). The state after reset is `State.reset`.
-/

namespace Sys2Proof.Machine

/-- The error codes of 60_exceptions.md R200. -/
inductive ErrCode where
  /-- `NONE`, 0x00: no error recorded since `ERR` was last cleared. -/
  | noError
  /-- `ILLEGAL_CMD`, 0x01. -/
  | illegalCmd
  /-- `CMD_BUSY`, 0x02. -/
  | cmdBusy
  /-- `WR_BUSY`, 0x03. -/
  | wrBusy
  /-- `CFG_UNINIT`, 0x04. -/
  | cfgUninit
  /-- `BAND_OVF`, 0x05. -/
  | bandOvf
  /-- `BAND_TABLE`, 0x06. -/
  | bandTable
  /-- `BW_ARG`, 0x07. -/
  | bwArg
deriving DecidableEq, Repr

/-- The Sequencer state `SEQ` (10_state.md R60). `STATUS.BUSY` is 1 exactly while it is `run`. -/
inductive Seq where
  | idle
  | run (op : Instr)
deriving DecidableEq, Repr

/-- The local memories, by byte offset in the window. An offset that is not listed has not been written since
reset. Canonical form: `Memory.wf`. -/
abbrev Memory := List Host.Cell

/-- The canonical form of the local memories: offsets strictly rising. A byte that nothing has written reads at
this level as no value, so a listed byte never equals what an unlisted one reads as. -/
abbrev Memory.wf (m : Memory) : Prop := m.Pairwise (fun c d => c.1 < d.1)

/-- The architectural state (10_state.md R30): the registers that have storage, `STATUS` by its fields (R35), the
local memories (R54 to R59) and the Sequencer (R60). `ID` and `CAPS` are constants and `CMD` has no storage. -/
structure Arch where
  /-- `CTRL[1:0]`: bit 0 `IE_DONE`, bit 1 `IE_ERR` (R34). -/
  ctrl : BitVec 2
  /-- `STATUS.DONE` (R37). -/
  done : Bool
  /-- `STATUS.ERR` (R38). -/
  err : Bool
  /-- `STATUS.SIGNAL` (R39). -/
  signal : Bool
  /-- `STATUS.CFGV` (R40). -/
  cfgv : Bool
  /-- `STATUS.ERRCODE` (R38). -/
  errcode : ErrCode
  /-- `STATUS.LASTOP` (R41). -/
  lastop : BitVec 8
  /-- `BW_REQ` (R43). -/
  bwReq : Word
  /-- `RATE` (R44). -/
  rate : Word
  /-- `BW_ACH` (R45). -/
  bwAch : Word
  /-- `MAXCBS[15:0]` (R46). -/
  maxcbs : Half
  /-- `MAXCBL[15:0]` (R47). -/
  maxcbl : Half
  /-- `NCB_SHORT[15:0]` (R48). -/
  ncbShort : Half
  /-- `NCB_LONG[15:0]` (R48). -/
  ncbLong : Half
  /-- `BLKTYPE[1:0]` (R49). -/
  blktype : BitVec 2
  /-- `NSFB[15:0]` (R50). -/
  nsfb : Half
  /-- `SFCNT[15:0]` (R51). -/
  sfcnt : Half
  /-- `QUALITY` (R52). -/
  quality : F64
  /-- `REFENRG` (R53). -/
  refenrg : F64
  /-- `SEQ` (R60). -/
  seq : Seq
  /-- The bytes of `SFBOFF`, `WIDTH_LONG`, `WIDTH_SHORT`, `SF`, `BANDQ`, `XR` and `XI` written since reset. -/
  mem : Memory
  /-- Which reset this is: it selects the unspecified contents of the bytes not written since (R61; log entry 3). -/
  ramEpoch : Nat
deriving DecidableEq, Repr

/-- The bus response to one access (20_memory.md R72 to R74). -/
inductive Response where
  /-- OKAY, with the word read. -/
  | okayRead (data : Word)
  /-- OKAY to a write. -/
  | okayWrite
  /-- The bus error response to a refused read, with what is on the data lines (R74). -/
  | errorRead (data : Word)
  /-- The bus error response to a refused write (R74). -/
  | errorWrite
  /-- The platform's response to an access in progress at reset (70_reset_and_hazards.md R230, U25). -/
  | platform
deriving DecidableEq, Repr

/-- The state of the model: the architectural state and the model's own fields (log entries 1, 2, 4, 14). -/
structure State extends Arch where
  /-- What the Host does next, in order (20_memory.md R80). -/
  bus : List HostEvent
  /-- The response to the last bus access. -/
  resp : Option Response
  /-- How many Host events still come before the completion step of the command in flight (`LAT`). -/
  lat : Nat
  /-- Counts the free values taken so far, so that each one is chosen anew. -/
  free : Nat
deriving DecidableEq, Repr

/-- Why the model stops. No command stops it: an error of the QCU is recorded in `STATUS` (60_exceptions.md R203)
and the machine goes on. -/
inductive Fault where
  /-- Raised by a bus event at an offset outside the 64 KiB window, which does not reach the QCU (20_memory.md
  R70). Safe: no rule gives the QCU a behaviour there, and the model stops (log entry 11). -/
  | outsideWindow
deriving DecidableEq, Repr

/-- Why an instruction has no meaning. -/
inductive Refusal where
  /-- Raised by an arm of `exec` whose instruction has no meaning yet. Safe: the model stops. No arm raises it now. -/
  | notModelled (mnemonic : String)
deriving DecidableEq, Repr

/-- The architectural state after reset (10_state.md R61, 70_reset_and_hazards.md R230, R231). The contents of the
local memories are unspecified, so no byte is listed; `epoch` selects which unspecified contents. -/
def Arch.reset (epoch : Nat) : Arch where
  ctrl := 0
  done := false
  err := false
  signal := false
  cfgv := false
  errcode := .noError
  lastop := 0
  bwReq := 0
  rate := 0
  bwAch := 0
  maxcbs := 0
  maxcbl := 0
  ncbShort := 0
  ncbLong := 0
  blktype := 0
  nsfb := 0
  sfcnt := 0
  quality := 0
  refenrg := 0
  seq := .idle
  mem := []
  ramEpoch := epoch

/-- The machine after its first reset, with a Host that has not begun (log entry 14). -/
def State.reset : State where
  toArch := Arch.reset 0
  bus := []
  resp := none
  lat := 0
  free := 0

/-- `STATUS.BUSY`: a command is in flight (10_state.md R36, R60). -/
def Arch.busy (a : Arch) : Bool :=
  match a.seq with
  | .idle => false
  | .run _ => true

end Sys2Proof.Machine
end

