-- ==== Sys2Proof/Machine/Map.lean ====
section
/-!
DEFINITION. The register map of 10_state.md R30: the registers and the local memories, their offsets, widths and
access kinds.
-/

namespace Sys2Proof.Machine

/-- The registers of 10_state.md R30, one constructor per 32-bit word. -/
inductive Reg where
  | id | caps | ctrl | status | cmd | bwReq | rate | bwAch | maxcbs | maxcbl | ncbShort | ncbLong | blktype | nsfb
  | sfcnt | qualityLo | qualityHi | refenrgLo | refenrgHi
deriving DecidableEq, Repr

/-- Every register, in the order of the table. -/
def Reg.all : List Reg :=
  [.id, .caps, .ctrl, .status, .cmd, .bwReq, .rate, .bwAch, .maxcbs, .maxcbl, .ncbShort, .ncbLong, .blktype, .nsfb,
    .sfcnt, .qualityLo, .qualityHi, .refenrgLo, .refenrgHi]

/-- The byte offset of a register (10_state.md R30). -/
def Reg.offset : Reg → Nat
  | .id => 0x0000
  | .caps => 0x0004
  | .ctrl => 0x0008
  | .status => 0x000C
  | .cmd => 0x0010
  | .bwReq => 0x0014
  | .rate => 0x0018
  | .bwAch => 0x001C
  | .maxcbs => 0x0020
  | .maxcbl => 0x0024
  | .ncbShort => 0x0028
  | .ncbLong => 0x002C
  | .blktype => 0x0030
  | .nsfb => 0x0034
  | .sfcnt => 0x0038
  | .qualityLo => 0x0040
  | .qualityHi => 0x0044
  | .refenrgLo => 0x0048
  | .refenrgHi => 0x004C

/-- The access kinds of 10_state.md. -/
inductive AccessKind where
  /-- `RO`: writes ignored. -/
  | ro
  /-- `RW`. -/
  | rw
  /-- `W1C`: write 1 to clear, on the fields that say so. -/
  | w1c
  /-- `WO`: reads return 0. -/
  | wo
deriving DecidableEq, Repr

/-- The access kind of a register (10_state.md R30). -/
def Reg.kind : Reg → AccessKind
  | .id | .caps | .bwAch | .maxcbs | .maxcbl | .sfcnt => .ro
  | .status => .w1c
  | .cmd => .wo
  | .ctrl | .bwReq | .rate | .ncbShort | .ncbLong | .blktype | .nsfb | .qualityLo | .qualityHi | .refenrgLo
  | .refenrgHi => .rw

/-- The local memories of 10_state.md R54 to R59. -/
inductive Ram where
  | sfboff | widthLong | widthShort | sf | bandq | xr | xi
deriving DecidableEq, Repr

/-- Every local memory, in the order of the table. -/
def Ram.all : List Ram := [.sfboff, .widthLong, .widthShort, .sf, .bandq, .xr, .xi]

/-- The offset of element 0 (10_state.md R30). -/
def Ram.base : Ram → Nat
  | .sfboff => 0x0400
  | .widthLong => 0x0800
  | .widthShort => 0x0A00
  | .sf => 0x0C00
  | .bandq => 0x1000
  | .xr => 0x2000
  | .xi => 0x4000

/-- The number of elements (10_state.md R54 to R59). -/
def Ram.count : Ram → Nat
  | .sfboff => 129
  | .widthLong | .widthShort | .sf | .bandq => 128
  | .xr | .xi => 1024

/-- The bytes from one element to the next (10_state.md R30). -/
def Ram.stride : Ram → Nat
  | .bandq | .xr => 8
  | .sfboff | .widthLong | .widthShort | .sf | .xi => 4

/-- The bytes stored of each 32-bit word: of the 16-bit memories bits 31:16 are reserved (10_state.md R54, R55). -/
def Ram.kept : Ram → Nat
  | .sfboff | .widthLong | .widthShort => 2
  | .sf | .bandq | .xr | .xi => 4

/-- The access kind of a local memory (10_state.md R30). -/
def Ram.kind : Ram → AccessKind
  | .sfboff | .widthLong | .widthShort | .xr => .rw
  | .sf | .bandq | .xi => .ro

/-- The bytes of the window a local memory takes. -/
def Ram.bytes (m : Ram) : Nat := m.count * m.stride

/-- The offset lies in the local memory. -/
def Ram.holds (m : Ram) (off : Nat) : Bool := decide (m.base ≤ off) && decide (off < m.base + m.bytes)

/-- A byte that some local memory stores. -/
def isRamByte (off : Nat) : Bool := Ram.all.any (fun m => m.holds off && decide (off % 4 < m.kept))

/-- What stands at an offset. -/
inductive Loc where
  | reg (r : Reg)
  | ram (m : Ram)
  /-- Every offset the table does not list (20_memory.md R77). -/
  | reserved
deriving DecidableEq, Repr

/-- The register or local memory whose word is at an aligned offset (10_state.md R30). -/
def locate (off : Nat) : Loc :=
  match Reg.all.find? (fun r => r.offset == off) with
  | some r => .reg r
  | none =>
    match Ram.all.find? (fun m => m.holds off) with
    | some m => .ram m
    | none => .reserved

/-- The input locations, whose writes are refused while a command runs (70_reset_and_hazards.md R241): every `RW`
location but `CTRL`. -/
def Loc.isInput : Loc → Bool
  | .reg .ctrl => false
  | .reg r => r.kind == .rw
  | .ram m => m.kind == .rw
  | .reserved => false

/-- The output locations, whose reads return any value while a command runs (70_reset_and_hazards.md R242). -/
def Loc.isOutput : Loc → Bool
  | .reg .bwAch | .reg .maxcbs | .reg .maxcbl | .reg .sfcnt => true
  | .reg _ => false
  | .ram m => m.kind == .ro
  | .reserved => false

end Sys2Proof.Machine
end

