-- ==== Sys2Proof/Machine/Ops.lean ====
section
/-!
DEFINITION. The named operations over the local memories and over the command state: block reads and writes in the
one byte order, acceptance of a command, recording an error, and the two ways a completion step ends.
-/

namespace Sys2Proof.Machine

open Config (Params)

/-- The parameters the machine runs with. -/
def machineParams : Params := Config.params

/-! ### Bytes (little-endian, 20_memory.md R75) -/

/-- The `n` low bytes of `v`, the least significant first. -/
def leBytes : Nat → Nat → List Byte
  | 0, _ => []
  | n + 1, v => BitVec.ofNat 8 v :: leBytes n (v / 256)

/-- The number whose bytes, the least significant first, are given. -/
def ofLeBytes : List Byte → Nat
  | [] => 0
  | b :: bs => b.toNat + 256 * ofLeBytes bs

/-! ### Local memories -/

/-- The cells of consecutive bytes from offset `a`. -/
def blockCells : Nat → List Byte → Memory
  | _, [] => []
  | a, b :: bs => (a, b) :: blockCells (a + 1) bs

/-- Replaces the bytes from offset `a` on by `bs`. It keeps the canonical form. -/
def Memory.writeBlock (m : Memory) (a : Nat) (bs : List Byte) : Memory :=
  m.filter (fun c => decide (c.1 < a)) ++ blockCells a bs ++ m.filter (fun c => decide (a + bs.length ≤ c.1))

/-- The byte at offset `a`: as last written, or, if nothing has written it since reset, its unspecified content
(10_state.md R61, U14, U15). -/
def byteAt (P : Params) (s : Arch) (a : Nat) : Byte := (s.mem.lookup a).getD (P.ramByte s.ramEpoch a)

/-- The number held by the `n` bytes from offset `a`. -/
def natAt (P : Params) (s : Arch) (a n : Nat) : Nat := ofLeBytes ((List.range n).map (fun i => byteAt P s (a + i)))

/-- The 16 stored bits of the word at `a`. -/
def halfAt (P : Params) (s : Arch) (a : Nat) : Half := BitVec.ofNat 16 (natAt P s a 2)

/-- The 32-bit word at `a`. -/
def wordAt (P : Params) (s : Arch) (a : Nat) : Word := BitVec.ofNat 32 (natAt P s a 4)

/-- The 64-bit element at `a`: bits 31:0 at `a`, bits 63:32 at `a + 4` (20_memory.md R75). -/
def dwordAt (P : Params) (s : Arch) (a : Nat) : F64 := BitVec.ofNat 64 (natAt P s a 8)

/-- Stores bytes in the local memories. -/
def putBytes (s : Arch) (a : Nat) (bs : List Byte) : Arch := { s with mem := s.mem.writeBlock a bs }

/-- Stores 32-bit words at consecutive offsets from `a`. -/
def putWords (s : Arch) (a : Nat) (ws : List Word) : Arch := putBytes s a (ws.flatMap (fun w => leBytes 4 w.toNat))

/-- Stores a 64-bit element at `a`. -/
def putDword (s : Arch) (a : Nat) (v : F64) : Arch := putBytes s a (leBytes 8 v.toNat)

/-! ### Commands and errors -/

/-- The code of an error (60_exceptions.md R200). -/
def ErrCode.code : ErrCode → BitVec 8
  | .noError => 0x00
  | .illegalCmd => 0x01
  | .cmdBusy => 0x02
  | .wrBusy => 0x03
  | .cfgUninit => 0x04
  | .bandOvf => 0x05
  | .bandTable => 0x06
  | .bwArg => 0x07

/-- Records an error: `ERR` is set, and `ERRCODE` keeps the first code since the last clear (10_state.md R38,
60_exceptions.md R203). -/
def recordError (e : ErrCode) (s : Arch) : Arch :=
  { s with err := true, errcode := if s.err then s.errcode else e }

/-- `raise Error(code)` in a completion step: the error is recorded and the Sequencer returns to idle
(60_exceptions.md R203). -/
def failCommand (e : ErrCode) (s : Arch) : Arch := { recordError e s with seq := .idle }

/-- `Complete()`, the end of a completion step without error (60_exceptions.md R204). -/
def completeCommand (s : Arch) : Arch := { s with seq := .idle, done := true }

/-- The architectural effect of `accept(op)` (30_encoding.md R102). -/
def acceptCommand (op : Instr) (s : Arch) : Arch :=
  { s with seq := .run op, done := false, lastop := opcodeByte op }

/-- `accept(op)` in the model: the architectural effect, and a new free choice of the number of Host events before
the completion step (70_reset_and_hazards.md R245). -/
def State.accept (P : Params) (op : Instr) (s : State) : State :=
  { s with toArch := acceptCommand op s.toArch, lat := P.latency s.free, free := s.free + 1 }

/-- Reset (70_reset_and_hazards.md R230): every register at its reset value, the Sequencer idle, the contents of the
local memories unspecified anew. -/
def resetArch (s : Arch) : Arch := Arch.reset (s.ramEpoch + 1)

/-- The offset in the window of a host address, where `QCU_BASE` places the window (20_memory.md R70); `none` for an
address outside it. -/
def windowOffset (P : Params) (hostAddr : Nat) : Option Nat :=
  if hostAddr / Config.windowBytes = P.qcuBase then some (hostAddr % Config.windowBytes) else none

end Sys2Proof.Machine
end

