-- ==== Sys2Proof/Machine/Flags.lean ====
section
/-!
DEFINITION. `STATUS` as a word and its write-1-to-clear effect, and the interrupt line.
-/

namespace Sys2Proof.Machine

/-- `STATUS` as it reads with the given values of `SIGNAL` and `CFGV` (10_state.md R35): bits 7:5 and 31:24 are
reserved. -/
def statusWordWith (s : Arch) (signal cfgv : Bool) : Word :=
  0#8 ++ s.lastop ++ s.errcode.code ++ 0#3 ++ BitVec.ofBool cfgv ++ BitVec.ofBool signal ++ BitVec.ofBool s.err ++
    BitVec.ofBool s.done ++ BitVec.ofBool s.busy

/-- The stored value of `STATUS` (10_state.md R35). -/
def statusWord (s : Arch) : Word := statusWordWith s s.signal s.cfgv

/-- A write to `STATUS`: bit 1 clears `DONE`, bit 2 clears `ERR` and `ERRCODE`, every other bit is ignored
(10_state.md R35, R37, R38). -/
def writeStatus (v : Word) (s : Arch) : Arch :=
  { s with
    done := s.done && !v.getLsbD 1
    err := s.err && !v.getLsbD 2
    errcode := if v.getLsbD 2 then .noError else s.errcode }

/-- `CTRL.IE_DONE` (10_state.md R34). -/
def Arch.ieDone (s : Arch) : Bool := s.ctrl.getLsbD 0

/-- `CTRL.IE_ERR` (10_state.md R34). -/
def Arch.ieErr (s : Arch) : Bool := s.ctrl.getLsbD 1

/-- The interrupt output, level-sensitive and active high: a function of the current state (60_exceptions.md R210). -/
def Arch.irq (s : Arch) : Bool := (s.done && s.ieDone) || (s.err && s.ieErr)

end Sys2Proof.Machine
end

