-- ==== Sys2Proof/Machine/Float.lean ====
section
/-!
DEFINITION. The numeric primitives of 00_scope.md R10 to R18 on binary64 patterns. Every finite value is a whole
number of units of 2^-1074 (the smallest subnormal), so each operation computes its exact result as a quotient of two
natural numbers of units and rounds once, to nearest, ties to even. No operation sets a flag or traps (R10).
Inside the datapath a NaN result is the one pattern `quietNaN`; no rule reads a NaN's sign or payload (R11, log
entry 16).
-/

namespace Sys2Proof.Machine

open Config (Params)

/-! ### Patterns -/

/-- Bit 63. -/
def signOf (x : F64) : Bool := x.getLsbD 63

/-- Bits 62:0: the magnitude's pattern, which rises with the magnitude. -/
def magOf (x : F64) : Nat := (x.extractLsb' 0 63).toNat

/-- Bits 62:52. -/
def expOf (x : F64) : Nat := (x.extractLsb' 52 11).toNat

/-- Bits 51:0. -/
def fracOf (x : F64) : Nat := (x.extractLsb' 0 52).toNat

/-- The magnitude pattern of an infinity. -/
def infMag : Nat := 0x7FF0000000000000

/-- The pattern with the given sign and magnitude pattern. -/
def ofMag (neg : Bool) (m : Nat) : F64 := BitVec.ofBool neg ++ BitVec.ofNat 63 m

/-- Exponent all ones, fraction not zero. -/
def isNaN (x : F64) : Bool := decide (infMag < magOf x)

/-- Exponent all ones, fraction zero. -/
def isInf (x : F64) : Bool := decide (magOf x = infMag)

/-- Neither infinite nor a NaN. -/
def isFinite (x : F64) : Bool := decide (magOf x < infMag)

/-- +0 or -0. -/
def isZero (x : F64) : Bool := decide (magOf x = 0)

/-- The NaN pattern used inside the datapath. -/
def quietNaN : F64 := 0x7FF8000000000000

/-- +0.0. -/
def plusZero : F64 := 0

/-! ### Values -/

/-- How many units of 2^-1074 make 1. -/
def unitsPerOne : Nat := 2 ^ 1074

/-- The magnitude of a finite pattern in units of 2^-1074: bias 1023, subnormals kept (R10). -/
def unitsOf (x : F64) : Nat :=
  if expOf x = 0 then fracOf x else (2 ^ 52 + fracOf x) * 2 ^ (expOf x - 1)

/-- The value of a finite pattern in units of 2^-1074. -/
def valueOf (x : F64) : Int := if signOf x then -(unitsOf x : Int) else (unitsOf x : Int)

/-- The integer nearest to `n / d`, ties to even. -/
def roundNearestEven (n d : Nat) : Nat :=
  if 2 * (n % d) < d then n / d
  else if d < 2 * (n % d) then n / d + 1
  else n / d + n / d % 2

/-- The magnitude pattern of `n / d` units rounded to nearest-even: within the binade of the result the patterns are
the multiples of 2^k units, in order; past the largest finite value lies infinity. -/
def roundMag (n d : Nat) : Nat :=
  let k := Nat.log2 (n / d) - 52
  min (k * 2 ^ 52 + roundNearestEven n (d * 2 ^ k)) infMag

/-- The pattern of `n / d` units with the given sign, rounded to nearest-even. -/
def round64 (neg : Bool) (n d : Nat) : F64 := ofMag neg (roundMag n d)

/-! ### Arithmetic (R11, R12) -/

/-- The sign-bit flip `-a` (R11). -/
def neg64 (a : F64) : F64 := ofMag (!signOf a) (magOf a)

/-- `Abs64` clears the sign bit (R12). -/
def abs64 (a : F64) : F64 := ofMag false (magOf a)

/-- `Add64` (R11). An exact sum of zero is +0, except that (-0) + (-0) is -0. -/
def add64 (a b : F64) : F64 :=
  if isNaN a || isNaN b then quietNaN
  else if isInf a then (if isInf b && signOf a != signOf b then quietNaN else a)
  else if isInf b then b
  else
    let v := valueOf a + valueOf b
    if v = 0 then ofMag (signOf a && signOf b) 0 else round64 (decide (v < 0)) v.natAbs 1

/-- `Mul64` (R11). -/
def mul64 (a b : F64) : F64 :=
  if isNaN a || isNaN b then quietNaN
  else if isInf a || isInf b then
    (if isZero a || isZero b then quietNaN else ofMag (signOf a != signOf b) infMag)
  else round64 (signOf a != signOf b) (unitsOf a * unitsOf b) unitsPerOne

/-- `Div64` (R11). -/
def div64 (a b : F64) : F64 :=
  if isNaN a || isNaN b then quietNaN
  else if isInf a then (if isInf b then quietNaN else ofMag (signOf a != signOf b) infMag)
  else if isInf b then ofMag (signOf a != signOf b) 0
  else if isZero b then (if isZero a then quietNaN else ofMag (signOf a != signOf b) infMag)
  else round64 (signOf a != signOf b) (unitsOf a * unitsPerOne) (unitsOf b)

/-- The integer square root of `n`, rounded down, for `n < 4 ^ fuel`. -/
def isqrt : Nat → Nat → Nat
  | 0, _ => 0
  | fuel + 1, n =>
    let r := 2 * isqrt fuel (n / 4)
    if (r + 1) * (r + 1) ≤ n then r + 1 else r

/-- The square root of `n` (at least 2^112) rounded down to a whole number of 2^t where it keeps 57 bits, and then
doubled, with one more where the root is not exact: a quotient by 2 that rounds to 53 bits as the exact root does. -/
def stickyRoot (n : Nat) : Nat :=
  let t := (Nat.log2 n - 112) / 2
  let s := isqrt 57 (n / 4 ^ t)
  (2 * s + if s * s * 4 ^ t = n then 0 else 1) * 2 ^ t

/-- `Sqrt64` (R12). -/
def sqrt64 (a : F64) : F64 :=
  if isNaN a then quietNaN
  else if isZero a then a
  else if signOf a then quietNaN
  else if isInf a then a
  else round64 false (stickyRoot (unitsOf a * unitsPerOne)) 2

/-- `I2F(n)`, exact for the integers of this spec (R12). -/
def i2f (n : Int) : F64 := round64 (decide (n < 0)) (n.natAbs * unitsPerOne) 1

/-! ### Comparisons (R13): quiet, false with a NaN -/

/-- The place of a pattern in the order of the values; both zeros are 0. -/
def orderKey (x : F64) : Int := if signOf x then -(magOf x : Int) else (magOf x : Int)

/-- `Lt64` (R13). -/
def lt64 (a b : F64) : Bool := !isNaN a && !isNaN b && decide (orderKey a < orderKey b)

/-- `Gt64` (R13). -/
def gt64 (a b : F64) : Bool := !isNaN a && !isNaN b && decide (orderKey b < orderKey a)

/-- `Eq64` (R13). -/
def eq64 (a b : F64) : Bool := !isNaN a && !isNaN b && decide (orderKey a = orderKey b)

/-! ### The parameter functions with their fixed special cases

Each parameter is taken within the range that the exact function has on its operands, which no difference in the last
bit leaves (93_implementation_defined.md U9; log entry 20). -/

/-- The value in `lo..hi` nearest to `x`; `lo` for a NaN. -/
def clamp64 (lo hi x : F64) : F64 := if isNaN x || lt64 x lo then lo else if gt64 x hi then hi else x

/-- The largest finite value. -/
def maxFinite : F64 := 0x7FEFFFFFFFFFFFFF

/-- The greatest operand whose exponential is finite, 709.782712893384. It is also the logarithm of `maxFinite`. -/
def expTop : F64 := 0x40862E42FEFA39EF

/-- The least operand whose exponential is not known to be +0, -746.0: below it e^x is less than a quarter of the least
positive value. -/
def expBottom : F64 := 0xC087500000000000

/-- A lower bound of the logarithm of a positive value: the neighbour below the rounded logarithm of the least one. -/
def logBottom : F64 := 0xC0874385446D71C4

/-- 2^-430, a lower bound of x^POWM for positive x. -/
def powBottom : F64 := 0x2510000000000000

/-- 2^410, an upper bound of x^POWM for finite x. -/
def powTop : F64 := 0x5990000000000000

/-- `Pow64(x, POWM)` (R14). -/
def pow64 (P : Params) (x : F64) : F64 :=
  if isNaN x then quietNaN
  else if isZero x then plusZero
  else if signOf x then quietNaN
  else if isInf x then x
  else clamp64 powBottom powTop (P.pow x Config.powm)

/-- `Log64(x)` (R15). -/
def log64 (P : Params) (x : F64) : F64 :=
  if isNaN x then quietNaN
  else if isZero x then ofMag true infMag
  else if signOf x then quietNaN
  else if isInf x then x
  else if x = Config.one then plusZero
  else clamp64 logBottom expTop (P.log x)

/-- `Exp64(x)` (R16). It overflows to +Inf and underflows to +0 whatever the parameter (42_companding.md R168, log entry
20), and its result is never negative (log entry 17). -/
def exp64 (P : Params) (x : F64) : F64 :=
  if isNaN x then quietNaN
  else if isZero x then Config.one
  else if isInf x then (if signOf x then plusZero else x)
  else if gt64 x expTop then ofMag false infMag
  else if lt64 x expBottom then plusZero
  else clamp64 plusZero maxFinite (abs64 (P.exp x))

/-! ### Conversions to integers -/

/-- 2^31 - 1. -/
def maxInt32 : Int := 2147483647

/-- `RoundSF(v)` (R17). -/
def roundSF (v : F64) : Int :=
  if isNaN v then 0
  else if isInf v then (if signOf v then -maxInt32 else maxInt32)
  else
    let m : Int := roundNearestEven (unitsOf v) unitsPerOne
    max (-maxInt32) (min maxInt32 (if signOf v then -m else m))

/-- `TruncQ(u)` (R18); the two bounds are the patterns of 2^31 and -2^31 - 1. -/
def truncQ (u : F64) : Int :=
  if isNaN u then 0
  else if !lt64 u 0x41E0000000000000 then maxInt32
  else if !gt64 u 0xC1E0000000200000 then -maxInt32
  else
    let m : Int := (unitsOf u / unitsPerOne : Nat)
    if signOf u then -m else m

/-! ### NaN patterns -/

/-- The NaN pattern with the sign of `x` and its fraction, a zero fraction becoming 1: every NaN pattern is one of
these (93_implementation_defined.md U8). -/
def nanPattern (x : F64) : F64 :=
  ofMag (signOf x) (infMag + if fracOf x = 0 then 1 else fracOf x)

end Sys2Proof.Machine
end

