-- ==== Sys2Proof/Machine/Operands.lean ====
section
/-!
DEFINITION. The implicit operands of the commands (30_encoding.md R105): the elements of the local memories, and the
values of the registers a command reads as numbers.
-/

namespace Sys2Proof.Machine

open Config (Params)

/-- The offset of element `i` of a local memory (10_state.md R30). -/
def Ram.addr (m : Ram) (i : Nat) : Nat := m.base + m.stride * i

/-- `SFBOFF[k][15:0]` (10_state.md R54). -/
def sfboffAt (P : Params) (s : Arch) (k : Nat) : Nat := (halfAt P s (Ram.sfboff.addr k)).toNat

/-- `WIDTH_LONG[n][15:0]` (10_state.md R55). -/
def widthLongAt (P : Params) (s : Arch) (n : Nat) : Nat := (halfAt P s (Ram.widthLong.addr n)).toNat

/-- `WIDTH_SHORT[n][15:0]` (10_state.md R55). -/
def widthShortAt (P : Params) (s : Arch) (n : Nat) : Nat := (halfAt P s (Ram.widthShort.addr n)).toNat

/-- `SF[k]` (10_state.md R56). -/
def sfAt (P : Params) (s : Arch) (k : Nat) : Word := wordAt P s (Ram.sf.addr k)

/-- `BANDQ[b]` (10_state.md R57). -/
def bandqAt (P : Params) (s : Arch) (b : Nat) : F64 := dwordAt P s (Ram.bandq.addr b)

/-- `XR[i]` (10_state.md R58). -/
def xrAt (P : Params) (s : Arch) (i : Nat) : F64 := dwordAt P s (Ram.xr.addr i)

/-- `XI[i]` (10_state.md R59). -/
def xiAt (P : Params) (s : Arch) (i : Nat) : Word := wordAt P s (Ram.xi.addr i)

/-- The first `n` widths of the long geometry, in ascending band order. -/
def widthsLong (P : Params) (s : Arch) (n : Nat) : List Nat := (List.range n).map (widthLongAt P s)

/-- The first `n` widths of the short geometry, in ascending band order. -/
def widthsShort (P : Params) (s : Arch) (n : Nat) : List Nat := (List.range n).map (widthShortAt P s)

/-- The lines `lo .. hi - 1` of the spectral block, in ascending order. -/
def linesOf (P : Params) (s : Arch) (lo hi : Nat) : List F64 := (List.range' lo (hi - lo)).map (xrAt P s)

/-- `BLKTYPE[1:0] = 2`, `ONLY_SHORT`: the only distinction any rule reads (10_state.md R49). -/
def Arch.onlyShort (s : Arch) : Bool := s.blktype == 2

/-- Band `b` of the table: its first line and the line after its last (10_state.md R54). -/
def bandBounds (P : Params) (s : Arch) (b : Nat) : Nat × Nat := (sfboffAt P s b, sfboffAt P s (b + 1))

end Sys2Proof.Machine
end

