-- ==== Sys2Proof/Machine/Limbw.lean ====
section
/-!
DEFINITION. LIMBW, the Bandwidth Limiter command (40_limbw.md). All arithmetic is exact.
-/

namespace Sys2Proof.Machine

open Config (Params)

/-- `LimbwCheck` (40_limbw.md R121): the first check that fails, in order of priority. -/
def limbwCheck (s : Arch) : Option ErrCode :=
  if s.rate = 0 then some .bwArg
  else if Config.maxSfb < s.ncbShort.toNat ∨ Config.maxSfb < s.ncbLong.toNat then some .bandOvf
  else none

/-- The line-count ceiling floor(BW_REQ * num / RATE) (40_limbw.md R122). -/
def lineCeiling (s : Arch) (num : Nat) : Nat := s.bwReq.toNat * num / s.rate.toNat

/-- The loop of `Accum` from `k` bands and `l` lines on (40_limbw.md R123): a band is added only if the width with it
stays strictly below the ceiling `c`. -/
def accumFrom (c : Nat) : List Nat → Nat → Nat → Nat × Nat
  | [], k, l => (k, l)
  | w :: ws, k, l => if l + w < c then accumFrom c ws (k + 1) (l + w) else (k, l)

/-- `Accum(W, n, c)`, `W` and `n` given as the list of the first `n` widths: the bands in use and the lines covered
(40_limbw.md R123). -/
def accum (widths : List Nat) (c : Nat) : Nat × Nat := accumFrom c widths 0 0

/-- `Accum` of the short geometry (40_limbw.md R123). -/
def shortBound (P : Params) (s : Arch) : Nat × Nat :=
  accum (widthsShort P s s.ncbShort.toNat) (lineCeiling s Config.bwsNum)

/-- `Accum` of the long geometry (40_limbw.md R124). -/
def longBound (P : Params) (s : Arch) : Nat × Nat :=
  accum (widthsLong P s s.ncbLong.toNat) (lineCeiling s Config.bwlNum)

/-- The achieved bandwidth of `ll` long lines (40_limbw.md R125). -/
def achievedHz (s : Arch) (ll : Nat) : Nat := ll * s.rate.toNat / Config.bwlNum

/-- What a LIMBW that passes its check writes before `Complete()` (40_limbw.md R120). -/
def limbwResults (P : Params) (s : Arch) : Arch :=
  { s with
    maxcbs := BitVec.ofNat 16 (shortBound P s).1
    maxcbl := BitVec.ofNat 16 (longBound P s).1
    bwAch := BitVec.ofNat 32 (achievedHz s (longBound P s).2)
    cfgv := true }

/-- `LIMBW_complete` (40_limbw.md R120). -/
def limbwComplete (P : Params) (s : Arch) : Arch :=
  match limbwCheck s with
  | some e => failCommand e s
  | none => completeCommand (limbwResults P s)

/-- The meaning of LIMBW: its completion step. -/
def execLimbw (s : State) : Host.Outcome State Fault Refusal :=
  .next { s with toArch := limbwComplete machineParams s.toArch }

end Sys2Proof.Machine
end

