-- ==== Sys2Proof/Machine/Masking.lean ====
section
/-!
DEFINITION. The masking stage of QBLK (41_masking.md).
-/

namespace Sys2Proof.Machine

open Config (Params)

/-- One line of `BandEnergy`: the energy is added to the sum, rounded, and replaces the maximum only if strictly
greater (41_masking.md R142). -/
def energyStep (acc : F64 × F64) (x : F64) : F64 × F64 :=
  (add64 acc.1 (mul64 x x), if gt64 (mul64 x x) acc.2 then mul64 x x else acc.2)

/-- `BandEnergy` of the band's lines, in ascending order: the sum and the maximum of the energies (41_masking.md
R142). -/
def bandEnergy (lines : List F64) : F64 × F64 := lines.foldl energyStep (plusZero, plusZero)

/-- `DEFQUAL` is a finite positive value: only such a one has R141's quotient 1.0 and the quotient +0 of R149 for a
`QUALITY` of 0. A parameter that is not stands for the spec's default, 100.0 (log entry 21). -/
def defaultQuality (P : Params) : F64 :=
  if isFinite P.defqual && !isZero P.defqual && !signOf P.defqual then P.defqual else 0x4059000000000000

/-- The quality ratio `qr` (41_masking.md R141). -/
def qualityRatio (P : Params) (s : Arch) : F64 := div64 s.quality (defaultQuality P)

/-- The power of an energy's ratio to the reference energy (41_masking.md R143). -/
def ratioPower (P : Params) (refenrg energy : F64) : F64 := pow64 P (div64 energy refenrg)

/-- The blended target of the average and the maximum energy (41_masking.md R144). -/
def blendedTarget (P : Params) (refenrg avge maxe : F64) : F64 :=
  add64 (mul64 Config.noisetone (ratioPower P refenrg avge)) (mul64 Config.cNoise (ratioPower P refenrg maxe))

/-- The frequency-position factor of the band from line `lo` to before line `hi` (41_masking.md R146). -/
def positionFactor (lo hi : Nat) : F64 :=
  div64 Config.cPos (add64 Config.one (div64 (i2f (lo + hi : Nat)) Config.fBlockLong))

/-- The target of one band from its lines (41_masking.md R142 to R147), with the datapath's NaN where it is a NaN. -/
def maskTarget (P : Params) (onlyShort : Bool) (refenrg qr : F64) (lo hi : Nat) (lines : List F64) : F64 :=
  let energy := bandEnergy lines
  let t := blendedTarget P refenrg (div64 energy.1 (i2f (hi - lo : Nat))) energy.2
  let t := if onlyShort then t else mul64 t Config.wLong
  mul64 (mul64 t (positionFactor lo hi)) qr

/-- The operands that a band's target depends on (42_companding.md R169), as the argument of its NaN pattern. -/
def targetOperands (s : Arch) (lo hi : Nat) (lines : List F64) : List F64 :=
  BitVec.ofNat 64 lo :: BitVec.ofNat 64 hi :: s.blktype.zeroExtend 64 :: s.refenrg :: s.quality :: lines

/-- What is stored in `BANDQ` for a target: a NaN has any NaN pattern (00_scope.md R11, U8, log entry 5). -/
def storedTarget (P : Params) (t : F64) (operands : List F64) : F64 :=
  if isNaN t then nanPattern (P.nanBits operands) else t

/-- The masking target of band `b` as stored (41_masking.md R140). -/
def bandTarget (P : Params) (s : Arch) (b : Nat) : F64 :=
  let lo := (bandBounds P s b).1
  let hi := (bandBounds P s b).2
  let lines := linesOf P s lo hi
  storedTarget P (maskTarget P s.onlyShort s.refenrg (qualityRatio P s) lo hi lines) (targetOperands s lo hi lines)

/-- `BANDQ[b] <- t` (41_masking.md R148). -/
def maskBand (P : Params) (s : Arch) (b : Nat) : Arch := putDword s (Ram.bandq.addr b) (bandTarget P s b)

/-- `Mask()` (41_masking.md R140): the bands in ascending order. -/
def maskStage (P : Params) (s : Arch) : Arch := (List.range s.nsfb.toNat).foldl (maskBand P) s

end Sys2Proof.Machine
end

