-- ==== Sys2Proof/Machine/Companding.lean ====
section
/-!
DEFINITION. The scale-factor search and companding stage of QBLK (42_companding.md).
-/

namespace Sys2Proof.Machine

open Config (Params)

/-- The RMS magnitude of a band of `n` lines (42_companding.md R161). -/
def rmsOf (lines : List F64) (n : Nat) : F64 := sqrt64 (div64 (bandEnergy lines).1 (i2f n))

/-- The peak magnitude of a band (42_companding.md R161). -/
def peakOf (lines : List F64) : F64 := sqrt64 (bandEnergy lines).2

/-- The band takes the silent path: its peak is below the floor or its target is zero (42_companding.md R162, R163). -/
def silentBand (target : F64) (lines : List F64) : Bool :=
  lt64 (peakOf lines) Config.silFloor || eq64 target plusZero

/-- The scale factor of a band that is not silent (42_companding.md R165). -/
def scaleFactor (P : Params) (target rms : F64) : Int := roundSF (mul64 (log64 P (div64 target rms)) Config.sfstep)

/-- The companding multiplier of a scale factor (42_companding.md R166). -/
def multiplier (P : Params) (sf : Int) : F64 := exp64 P (div64 (i2f sf) Config.sfstep)

/-- One companded coefficient (42_companding.md R166). -/
def compand (m x : F64) : Int := truncQ (add64 (sqrt64 (sqrt64 (mul64 (abs64 x) m))) Config.magic)

/-- The results of one band: its scale-factor entry and its quantized lines (42_companding.md R164 to R167). -/
def quantizeBand (P : Params) (target : F64) (lines : List F64) : Word × List Word :=
  if silentBand target lines then (P.sfSilent, lines.map (fun _ => 0))
  else
    let sf := scaleFactor P target (rmsOf lines lines.length)
    (BitVec.ofInt 32 sf, lines.map (fun x => BitVec.ofInt 32 (compand (multiplier P sf) x)))

/-- `XI[i] <- v` for consecutive lines from line `lo`. -/
def putLines (s : Arch) (lo : Nat) (vs : List Word) : Arch := putWords s (Ram.xi.addr lo) vs

/-- `SF[SFCNT] <- w; SFCNT <- SFCNT + 1` (42_companding.md R164, R167). -/
def appendSf (s : Arch) (w : Word) : Arch :=
  { putWords s (Ram.sf.addr s.sfcnt.toNat) [w] with sfcnt := s.sfcnt + 1 }

/-- One band of `Qlevel()`: its lines are quantized, then its scale factor is appended (42_companding.md R160). -/
def qlevelBand (P : Params) (s : Arch) (b : Nat) : Arch :=
  let lo := (bandBounds P s b).1
  let hi := (bandBounds P s b).2
  let r := quantizeBand P (bandqAt P s b) (linesOf P s lo hi)
  appendSf (putLines s lo r.2) r.1

/-- `Qlevel()` (42_companding.md R160): the bands in ascending order. -/
def qlevelStage (P : Params) (s : Arch) : Arch := (List.range s.nsfb.toNat).foldl (qlevelBand P) s

end Sys2Proof.Machine
end

