-- ==== Sys2Proof/Machine/Qblk.lean ====
section
/-!
DEFINITION. QBLK, the Block Quantization Orchestrator command (43_qblk.md).
-/

namespace Sys2Proof.Machine

open Config (Params)

/-- The boundaries 0..`NSFB` start at 0, rise strictly and end within the block (43_qblk.md R181 point 3). -/
def bandTableOk (P : Params) (s : Arch) : Bool :=
  sfboffAt P s 0 == 0 &&
    (List.range s.nsfb.toNat).all (fun b => decide (sfboffAt P s b < sfboffAt P s (b + 1))) &&
    decide (sfboffAt P s s.nsfb.toNat ≤ Config.frameLen)

/-- `QblkCheck` (43_qblk.md R181): the first check that fails, in order of priority. -/
def qblkCheck (P : Params) (s : Arch) : Option ErrCode :=
  if !s.cfgv then some .cfgUninit
  else if Config.maxSfb < s.nsfb.toNat then some .bandOvf
  else if !bandTableOk P s then some .bandTable
  else none

/-- Line `i` counts as signal: its magnitude is not below the threshold (43_qblk.md R182). -/
def lineHasSignal (P : Params) (s : Arch) (i : Nat) : Bool := !lt64 (abs64 (xrAt P s i)) Config.thrSilent

/-- The silence scan over all 1024 lines (43_qblk.md R182). -/
def blockHasSignal (P : Params) (s : Arch) : Bool := (List.range Config.frameLen).any (lineHasSignal P s)

/-- Every `XI[i]` and `SFCNT` set to 0 (43_qblk.md R183). -/
def clearOutputs (s : Arch) : Arch := { putLines s 0 (List.replicate Config.frameLen 0) with sfcnt := 0 }

/-- What a QBLK that passes its check writes before `Complete()` (43_qblk.md R180, R184, R185). -/
def qblkResults (P : Params) (s : Arch) : Arch :=
  if blockHasSignal P s then { qlevelStage P (maskStage P (clearOutputs s)) with signal := true }
  else { clearOutputs s with signal := false }

/-- `QBLK_complete` (43_qblk.md R180). -/
def qblkComplete (P : Params) (s : Arch) : Arch :=
  match qblkCheck P s with
  | some e => failCommand e s
  | none => completeCommand (qblkResults P s)

/-- The meaning of QBLK: its completion step. -/
def execQblk (s : State) : Host.Outcome State Fault Refusal :=
  .next { s with toArch := qblkComplete machineParams s.toArch }

end Sys2Proof.Machine
end

