-- ==== Sys2Proof/Machine/Dispatch.lean ====
section
/-!
DEFINITION. The meaning of each command: one arm per constructor of Instr.
-/

namespace Sys2Proof.Machine

/-- What each command does: its completion step. -/
def exec (i : Instr) (s : State) : Host.Outcome State Fault Refusal :=
  match i with
  | .limbw => Sys2Proof.Machine.execLimbw s
  | .qblk => Sys2Proof.Machine.execQblk s

end Sys2Proof.Machine
end

