-- ==== Sys2Proof/Machine/Bus.lean ====
section
/-!
DEFINITION. The host bus: reads, writes, the command decoder at `CMD`, and each event that can reach the QCU
(20_memory.md, 30_encoding.md, 70_reset_and_hazards.md).
-/

namespace Sys2Proof.Machine

open Config (Params)

/-! ### Reads (20_memory.md R72) -/

/-- The stored value of a register, reserved bits 0; `ID` and `CAPS` are constants and `CMD` reads 0. -/
def readReg (s : Arch) : Reg → Word
  | .id => Config.idWord
  | .caps => Config.capsWord
  | .ctrl => s.ctrl.zeroExtend 32
  | .status => statusWord s
  | .cmd => 0
  | .bwReq => s.bwReq
  | .rate => s.rate
  | .bwAch => s.bwAch
  | .maxcbs => s.maxcbs.zeroExtend 32
  | .maxcbl => s.maxcbl.zeroExtend 32
  | .ncbShort => s.ncbShort.zeroExtend 32
  | .ncbLong => s.ncbLong.zeroExtend 32
  | .blktype => s.blktype.zeroExtend 32
  | .nsfb => s.nsfb.zeroExtend 32
  | .sfcnt => s.sfcnt.zeroExtend 32
  | .qualityLo => s.quality.extractLsb' 0 32
  | .qualityHi => s.quality.extractLsb' 32 32
  | .refenrgLo => s.refenrg.extractLsb' 0 32
  | .refenrgHi => s.refenrg.extractLsb' 32 32

/-- The stored word of a local memory at an aligned offset: of a 16-bit element, bits 31:16 read 0. -/
def readRam (P : Params) (s : Arch) (m : Ram) (off : Nat) : Word :=
  if m.kept = 2 then (halfAt P s off).zeroExtend 32 else wordAt P s off

/-- The stored value at an aligned offset; a reserved offset reads 0 (20_memory.md R77). -/
def storedWord (P : Params) (s : Arch) (off : Nat) : Word :=
  match locate off with
  | .reg r => readReg s r
  | .ram m => readRam P s m off
  | .reserved => 0

/-- What a read returns when the free word is `f`: while a command runs, an output location reads any value, and so do
the `SIGNAL` and `CFGV` fields of `STATUS`; everything else reads as stored (70_reset_and_hazards.md R242). -/
def observedWord (P : Params) (s : Arch) (off : Nat) (f : Word) : Word :=
  if s.busy then
    match locate off with
    | .reg .status => statusWordWith s (f.getLsbD 3) (f.getLsbD 4)
    | l => if l.isOutput then f else storedWord P s off
  else storedWord P s off

/-- A read that is performed: the value on the data lines; each read takes its own free word. -/
def busRead (P : Params) (off : Nat) (s : State) : Word := observedWord P s.toArch off (P.freeWord s.free)

/-! ### Writes (20_memory.md R73) -/

/-- Replaces the stored bits of a register by the corresponding bits of `v`, for a register whose bits a write
replaces; any other register is unchanged. -/
def writeReg (v : Word) (s : Arch) : Reg → Arch
  | .ctrl => { s with ctrl := v.setWidth 2 }
  | .bwReq => { s with bwReq := v }
  | .rate => { s with rate := v }
  | .ncbShort => { s with ncbShort := v.setWidth 16 }
  | .ncbLong => { s with ncbLong := v.setWidth 16 }
  | .blktype => { s with blktype := v.setWidth 2 }
  | .nsfb => { s with nsfb := v.setWidth 16 }
  | .qualityLo => { s with quality := s.quality.extractLsb' 32 32 ++ v }
  | .qualityHi => { s with quality := v ++ s.quality.extractLsb' 0 32 }
  | .refenrgLo => { s with refenrg := s.refenrg.extractLsb' 32 32 ++ v }
  | .refenrgHi => { s with refenrg := v ++ s.refenrg.extractLsb' 0 32 }
  | .id | .caps | .status | .cmd | .bwAch | .maxcbs | .maxcbl | .sfcnt => s

/-- Stores the kept bytes of a word of a local memory. -/
def writeRam (v : Word) (m : Ram) (off : Nat) (s : Arch) : Arch := putBytes s off (leBytes m.kept v.toNat)

/-- A write to an input location that is idle to take it. -/
def writeInput (v : Word) (off : Nat) (s : Arch) : Arch :=
  match locate off with
  | .reg r => writeReg v s r
  | .ram m => writeRam v m off s
  | .reserved => s

/-- A write to `CMD` (30_encoding.md R101): busy first, then the decoder. -/
def writeCmd (P : Params) (w : Word) (s : State) : State :=
  if s.busy then { s with toArch := recordError .cmdBusy s.toArch }
  else
    match decodeWord w with
    | .ok op => s.accept P op
    | .error _ => { s with toArch := recordError .illegalCmd s.toArch }

/-- A write that is performed (20_memory.md R73): `CMD` goes to the decoder, `STATUS` takes its W1C effect, `CTRL` is
written at any time, an input is written, or refused with `WR_BUSY` while a command runs (70_reset_and_hazards.md
R241), and a read-only or reserved location ignores it (20_memory.md R77, R78). -/
def busWrite (P : Params) (off : Nat) (v : Word) (s : State) : State :=
  match locate off with
  | .reg .cmd => writeCmd P v s
  | .reg .status => { s with toArch := writeStatus v s.toArch }
  | .reg .ctrl => { s with toArch := writeReg v s.toArch .ctrl }
  | l =>
    if l.isInput then
      (if s.busy then { s with toArch := recordError .wrBusy s.toArch }
       else { s with toArch := writeInput v off s.toArch })
    else s

/-! ### Events -/

/-- The bus error response to a refused access: a refused read has 0 on the data lines (20_memory.md R74). -/
def refusedResponse : Access → Response
  | .read _ _ => .errorRead 0
  | .write _ _ _ => .errorWrite

/-- An access that is performed: its effect and its response. -/
def performAccess (P : Params) (a : Access) (s : State) : State :=
  match a with
  | .read off _ => { s with resp := some (.okayRead (busRead P off s)), free := s.free + 1 }
  | .write off _ v => { busWrite P off v s with resp := some .okayWrite }

/-- One bus access: refused where it is misaligned or not 32 bits wide, with no change of the QCU's state
(20_memory.md R74, 60_exceptions.md R202). -/
def hostAccess (P : Params) (a : Access) (s : State) : Host.Outcome State Fault Refusal :=
  if !a.inWindow then .fault .outsideWindow
  else if a.aligned && a.isWord then .next (performAccess P a s)
  else .next { s with resp := some (refusedResponse a) }

/-- The read of `STATUS` that the polling loop makes. -/
def statusRead : Access := .read Reg.status.offset .word

/-- One turn of the polling loop of 30_encoding.md R106: the loop stays first in line while bit 0 of the value read
is 1. -/
def hostWait (P : Params) (s : State) : State :=
  let t := performAccess P statusRead s
  if (busRead P Reg.status.offset s).getLsbD 0 then { t with bus := .wait :: t.bus } else t

/-- Reset asserted (70_reset_and_hazards.md R230): a bus access in progress has no effect and gets the platform's
response. -/
def hostReset (inProgress : Option Access) (s : State) : State :=
  { s with
    toArch := resetArch s.toArch
    lat := 0
    resp := match inProgress with
      | some _ => some .platform
      | none => s.resp }

/-- One event that reaches the QCU. -/
def hostEvent (P : Params) (e : HostEvent) (s : State) : Host.Outcome State Fault Refusal :=
  match e with
  | .access a => hostAccess P a s
  | .wait => .next (hostWait P s)
  | .reset inProgress => .next (hostReset inProgress s)

/-- The Host's turn: its next event, if it has one. An idle QCU with nothing on the bus keeps its state
(60_exceptions.md R225). -/
def hostTurn (P : Params) (s : State) : Host.Outcome State Fault Refusal :=
  match s.bus with
  | [] => .next s
  | e :: rest => hostEvent P e { s with bus := rest, lat := s.lat - 1 }

/-- The command whose completion step is next: one is in flight, and the Host events that come before its completion
have happened, or there are none left (70_reset_and_hazards.md R245). -/
def dueCommand (s : State) : Option Instr :=
  match s.seq with
  | .idle => none
  | .run op => if s.lat = 0 ∨ s.bus = [] then some op else none

/-- The state in which the word `w` has been given as the next command: accepted, with its completion step next, where
it is a command; and where it is not, the write of it to `CMD` next on the bus. -/
def State.presentWord (s : State) (nbits w : Nat) : State :=
  match decodeTableWord nbits w with
  | some op => { s with toArch := acceptCommand op s.toArch, lat := 0 }
  | none =>
    { s with
      seq := .idle
      bus := .access (.write Reg.cmd.offset .word (BitVec.ofNat 32 (w % 2 ^ nbits))) :: s.bus }

end Sys2Proof.Machine
end

