-- ==== Sys2Proof/Machine/HostProgram.lean ====
section
/-!
DEFINITION. Host programs (30_encoding.md R106, R107): each operation as the bus events it stands for.
-/

namespace Sys2Proof.Machine

/-- `wr OFF, W`. -/
def wrEvent (off : Nat) (w : Word) : HostEvent := .access (.write off .word w)

/-- `rd OFF`. -/
def rdEvent (off : Nat) : HostEvent := .access (.read off .word)

/-- The expansion of one operation (30_encoding.md R106). The comparison of `expect` is the test harness's
(`meetsExpectation`). -/
def expandOp : HostOp → List HostEvent
  | .wr off w => [wrEvent off w]
  | .rd off => [rdEvent off]
  | .limbw => [wrEvent Reg.cmd.offset (encode .limbw)]
  | .qblk => [wrEvent Reg.cmd.offset (encode .qblk)]
  | .wr64 off p => [wrEvent off (p.extractLsb' 0 32), wrEvent (off + 4) (p.extractLsb' 32 32)]
  | .wait => [.wait]
  | .clr => [wrEvent Reg.status.offset 0x00000006]
  | .expect off _ => [rdEvent off]

/-- The test of `expect OFF, W` on the response of its read: it fails unless the value read is `W`. -/
def meetsExpectation (w : Word) (r : Option Response) : Bool := r == some (.okayRead w)

/-- The encoding of a program: the list of its bus events (30_encoding.md R107). -/
def expandProgram (prog : List HostOp) : List HostEvent := prog.flatMap expandOp

/-- The Host will run `prog` after what it already has to do. -/
def State.issue (s : State) (prog : List HostOp) : State := { s with bus := s.bus ++ expandProgram prog }

end Sys2Proof.Machine
end

