-- ==== Sys2Proof/Machine/Step.lean ====
section
/-!
DEFINITION. One step of the machine: the completion step of the command in flight when it is due, else the Host's next
event (20_memory.md R80).
-/

namespace Sys2Proof.Machine

/-- One step. -/
def step (s : State) : Host.Outcome State Fault Refusal :=
  match dueCommand s with
  | some op => exec op s
  | none => hostTurn machineParams s

/-- `s` with the instruction given as the next command (log entry 1). -/
def State.withFetchWord (s : State) (nbits w : Nat) : State := s.presentWord nbits w

end Sys2Proof.Machine
end

