-- ==== Sys2Proof/Safety.lean ====
section
/-!
DEFINITION. The terms in which statements about the machine are made: the invariant of the architectural state, the
inputs and outputs of the commands, the reading of 40_limbw.md's accumulation by sums of widths, rounding to nearest,
and the named accuracy of the parameter functions.
-/

namespace Sys2Proof.Machine

open Config (Params)

/-- What holds of the architectural state at reset and after every step. -/
structure Arch.Inv (s : Arch) : Prop where
  /-- The local memories are in canonical form. -/
  memWf : s.mem.wf
  /-- Only bytes of the local memories are listed (10_state.md R54 to R59). -/
  memInRam : ∀ c ∈ s.mem, isRamByte c.1 = true
  /-- The values written to `XI` are in 0..2^31-1 (10_state.md R59): bit 7 of a listed top byte is 0. -/
  xiNonneg : ∀ c ∈ s.mem, Ram.xi.holds c.1 = true → c.1 % 4 = 3 → c.2.toNat < 128
  /-- `LASTOP` names the command in flight (10_state.md R60). -/
  runLastop : ∀ op, s.seq = .run op → s.lastop = opcodeByte op
  /-- `DONE` is 0 while a command is in flight (10_state.md R37). -/
  runNotDone : s.busy = true → s.done = false
  /-- `ERRCODE` is `NONE` exactly while `ERR` is 0 (10_state.md R38). -/
  errCode : s.err = false ↔ s.errcode = .noError
  /-- Only the two opcodes are ever accepted (10_state.md R41, 30_encoding.md R103). -/
  lastopLegal : s.lastop = 0x00 ∨ s.lastop = 0x01 ∨ s.lastop = 0x02
  /-- `SFCNT` is in 0..128 (10_state.md R51). -/
  sfcntLe : s.sfcnt.toNat ≤ Config.maxSfb
  /-- `MAXCBS` is in 0..128 (10_state.md R46). -/
  maxcbsLe : s.maxcbs.toNat ≤ Config.maxSfb
  /-- `MAXCBL` is in 0..128 (10_state.md R47). -/
  maxcblLe : s.maxcbl.toNat ≤ Config.maxSfb
  /-- Until a LIMBW succeeds its outputs hold their reset values (10_state.md R45 to R47, R40). -/
  unconfigured : s.cfgv = false → s.maxcbs = 0 ∧ s.maxcbl = 0 ∧ s.bwAch = 0
  /-- No QBLK succeeds before a LIMBW (43_qblk.md R181). -/
  signalCfgv : s.signal = true → s.cfgv = true
  /-- After a silent block, and before any block, there is no scale factor (10_state.md R51). -/
  sfcntSignal : s.sfcnt ≠ 0 → s.signal = true
  /-- `DONE` comes only after a command was accepted (10_state.md R37, R41). -/
  doneLastop : s.done = true → s.lastop ≠ 0x00

/-- The inputs of the commands are the same in both states: every register and local memory the Host writes, `CTRL`
apart, and the choice of the unspecified contents (10_state.md R43, R44, R48 to R50, R52 to R55, R58). -/
def SameInputs (P : Params) (s t : Arch) : Prop :=
  s.bwReq = t.bwReq ∧ s.rate = t.rate ∧ s.ncbShort = t.ncbShort ∧ s.ncbLong = t.ncbLong ∧ s.blktype = t.blktype ∧
    s.nsfb = t.nsfb ∧ s.quality = t.quality ∧ s.refenrg = t.refenrg ∧
    ∀ m : Ram, m.kind = .rw → ∀ x, m.holds x = true → byteAt P s x = byteAt P t x

/-- The outputs of the commands are the same in both states (10_state.md R45 to R47, R51, R56, R57, R59, and the
`SIGNAL` and `CFGV` fields). -/
def SameOutputs (P : Params) (s t : Arch) : Prop :=
  s.bwAch = t.bwAch ∧ s.maxcbs = t.maxcbs ∧ s.maxcbl = t.maxcbl ∧ s.sfcnt = t.sfcnt ∧ s.signal = t.signal ∧
    s.cfgv = t.cfgv ∧ ∀ m : Ram, m.kind = .ro → ∀ x, m.holds x = true → byteAt P s x = byteAt P t x

/-- The lines of the first `k` bands of a geometry. -/
def linesBefore (width : Nat → Nat) (k : Nat) : Nat := ((List.range k).map width).sum

/-- `k` is the number of bands, of `n`, that 40_limbw.md R123 accumulates below the ceiling `c`: each of them keeps
the accumulated width below `c`, and the next one, if there is one, meets or exceeds it. -/
def IsBandBound (width : Nat → Nat) (n c k : Nat) : Prop :=
  k ≤ n ∧ (∀ j, j < k → linesBefore width (j + 1) < c) ∧ (k < n → c ≤ linesBefore width (k + 1))

/-- The band table passes 43_qblk.md R181 point 3: it starts at 0, rises strictly and ends within the block. -/
def BandTableValid (P : Params) (s : Arch) : Prop :=
  sfboffAt P s 0 = 0 ∧ (∀ b, b < s.nsfb.toNat → sfboffAt P s b < sfboffAt P s (b + 1)) ∧
    sfboffAt P s s.nsfb.toNat ≤ Config.frameLen

/-- Some line of the block is not below the threshold (43_qblk.md R182). -/
def BlockSignal (P : Params) (s : Arch) : Prop :=
  ∃ i, i < Config.frameLen ∧ lt64 (abs64 (xrAt P s i)) Config.thrSilent = false

/-- A QBLK on this state passes its check (43_qblk.md R181). -/
def QblkReady (P : Params) (s : Arch) : Prop :=
  s.cfgv = true ∧ s.nsfb.toNat ≤ Config.maxSfb ∧ BandTableValid P s

/-- A LIMBW on this state passes its check (40_limbw.md R121). -/
def LimbwReady (s : Arch) : Prop :=
  s.rate ≠ 0 ∧ s.ncbShort.toNat ≤ Config.maxSfb ∧ s.ncbLong.toNat ≤ Config.maxSfb

/-- The lines of band `b`. -/
def bandLines (P : Params) (s : Arch) (b : Nat) : List F64 :=
  linesOf P s (bandBounds P s b).1 (bandBounds P s b).2

/-- The units of the finite magnitude pattern `m`. -/
def unitsOfMag (m : Nat) : Nat := unitsOf (ofMag false m)

/-- How far, in parts of `1 / d` units, the magnitude pattern `m` lies from the quotient `n / d`. -/
def distanceFrom (n d m : Nat) : Nat := ((unitsOfMag m * d : Int) - (n : Int)).natAbs

/-- The value of a finite pattern as a rational number. -/
def ratOf (x : F64) : ℚ := (valueOf x : ℚ) / (unitsPerOne : ℚ)

/-- `x` is the binary64 pattern nearest to the real number `r`, ties to even, overflowing to infinity (00_scope.md
R10, R14 to R16). -/
def RoundsTo (r : ℝ) (x : F64) : Prop :=
  let bound : ℝ := 2 ^ 1024 - 2 ^ 970
  (isFinite x = true ∧ |r| < bound ∧
    ∀ y, isFinite y = true →
      |((ratOf x : ℚ) : ℝ) - r| < |((ratOf y : ℚ) : ℝ) - r| ∨
        (|((ratOf x : ℚ) : ℝ) - r| = |((ratOf y : ℚ) : ℝ) - r| ∧ (ratOf x = ratOf y ∨ magOf x % 2 = 0))) ∨
  (isInf x = true ∧ ((signOf x = false ∧ bound ≤ r) ∨ (signOf x = true ∧ r ≤ -bound)))

/-- The named accuracy of the three parameter functions: the spec's default, correct rounding (00_scope.md R14 to R16).
The machine's own parameters are not assumed to have it (log entry 6). -/
structure CorrectlyRounded (P : Params) : Prop where
  pow : ∀ x y, isFinite x = true → isFinite y = true → 0 < valueOf x →
    RoundsTo (Real.rpow ((ratOf x : ℚ) : ℝ) ((ratOf y : ℚ) : ℝ)) (P.pow x y)
  log : ∀ x, isFinite x = true → 0 < valueOf x → RoundsTo (Real.log ((ratOf x : ℚ) : ℝ)) (P.log x)
  exp : ∀ x, isFinite x = true → RoundsTo (Real.exp ((ratOf x : ℚ) : ℝ)) (P.exp x)

/-! ### Offsets of the window, written out from the table of 10_state.md R30 -/

/-- An aligned offset of the window. -/
def WordOffset (off : Nat) : Prop := off < 0x10000 ∧ off % 4 = 0

/-- The locations of 70_reset_and_hazards.md R241. -/
def InputOffset (off : Nat) : Prop :=
  off ∈ [0x14, 0x18, 0x28, 0x2C, 0x30, 0x34, 0x40, 0x44, 0x48, 0x4C] ∨ (0x400 ≤ off ∧ off ≤ 0x600) ∨
    (0x800 ≤ off ∧ off < 0xA00) ∨ (0xA00 ≤ off ∧ off < 0xC00) ∨ (0x2000 ≤ off ∧ off < 0x4000)

/-- The registers and memories of 70_reset_and_hazards.md R242 (the fields of `STATUS` apart). -/
def OutputOffset (off : Nat) : Prop :=
  off ∈ [0x1C, 0x20, 0x24, 0x38] ∨ (0xC00 ≤ off ∧ off < 0xE00) ∨ (0x1000 ≤ off ∧ off < 0x1400) ∨
    (0x4000 ≤ off ∧ off < 0x5000)

/-- The locations of 20_memory.md R78. -/
def ReadOnlyOffset (off : Nat) : Prop := off = 0x0 ∨ off = 0x4 ∨ OutputOffset off

/-- The offsets that 10_state.md R30 does not list (20_memory.md R77). -/
def ReservedOffset (off : Nat) : Prop := ¬ (InputOffset off ∨ ReadOnlyOffset off ∨ off ∈ [0x8, 0xC, 0x10])

/-- The stored bits of an input location or of `CTRL` (10_state.md R30). -/
def storedMask (off : Nat) : Word :=
  if off = 0x8 ∨ off = 0x30 then 0x00000003
  else if off = 0x28 ∨ off = 0x2C ∨ off = 0x34 ∨ (0x400 ≤ off ∧ off < 0xC00) then 0x0000FFFF
  else 0xFFFFFFFF

/-- The machine's next event is the Host's `e`: no completion step is due, and `e` is first in line. -/
def NextEvent (s : State) (e : HostEvent) (rest : List HostEvent) : Prop :=
  (s.seq = .idle ∨ s.lat ≠ 0) ∧ s.bus = e :: rest

end Sys2Proof.Machine
end

