-- ==== Sys2Proof/Certificates/Slice0/Obligations.lean ====
section
/-!
DEFINITION. The statements about the machine. `machineParams` are its uninterpreted parameters (00_scope.md R6).
-/

open Sys2Proof Sys2Proof.Machine

/-! ### Encoding -/

/-- Every command's word decodes to it, as a word, as bytes and as a table word (30_encoding.md R103). -/
def Obligations.EncodedCommandsDecodeToThemselves : Prop :=
  ∀ i : Instr, i.wellFormed = true →
    decodeWord (encode i) = .ok i ∧ decodeBytes (encodeBytes i) = .ok i ∧
      decodeTableWord 32 (encode i).toNat = some i

/-- The opcode map is complete: the whole 32-bit word is matched, and only two words are commands (30_encoding.md
R103). -/
def Obligations.OnlyTwoWordsAreCommands : Prop :=
  ∀ w : Word,
    (decodeWord w = .ok .limbw ↔ w = 0x00000001) ∧ (decodeWord w = .ok .qblk ↔ w = 0x00000002) ∧
      ((Cmd32.ofWord w).wellFormed = true ↔ w = 0x00000001 ∨ w = 0x00000002) ∧
      (w ≠ 0x00000001 → w ≠ 0x00000002 → ∃ e, decodeWord w = .error e)

/-- A few words written out from the encoding (30_encoding.md R100, R103, R104), as the bytes the Host's memory holds. -/
def Obligations.WrittenOutWordsDecode : Prop :=
  decodeBytes [0x01, 0x00, 0x00, 0x00] = .ok .limbw ∧ decodeBytes [0x02, 0x00, 0x00, 0x00] = .ok .qblk ∧
    decodeBytes [0x00, 0x00, 0x00, 0x00] = .error (.reservedOpcode 0x00) ∧
    decodeBytes [0x01, 0x01, 0x00, 0x00] = .error (.mbzNotZero 0x000001) ∧
    decodeBytes [0x02, 0x00, 0x00, 0x80] = .error (.mbzNotZero 0x800000)

/-! ### Steps -/

/-- A step runs the command in flight once its completion step is due (10_state.md R60; log entry 2). -/
def Obligations.DueCommandIsRunByStep : Prop :=
  ∀ (s : State) (op : Instr), s.seq = .run op → (s.lat = 0 ∨ s.bus = []) → step s = exec op s

/-- A `CMD` write of a command's word is accepted, and its completion step follows at once where no other event comes
before it (30_encoding.md R101, R102). That the completion step waits for `lat` Host events, a free number, is the
model's choice: log entry 2. -/
def Obligations.AcceptedCommandIsDecodedAndRun : Prop :=
  ∀ (s : State) (w : Word) (op : Instr) (rest : List HostEvent), s.seq = .idle → decodeWord w = .ok op →
    s.bus = .access (.write 0x10 .word w) :: rest →
    ∃ t, step s = .next t ∧
      t.toArch = { s.toArch with seq := .run op, done := false, lastop := w.extractLsb' 0 8 } ∧ t.busy = true ∧
      t.bus = rest ∧ t.resp = some .okayWrite ∧ t.lat = machineParams.latency s.free ∧
      (t.lat = 0 ∨ rest = [] → step t = exec op t)

/-- The word given by `withFetchWord` is the command that the very next step runs (log entry 1). -/
def Obligations.FetchWordIsRunNext : Prop :=
  ∀ (s : State) (nbits w : Nat) (op : Instr), decodeTableWord nbits w = some op →
    step (s.withFetchWord nbits w) = exec op (s.withFetchWord nbits w) ∧
      (s.withFetchWord nbits w).toArch =
        { s.toArch with seq := .run op, done := false, lastop := (encode op).extractLsb' 0 8 } ∧
      (s.withFetchWord nbits w).bus = s.bus

/-- No step refuses, and one faults only for an access outside the window (20_memory.md R70; log entry 11). -/
def Obligations.StepFaultsOnlyOutsideTheWindow : Prop :=
  ∀ s : State, (∀ r, step s ≠ .refused r) ∧
    ∀ f, step s = .fault f →
      f = .outsideWindow ∧ (s.seq = .idle ∨ s.lat ≠ 0) ∧
        ∃ a rest, s.bus = .access a :: rest ∧ 0x10000 ≤ a.off

/-- Every command in flight reaches its completion step after at most `lat` Host events, unless a reset or an access
outside the window comes, with the inputs and outputs as they were (70_reset_and_hazards.md R245, 20_memory.md R81).
The count `lat` is the model's choice: log entry 2. -/
def Obligations.CommandInFlightReachesCompletion : Prop :=
  ∀ (s : State) (op : Instr), s.seq = .run op →
    (∀ e ∈ s.bus, e.inWindow = true ∧ ∀ i, e ≠ .reset i) →
    ∃ k t, k ≤ s.lat ∧ core.run k s = .next t ∧ t.seq = .run op ∧ step t = exec op t ∧
      SameInputs machineParams s.toArch t.toArch ∧ SameOutputs machineParams s.toArch t.toArch

/-- The polling loop ends (30_encoding.md R106): after its first read where no command is in flight, and else after the
command has completed. The polling loop as one event, and the count of its steps, are the model's choice: log entries 2 and 13. -/
def Obligations.WaitLoopEnds : Prop :=
  ∀ (s : State) (rest : List HostEvent), s.bus = .wait :: rest →
    ∃ k t, k ≤ s.lat + 2 ∧ (s.seq = .idle → k = 1) ∧ core.run k s = .next t ∧ t.seq = .idle ∧ t.bus = rest

/-! ### The invariant -/

/-- The invariant holds after every reset, the first one among them. -/
def Obligations.ResetSatisfiesInvariant : Prop := State.reset.toArch.Inv ∧ ∀ epoch, (Arch.reset epoch).Inv

/-- Every step keeps the invariant. -/
def Obligations.StepKeepsInvariant : Prop :=
  ∀ s t : State, s.toArch.Inv → step s = .next t → t.toArch.Inv

/-! ### Reset -/

/-- After reset every register reads the reset value of its row, the Sequencer is idle, and every byte of the local
memories reads an unspecified value (10_state.md R61), the free value of log entry 3. -/
def Obligations.ResetStateIsAsTabled : Prop :=
  let a := State.reset.toArch
  readReg a .id = 0x51434D01 ∧ readReg a .caps = 0x00800400 ∧
    (∀ r : Reg, r ≠ .id → r ≠ .caps → readReg a r = 0x00000000) ∧ a.seq = .idle ∧ a.irq = false ∧
    ∀ (P : Config.Params) (x : Nat), byteAt P a x = P.ramByte 0 x

/-- Reset abandons the command in flight and gives every register its reset value and the local memories unspecified
contents anew (70_reset_and_hazards.md R230, R231). The response to an access in progress is the platform's: log
entry 12. -/
def Obligations.ResetEventResetsTheMachine : Prop :=
  ∀ (s : State) (i : Option Access) (rest : List HostEvent), NextEvent s (.reset i) rest →
    ∃ t, step s = .next t ∧ t.toArch = Arch.reset (s.ramEpoch + 1) ∧ t.busy = false ∧ t.irq = false ∧
      t.bus = rest ∧ (i = none → t.resp = s.resp) ∧ (i ≠ none → t.resp = some .platform)

/-! ### The register map -/

/-- What each offset of the table reads (10_state.md R30; 20_memory.md R72). -/
def Obligations.WindowReadsAsTabled : Prop :=
  ∀ (P : Config.Params) (a : Arch),
    (storedWord P a 0x00 = 0x51434D01 ∧ storedWord P a 0x04 = 0x00800400 ∧
      storedWord P a 0x08 = a.ctrl.zeroExtend 32 ∧ storedWord P a 0x0C = statusWord a ∧
      storedWord P a 0x10 = 0 ∧ storedWord P a 0x14 = a.bwReq ∧ storedWord P a 0x18 = a.rate ∧
      storedWord P a 0x1C = a.bwAch ∧ storedWord P a 0x20 = a.maxcbs.zeroExtend 32 ∧
      storedWord P a 0x24 = a.maxcbl.zeroExtend 32 ∧ storedWord P a 0x28 = a.ncbShort.zeroExtend 32 ∧
      storedWord P a 0x2C = a.ncbLong.zeroExtend 32 ∧ storedWord P a 0x30 = a.blktype.zeroExtend 32 ∧
      storedWord P a 0x34 = a.nsfb.zeroExtend 32 ∧ storedWord P a 0x38 = a.sfcnt.zeroExtend 32) ∧
    (storedWord P a 0x40 = a.quality.extractLsb' 0 32 ∧ storedWord P a 0x44 = a.quality.extractLsb' 32 32 ∧
      storedWord P a 0x48 = a.refenrg.extractLsb' 0 32 ∧ storedWord P a 0x4C = a.refenrg.extractLsb' 32 32) ∧
    (∀ k, k ≤ 128 → (storedWord P a (0x400 + 4 * k)).toNat = sfboffAt P a k) ∧
    (∀ n, n ≤ 127 → (storedWord P a (0x800 + 4 * n)).toNat = widthLongAt P a n ∧
      (storedWord P a (0xA00 + 4 * n)).toNat = widthShortAt P a n ∧
      storedWord P a (0xC00 + 4 * n) = sfAt P a n ∧
      storedWord P a (0x1000 + 8 * n) = (bandqAt P a n).extractLsb' 0 32 ∧
      storedWord P a (0x1004 + 8 * n) = (bandqAt P a n).extractLsb' 32 32) ∧
    (∀ i, i ≤ 1023 → storedWord P a (0x2000 + 8 * i) = (xrAt P a i).extractLsb' 0 32 ∧
      storedWord P a (0x2004 + 8 * i) = (xrAt P a i).extractLsb' 32 32 ∧
      storedWord P a (0x4000 + 4 * i) = xiAt P a i) ∧
    ∀ off, WordOffset off → ReservedOffset off → storedWord P a off = 0

/-- The fields of `STATUS` (10_state.md R35). -/
def Obligations.StatusWordHasItsFields : Prop :=
  ∀ a : Arch,
    (statusWord a).getLsbD 0 = a.busy ∧ (statusWord a).getLsbD 1 = a.done ∧ (statusWord a).getLsbD 2 = a.err ∧
      (statusWord a).getLsbD 3 = a.signal ∧ (statusWord a).getLsbD 4 = a.cfgv ∧
      (statusWord a).extractLsb' 5 3 = 0 ∧ (statusWord a).extractLsb' 8 8 = a.errcode.code ∧
      (statusWord a).extractLsb' 16 8 = a.lastop ∧ (statusWord a).extractLsb' 24 8 = 0

/-- `IRQ` is (DONE and IE_DONE) or (ERR and IE_ERR) of the registers as they read, and an accepted command drops what
`DONE` holds up (60_exceptions.md R210). -/
def Obligations.IrqFollowsStatusAndControl : Prop :=
  ∀ (a : Arch) (op : Instr),
    (a.irq = true ↔
      ((readReg a .status).getLsbD 1 = true ∧ (readReg a .ctrl).getLsbD 0 = true) ∨
        ((readReg a .status).getLsbD 2 = true ∧ (readReg a .ctrl).getLsbD 1 = true)) ∧
      ((acceptCommand op a).irq = true ↔
        (readReg a .status).getLsbD 2 = true ∧ (readReg a .ctrl).getLsbD 1 = true)

/-! ### Bus accesses -/

/-- A read changes no state of the QCU, and while no command runs it returns the stored value (20_memory.md R72, R79). -/
def Obligations.ReadReturnsAndChangesNothing : Prop :=
  ∀ (s : State) (off : Nat) (rest : List HostEvent), WordOffset off → NextEvent s (.access (.read off .word)) rest →
    ∃ t v, step s = .next t ∧ t.toArch = s.toArch ∧ t.bus = rest ∧ t.resp = some (.okayRead v) ∧
      (s.seq = .idle → v = storedWord machineParams s.toArch off)

/-- While a command runs, every location but the outputs reads its stored value, and so do the fields of `STATUS` other
than `SIGNAL` and `CFGV` (70_reset_and_hazards.md R242); an output reads the free value of log entry 4. -/
def Obligations.BusyReadsOfInputsAreExact : Prop :=
  ∀ (s : State) (op : Instr) (off : Nat) (rest : List HostEvent), s.seq = .run op → WordOffset off →
    NextEvent s (.access (.read off .word)) rest →
    ∃ t v, step s = .next t ∧ t.toArch = s.toArch ∧ t.resp = some (.okayRead v) ∧
      (¬ OutputOffset off → off ≠ 0x0C → v = storedWord machineParams s.toArch off) ∧
      (off = 0x0C → ∀ n, n ≠ 3 → n ≠ 4 → v.getLsbD n = (statusWord s.toArch).getLsbD n) ∧
      (OutputOffset off → v = machineParams.freeWord s.free)

/-- A write to an input location while no command runs, or to `CTRL` at any time, replaces the stored bits and leaves
every other word of the window, and the whole command state, as it was (20_memory.md R73, 10_state.md R34). -/
def Obligations.WriteReplacesStoredBits : Prop :=
  ∀ (s : State) (off : Nat) (v : Word) (rest : List HostEvent), WordOffset off →
    ((InputOffset off ∧ s.seq = .idle) ∨ off = 0x08) → NextEvent s (.access (.write off .word v)) rest →
    ∃ t, step s = .next t ∧ t.bus = rest ∧ t.resp = some .okayWrite ∧
      storedWord machineParams t.toArch off = v &&& storedMask off ∧
      (∀ o, WordOffset o → o ≠ off → storedWord machineParams t.toArch o = storedWord machineParams s.toArch o) ∧
      t.seq = s.seq

/-- The two writes of a 64-bit value, low word first, leave it in the element they name and change no other
word of the window (20_memory.md R73, R75; 30_encoding.md R106). -/
def Obligations.SixtyFourBitWriteStoresTheElement : Prop :=
  ∀ (s : State) (p : F64) (rest : List HostEvent), s.seq = .idle →
    (∀ i, i < 1024 → s.bus = expandOp (.wr64 (0x2000 + 8 * i) p) ++ rest →
      ∃ t, core.run 2 s = .next t ∧ t.bus = rest ∧ t.seq = .idle ∧ xrAt machineParams t.toArch i = p ∧
        ∀ o, WordOffset o → o ≠ 0x2000 + 8 * i → o ≠ 0x2004 + 8 * i →
          storedWord machineParams t.toArch o = storedWord machineParams s.toArch o) ∧
    (s.bus = expandOp (.wr64 0x40 p) ++ rest →
      ∃ t, core.run 2 s = .next t ∧ t.bus = rest ∧ t.toArch = { s.toArch with quality := p }) ∧
    (s.bus = expandOp (.wr64 0x48 p) ++ rest →
      ∃ t, core.run 2 s = .next t ∧ t.bus = rest ∧ t.toArch = { s.toArch with refenrg := p })

/-- A read-only location ignores a write, whether or not a command is running (20_memory.md R78). -/
def Obligations.ReadOnlyLocationsIgnoreWrites : Prop :=
  ∀ (s : State) (off : Nat) (v : Word) (rest : List HostEvent), WordOffset off → ReadOnlyOffset off →
    NextEvent s (.access (.write off .word v)) rest →
    ∃ t, step s = .next t ∧ t.toArch = s.toArch ∧ t.bus = rest ∧ t.resp = some .okayWrite

/-- A reserved offset reads 0 and ignores writes, without a bus error and without an error recorded (20_memory.md R77). -/
def Obligations.ReservedOffsetsReadZeroAndIgnoreWrites : Prop :=
  ∀ (s : State) (off : Nat) (v : Word) (rest : List HostEvent), WordOffset off → ReservedOffset off →
    (NextEvent s (.access (.write off .word v)) rest →
      ∃ t, step s = .next t ∧ t.toArch = s.toArch ∧ t.resp = some .okayWrite) ∧
    (NextEvent s (.access (.read off .word)) rest →
      ∃ t, step s = .next t ∧ t.toArch = s.toArch ∧ t.resp = some (.okayRead 0))

/-- A misaligned access, or one that is not 32 bits wide, gets a bus error response, changes no state of the QCU and
records no error; a refused read has 0 on the data lines (20_memory.md R74). -/
def Obligations.RefusedAccessChangesNothing : Prop :=
  ∀ (s : State) (a : Access) (rest : List HostEvent), a.off < 0x10000 → (a.off % 4 ≠ 0 ∨ a.width ≠ .word) →
    NextEvent s (.access a) rest →
    ∃ t, step s = .next t ∧ t.toArch = s.toArch ∧ t.bus = rest ∧
      (∀ o w, a = .read o w → t.resp = some (.errorRead 0)) ∧
      (∀ o w v, a = .write o w v → t.resp = some .errorWrite)

/-- A bus event outside the 64 KiB window stops the model (the model's choice, log entry 11). -/
def Obligations.AccessOutsideTheWindowFaults : Prop :=
  ∀ (s : State) (a : Access) (rest : List HostEvent), 0x10000 ≤ a.off → NextEvent s (.access a) rest →
    step s = .fault .outsideWindow

/-- A write to an input location during a busy window is not performed and records `WR_BUSY`, with an OKAY response; the
command in flight is not disturbed (70_reset_and_hazards.md R241, 20_memory.md R73). -/
def Obligations.InputWriteWhileBusyIsRefused : Prop :=
  ∀ (s : State) (op : Instr) (off : Nat) (v : Word) (rest : List HostEvent), s.seq = .run op → WordOffset off →
    InputOffset off → NextEvent s (.access (.write off .word v)) rest →
    ∃ t, step s = .next t ∧ t.bus = rest ∧ t.resp = some .okayWrite ∧
      t.toArch = { s.toArch with err := true, errcode := if s.err then s.errcode else .wrBusy }

/-- A `CMD` write during a busy window, of any word, records `CMD_BUSY` and is not queued (70_reset_and_hazards.md R243,
60_exceptions.md R205); its response is OKAY. -/
def Obligations.CommandWriteWhileBusyIsRefused : Prop :=
  ∀ (s : State) (op : Instr) (w : Word) (rest : List HostEvent), s.seq = .run op →
    NextEvent s (.access (.write 0x10 .word w)) rest →
    ∃ t, step s = .next t ∧ t.bus = rest ∧ t.resp = some .okayWrite ∧
      t.toArch = { s.toArch with err := true, errcode := if s.err then s.errcode else .cmdBusy }

/-- An illegal word written to `CMD` while no command runs records `ILLEGAL_CMD` and has no other effect
(30_encoding.md R104); its response is OKAY. -/
def Obligations.IllegalWordIsRefused : Prop :=
  ∀ (s : State) (w : Word) (rest : List HostEvent), s.seq = .idle → w ≠ 0x00000001 → w ≠ 0x00000002 →
    s.bus = .access (.write 0x10 .word w) :: rest →
    ∃ t, step s = .next t ∧ t.bus = rest ∧ t.resp = some .okayWrite ∧
      t.toArch = { s.toArch with err := true, errcode := if s.err then s.errcode else .illegalCmd }

/-- A write to `STATUS`, at any time: bit 1 clears `DONE`, bit 2 clears `ERR` and `ERRCODE`, and nothing else changes
(10_state.md R35); its response is OKAY. -/
def Obligations.StatusWriteClearsByOnes : Prop :=
  ∀ (s : State) (v : Word) (rest : List HostEvent), NextEvent s (.access (.write 0x0C .word v)) rest →
    ∃ t, step s = .next t ∧ t.bus = rest ∧ t.resp = some .okayWrite ∧
      t.toArch = { s.toArch with
        done := if v.getLsbD 1 then false else s.done
        err := if v.getLsbD 2 then false else s.err
        errcode := if v.getLsbD 2 then .noError else s.errcode }

/-! ### Whole-machine rules -/

/-- `ERR` and `ERRCODE` change only by the first error recorded, by a write of 1 to bit 2 of `STATUS`, and by reset
(10_state.md R38). -/
def Obligations.ErrorLatchChangesOnlyByItsRules : Prop :=
  ∀ s t : State, step s = .next t →
    (t.err = s.err ∧ t.errcode = s.errcode) ∨
      (s.err = false ∧ t.err = true ∧ t.errcode ≠ .noError) ∨
      (∃ v rest, NextEvent s (.access (.write 0x0C .word v)) rest ∧ v.getLsbD 2 = true ∧
        t.err = false ∧ t.errcode = .noError) ∨
      ∃ i rest, NextEvent s (.reset i) rest ∧ t.err = false ∧ t.errcode = .noError

/-- `CFGV` is set only by a LIMBW that completes without error and cleared only by reset (10_state.md R40). -/
def Obligations.CfgvIsSetByLimbwAndClearedByReset : Prop :=
  ∀ s t : State, step s = .next t → t.cfgv ≠ s.cfgv →
    (t.cfgv = true ∧ s.seq = .run .limbw ∧ LimbwReady s.toArch ∧ t.done = true) ∨
      (t.cfgv = false ∧ ∃ i rest, NextEvent s (.reset i) rest)

/-- `SIGNAL` is changed only by a QBLK that completes without error, to its result, and by reset (10_state.md R39). -/
def Obligations.SignalChangesOnlyByQblkOrReset : Prop :=
  ∀ s t : State, step s = .next t → t.signal ≠ s.signal →
    (s.seq = .run .qblk ∧ QblkReady machineParams s.toArch ∧ t.done = true ∧
        (t.signal = true ↔ BlockSignal machineParams s.toArch)) ∨
      (t.signal = false ∧ ∃ i rest, NextEvent s (.reset i) rest)

/-- A step that is not a reset and not a completion step leaves every output of the commands as it was
(10_state.md R45 to R47, R51, R56, R57, R59), and an idle machine with nothing on the bus keeps all its state
(60_exceptions.md R225). -/
def Obligations.OutputsChangeOnlyInCompletionOrReset : Prop :=
  (∀ (s t : State) (e : HostEvent) (rest : List HostEvent), NextEvent s e rest → (∀ i, e ≠ .reset i) →
    step s = .next t → SameOutputs machineParams s.toArch t.toArch) ∧
  ∀ s : State, s.seq = .idle → s.bus = [] → step s = .next s

/-- During a busy window no Host event but a reset changes an input (70_reset_and_hazards.md R241, 20_memory.md R81). -/
def Obligations.InputsAreFrozenWhileBusy : Prop :=
  ∀ (s t : State) (op : Instr) (e : HostEvent) (rest : List HostEvent), s.seq = .run op → NextEvent s e rest →
    (∀ i, e ≠ .reset i) → step s = .next t → SameInputs machineParams s.toArch t.toArch ∧ t.seq = .run op

/-- LIMBW and QBLK leave every input, `CTRL` and `LASTOP` as they were, and end with the Sequencer idle and the Host's
side untouched (10_state.md R43, R44, R48 to R50, R52 to R55, R58; 43_qblk.md R187). -/
def Obligations.CommandsLeaveInputsUnchanged : Prop :=
  ∀ (op : Instr) (s : State), ∃ t, exec op s = .next t ∧
    SameInputs machineParams s.toArch t.toArch ∧ t.ctrl = s.ctrl ∧ t.lastop = s.lastop ∧ t.ramEpoch = s.ramEpoch ∧
      t.seq = .idle ∧ t.bus = s.bus ∧ t.resp = s.resp ∧ t.lat = s.lat ∧ t.free = s.free

/-! ### LIMBW -/

/-- `LimbwCheck`: `BW_ARG` first, then `BAND_OVF`, and no other check; a LIMBW that fails records the error, returns to
idle and changes nothing else (40_limbw.md R121, 60_exceptions.md R203). -/
def Obligations.LimbwErrorsInOrder : Prop :=
  ∀ s : State,
    (s.rate = 0 → exec .limbw s = .next { s with
      err := true, errcode := if s.err then s.errcode else .bwArg, seq := .idle }) ∧
    (s.rate ≠ 0 → (128 < s.ncbShort.toNat ∨ 128 < s.ncbLong.toNat) → exec .limbw s = .next { s with
      err := true, errcode := if s.err then s.errcode else .bandOvf, seq := .idle }) ∧
    (s.rate ≠ 0 → s.ncbShort.toNat ≤ 128 → s.ncbLong.toNat ≤ 128 →
      ∃ t, exec .limbw s = .next t ∧ t.done = true ∧ t.err = s.err ∧ t.errcode = s.errcode)

/-- A LIMBW that passes its check writes the two band bounds and the achieved bandwidth of the long lines covered, sets
`CFGV` and `DONE`, returns to idle, and changes nothing else (40_limbw.md R120 to R125). -/
def Obligations.LimbwCompletesWithItsBounds : Prop :=
  ∀ s : State, s.rate ≠ 0 → s.ncbShort.toNat ≤ 128 → s.ncbLong.toNat ≤ 128 →
    ∃ ns nl : Nat,
      IsBandBound (widthShortAt machineParams s.toArch) s.ncbShort.toNat (s.bwReq.toNat * 512 / s.rate.toNat) ns ∧
      IsBandBound (widthLongAt machineParams s.toArch) s.ncbLong.toNat (s.bwReq.toNat * 1024 / s.rate.toNat) nl ∧
      exec .limbw s = .next { s with
        maxcbs := BitVec.ofNat 16 ns
        maxcbl := BitVec.ofNat 16 nl
        bwAch := BitVec.ofNat 32
          (linesBefore (widthLongAt machineParams s.toArch) nl * s.rate.toNat / 1024)
        cfgv := true
        done := true
        seq := .idle }

/-- The achieved bandwidth is never greater than the requested one, and each result fits its register
(40_limbw.md R125, R127). -/
def Obligations.LimbwNeverExceedsTheRequest : Prop :=
  ∀ s : State, s.rate ≠ 0 → s.ncbShort.toNat ≤ 128 → s.ncbLong.toNat ≤ 128 →
    ∃ t nl, exec .limbw s = .next t ∧ t.bwAch.toNat ≤ s.bwReq.toNat ∧ t.maxcbl.toNat = nl ∧
      t.bwAch.toNat = linesBefore (widthLongAt machineParams s.toArch) nl * s.rate.toNat / 1024 ∧
      nl ≤ s.ncbLong.toNat ∧ t.maxcbs.toNat ≤ s.ncbShort.toNat

/-- Increasing the requested bandwidth never decreases the long bound, nor the short one, nor the achieved bandwidth
(40_limbw.md R127). -/
def Obligations.LimbwIsMonotoneInTheRequest : Prop :=
  ∀ (s : State) (bw : Word), s.rate ≠ 0 → s.ncbShort.toNat ≤ 128 → s.ncbLong.toNat ≤ 128 →
    s.bwReq.toNat ≤ bw.toNat →
    ∃ t u, exec .limbw s = .next t ∧ exec .limbw { s with bwReq := bw } = .next u ∧
      t.maxcbl.toNat ≤ u.maxcbl.toNat ∧ t.maxcbs.toNat ≤ u.maxcbs.toNat ∧ t.bwAch.toNat ≤ u.bwAch.toNat

/-- A request of 0 gives bounds 0 and an achieved bandwidth of 0, without an error (40_limbw.md R126). -/
def Obligations.LimbwZeroRequestGivesZero : Prop :=
  ∀ s : State, s.rate ≠ 0 → s.ncbShort.toNat ≤ 128 → s.ncbLong.toNat ≤ 128 → s.bwReq = 0 →
    exec .limbw s =
      .next { s with maxcbs := 0, maxcbl := 0, bwAch := 0, cfgv := true, done := true, seq := .idle }

/-! ### QBLK -/

/-- `QblkCheck`: `CFG_UNINIT`, then `BAND_OVF`, then `BAND_TABLE`, and no other check; a QBLK that fails records the
error, returns to idle and changes nothing else (43_qblk.md R181, 60_exceptions.md R203). -/
def Obligations.QblkErrorsInOrder : Prop :=
  ∀ s : State,
    (s.cfgv = false → exec .qblk s = .next { s with
      err := true, errcode := if s.err then s.errcode else .cfgUninit, seq := .idle }) ∧
    (s.cfgv = true → 128 < s.nsfb.toNat → exec .qblk s = .next { s with
      err := true, errcode := if s.err then s.errcode else .bandOvf, seq := .idle }) ∧
    (s.cfgv = true → s.nsfb.toNat ≤ 128 →
      (sfboffAt machineParams s.toArch 0 ≠ 0 ∨
        (∃ b, b < s.nsfb.toNat ∧ sfboffAt machineParams s.toArch (b + 1) ≤ sfboffAt machineParams s.toArch b) ∨
        1024 < sfboffAt machineParams s.toArch s.nsfb.toNat) →
      exec .qblk s = .next { s with
        err := true, errcode := if s.err then s.errcode else .bandTable, seq := .idle }) ∧
    (QblkReady machineParams s.toArch →
      ∃ t, exec .qblk s = .next t ∧ t.done = true ∧ t.err = s.err ∧ t.errcode = s.errcode)

/-- A silent block: every magnitude below 1e-20 gives an all-zero `XI`, a count of 0 and `SIGNAL` = 0, and no other byte
or register changes, but that `DONE` is set and the Sequencer is idle (43_qblk.md R182, R183, R185, R188). -/
def Obligations.QblkSilentBlockCompletes : Prop :=
  ∀ s : State, QblkReady machineParams s.toArch →
    (∀ i, i < 1024 → lt64 (abs64 (xrAt machineParams s.toArch i)) 0x3BC79CA10C924223 = true) →
    ∃ m : Memory,
      exec .qblk s = .next { s with mem := m, sfcnt := 0, signal := false, done := true, seq := .idle } ∧
      (∀ i, i < 1024 → xiAt machineParams { s.toArch with mem := m } i = 0) ∧
      ∀ x, (x < 0x4000 ∨ 0x5000 ≤ x) →
        byteAt machineParams { s.toArch with mem := m } x = byteAt machineParams s.toArch x

/-- A block with signal: `SFCNT` becomes `NSFB`, `SIGNAL` and `DONE` are set, the Sequencer is idle, and no byte changes
but those of `XI`, of `SF[0..NSFB-1]` and of `BANDQ[0..NSFB-1]` (43_qblk.md R180, 42_companding.md R169). -/
def Obligations.QblkWithSignalCompletes : Prop :=
  ∀ s : State, QblkReady machineParams s.toArch → BlockSignal machineParams s.toArch →
    ∃ m : Memory,
      exec .qblk s = .next { s with mem := m, sfcnt := s.nsfb, signal := true, done := true, seq := .idle } ∧
      ∀ x, (x < 0xC00 ∨ 0xC00 + 4 * s.nsfb.toNat ≤ x) → (x < 0x1000 ∨ 0x1000 + 8 * s.nsfb.toNat ≤ x) →
        (x < 0x4000 ∨ 0x5000 ≤ x) →
        byteAt machineParams { s.toArch with mem := m } x = byteAt machineParams s.toArch x

/-- The energies of a band, line by line: the sum rounded at every addition, and the maximum replaced only by a strictly
greater energy, so never by a NaN, which still makes the sum a NaN (41_masking.md R142). -/
def Obligations.BandEnergyAccumulatesInOrder : Prop :=
  bandEnergy [] = (0x0000000000000000, 0x0000000000000000) ∧
    ∀ (lines : List F64) (x : F64),
      (bandEnergy (lines ++ [x])).1 = add64 (bandEnergy lines).1 (mul64 x x) ∧
        (bandEnergy (lines ++ [x])).2 =
          (if gt64 (mul64 x x) (bandEnergy lines).2 then mul64 x x else (bandEnergy lines).2) ∧
        isNaN (bandEnergy lines).2 = false ∧ (isNaN x = true → isNaN (bandEnergy (lines ++ [x])).1 = true)

/-- Each band's target as 41_masking.md computes it from the band's energies, the reference energy, the block type, the
band's position and the quality over the default quality (41_masking.md R140 to R148; log entry 21). A NaN target is stored as some NaN (log entry 5). -/
def Obligations.QblkStoresMaskingTargets : Prop :=
  ∀ s : State, QblkReady machineParams s.toArch → BlockSignal machineParams s.toArch →
    ∃ t, exec .qblk s = .next t ∧
      ∀ b, b < s.nsfb.toNat →
        let lo := sfboffAt machineParams s.toArch b
        let hi := sfboffAt machineParams s.toArch (b + 1)
        let energy := bandEnergy (linesOf machineParams s.toArch lo hi)
        let avge := div64 energy.1 (i2f ((hi - lo : Nat) : Int))
        let p1 := pow64 machineParams (div64 avge s.refenrg)
        let p2 := pow64 machineParams (div64 energy.2 s.refenrg)
        let blend := add64 (mul64 0x3FC999999999999A p1) (mul64 0x3FD70A3D70A3D70B p2)
        let scaled := if s.blktype = 2 then blend else mul64 blend 0x3FDCCCCCCCCCCCCD
        let f := div64 0x4024000000000000
          (add64 0x3FF0000000000000 (div64 (i2f ((lo + hi : Nat) : Int)) 0x4090000000000000))
        let target := mul64 (mul64 scaled f) (div64 s.quality (defaultQuality machineParams))
        (isNaN target = false → bandqAt machineParams t.toArch b = target) ∧
          (isNaN target = true → isNaN (bandqAt machineParams t.toArch b) = true)

/-- A band whose peak is below 10.0, or whose target is zero, quantizes to zeros and appends the sentinel
(42_companding.md R162 to R164, R169). -/
def Obligations.QblkSilentBandsGetTheSentinel : Prop :=
  ∀ s : State, QblkReady machineParams s.toArch → BlockSignal machineParams s.toArch →
    ∃ t, exec .qblk s = .next t ∧
      ∀ b, b < s.nsfb.toNat →
        let lo := sfboffAt machineParams s.toArch b
        let hi := sfboffAt machineParams s.toArch (b + 1)
        (lt64 (sqrt64 (bandEnergy (linesOf machineParams s.toArch lo hi)).2) 0x4024000000000000 = true ∨
            isZero (bandqAt machineParams t.toArch b) = true) →
          sfAt machineParams t.toArch b = machineParams.sfSilent ∧
            ∀ i, lo ≤ i → i < hi → xiAt machineParams t.toArch i = 0

/-- Every other band gets the scale factor nearest to the scaled logarithm of target over RMS, and each of its lines is
companded by the fourth-root law with the multiplier of that scale factor (42_companding.md R161, R165 to R167). -/
def Obligations.QblkCompandsTheOtherBands : Prop :=
  ∀ s : State, QblkReady machineParams s.toArch → BlockSignal machineParams s.toArch →
    ∃ t, exec .qblk s = .next t ∧
      ∀ b, b < s.nsfb.toNat →
        let lo := sfboffAt machineParams s.toArch b
        let hi := sfboffAt machineParams s.toArch (b + 1)
        let energy := bandEnergy (linesOf machineParams s.toArch lo hi)
        let target := bandqAt machineParams t.toArch b
        let rms := sqrt64 (div64 energy.1 (i2f ((hi - lo : Nat) : Int)))
        let sf := roundSF (mul64 (log64 machineParams (div64 target rms)) 0x401729913C4B1436)
        let m := exp64 machineParams (div64 (i2f sf) 0x401729913C4B1436)
        lt64 (sqrt64 energy.2) 0x4024000000000000 = false → isZero target = false →
          sfAt machineParams t.toArch b = BitVec.ofInt 32 sf ∧
            ∀ i, lo ≤ i → i < hi →
              xiAt machineParams t.toArch i = BitVec.ofInt 32 (truncQ (add64
                (sqrt64 (sqrt64 (mul64 (abs64 (xrAt machineParams s.toArch i)) m))) 0x3FD9F212D77318FC))

/-- The lines that belong to no band are 0 after a QBLK, and still count in the silence scan (43_qblk.md R182, R186). -/
def Obligations.QblkZeroesLinesOutsideEveryBand : Prop :=
  ∀ s : State, QblkReady machineParams s.toArch →
    ∃ t, exec .qblk s = .next t ∧ (t.signal = true ↔ BlockSignal machineParams s.toArch) ∧
      ∀ i, sfboffAt machineParams s.toArch s.nsfb.toNat ≤ i → i < 1024 → xiAt machineParams t.toArch i = 0

/-- Each band is quantized from its own lines alone: two blocks with the same settings and the same band, whatever their
other bands hold, get the same target, scale factor and lines for it (42_companding.md R169). That a NaN target's
payload too depends on the band alone is the model's choice: log entry 5. -/
def Obligations.BandsAreQuantizedIndependently : Prop :=
  ∀ (s s' : State) (b c : Nat), QblkReady machineParams s.toArch → QblkReady machineParams s'.toArch →
    BlockSignal machineParams s.toArch → BlockSignal machineParams s'.toArch →
    b < s.nsfb.toNat → c < s'.nsfb.toNat →
    s.blktype = s'.blktype → s.refenrg = s'.refenrg → s.quality = s'.quality →
    sfboffAt machineParams s.toArch b = sfboffAt machineParams s'.toArch c →
    sfboffAt machineParams s.toArch (b + 1) = sfboffAt machineParams s'.toArch (c + 1) →
    (∀ i, sfboffAt machineParams s.toArch b ≤ i → i < sfboffAt machineParams s.toArch (b + 1) →
      xrAt machineParams s.toArch i = xrAt machineParams s'.toArch i) →
    ∃ t t', exec .qblk s = .next t ∧ exec .qblk s' = .next t' ∧
      bandqAt machineParams t.toArch b = bandqAt machineParams t'.toArch c ∧
      sfAt machineParams t.toArch b = sfAt machineParams t'.toArch c ∧
      ∀ i, sfboffAt machineParams s.toArch b ≤ i → i < sfboffAt machineParams s.toArch (b + 1) →
        xiAt machineParams t.toArch i = xiAt machineParams t'.toArch i

/-- The widths of an accepted band table sum to its last boundary (43_qblk.md R188). -/
def Obligations.BandWidthsSumToTheLengthInUse : Prop :=
  ∀ (P : Config.Params) (s : Arch), QblkReady P s →
    ((List.range s.nsfb.toNat).map (fun b => sfboffAt P s (b + 1) - sfboffAt P s b)).sum =
      sfboffAt P s s.nsfb.toNat ∧ sfboffAt P s s.nsfb.toNat ≤ 1024

/-- Every quantized value is in 0..2^31-1, whatever the multiplier and the coefficient (42_companding.md R166). -/
def Obligations.QuantizedValuesAreNonNegative : Prop :=
  ∀ m x : F64, 0 ≤ compand m x ∧ compand m x ≤ 2147483647

/-- The corners of the companding stage (42_companding.md R168), whatever the parameters. A NaN or a negative target gives
the scale factor 0, whose multiplier is 1.0. +Inf gives 2^31-1, whose multiplier is +Inf: a line of zero or a NaN then
quantizes to 0 and any other to 2^31-1. A ratio that underflows to zero gives -(2^31-1), whose multiplier is +0: every
line quantizes to 0, as a NaN line does under every multiplier. A finite positive ratio gives a scale factor in
-4311..4110 (R165), whose multiplier is finite. That it is so for every parameter is deduced: log entry 20. -/
def Obligations.CornerTargetsGiveTheirScaleFactors : Prop :=
  ∀ P : Config.Params,
    (∀ target rms : F64, isFinite rms = true → isZero rms = false → signOf rms = false →
      (isNaN target = true → scaleFactor P target rms = 0) ∧
        (isNaN target = false → signOf target = true → isZero (div64 target rms) = false →
          scaleFactor P target rms = 0) ∧
        (target = 0x7FF0000000000000 → scaleFactor P target rms = 2147483647) ∧
        (isZero (div64 target rms) = true → scaleFactor P target rms = -2147483647) ∧
        (isFinite (div64 target rms) = true → isZero (div64 target rms) = false → signOf target = false →
          -4311 ≤ scaleFactor P target rms ∧ scaleFactor P target rms ≤ 4110 ∧
            isFinite (multiplier P (scaleFactor P target rms)) = true)) ∧
      multiplier P 0 = 0x3FF0000000000000 ∧ multiplier P 2147483647 = 0x7FF0000000000000 ∧
      multiplier P (-2147483647) = 0x0000000000000000 ∧
      ∀ x : F64,
        (isNaN x = true ∨ isZero x = true → compand 0x7FF0000000000000 x = 0) ∧
          (isNaN x = false → isZero x = false → compand 0x7FF0000000000000 x = 2147483647) ∧
          compand 0x0000000000000000 x = 0 ∧ (isNaN x = true → ∀ m, compand m x = 0)

/-- A band of zero lines, with a finite positive reference energy and a finite quality ratio, has a zero target
(41_masking.md R149). -/
def Obligations.ZeroBandHasZeroTarget : Prop :=
  ∀ (P : Config.Params) (short : Bool) (refenrg qr : F64) (lo hi : Nat) (lines : List F64),
    lo < hi → hi ≤ 1024 → lines.length = hi - lo → (∀ x ∈ lines, isZero x = true) →
    isFinite refenrg = true → isZero refenrg = false → signOf refenrg = false → isFinite qr = true →
    isZero (maskTarget P short refenrg qr lo hi lines) = true

/-! ### Arithmetic -/

/-- Rounding gives a nearest magnitude, and of two equally near ones the even one, unless it overflows (00_scope.md R10);
and `Add64`, `Mul64` and `Div64` of finite operands are that rounding of the exact sum, product and quotient, with the
special values of R11: a NaN operand and the invalid operations give a NaN, infinities keep their signs, and a quotient by
zero is an infinity. Values are in units of 2^-1074. -/
def Obligations.RoundingIsToNearestEven : Prop :=
  (∀ n d : Nat, 0 < d → roundMag n d < infMag →
    ∀ m, m < infMag →
      distanceFrom n d (roundMag n d) < distanceFrom n d m ∨
        (distanceFrom n d (roundMag n d) = distanceFrom n d m ∧ (m = roundMag n d ∨ roundMag n d % 2 = 0))) ∧
  (∀ x y : F64, isFinite x = true → isFinite y = true →
    (valueOf x + valueOf y ≠ 0 →
      signOf (add64 x y) = decide (valueOf x + valueOf y < 0) ∧
        magOf (add64 x y) = roundMag (valueOf x + valueOf y).natAbs 1) ∧
    (valueOf x + valueOf y = 0 →
      isZero (add64 x y) = true ∧ signOf (add64 x y) = (signOf x && signOf y)) ∧
    signOf (mul64 x y) = (signOf x ^^ signOf y) ∧
    magOf (mul64 x y) = roundMag (unitsOf x * unitsOf y) (2 ^ 1074) ∧
    (isZero y = false →
      signOf (div64 x y) = (signOf x ^^ signOf y) ∧ magOf (div64 x y) = roundMag (unitsOf x * 2 ^ 1074) (unitsOf y)) ∧
    (isZero y = true → isZero x = false →
      signOf (div64 x y) = (signOf x ^^ signOf y) ∧ magOf (div64 x y) = infMag) ∧
    (isZero y = true → isZero x = true → isNaN (div64 x y) = true)) ∧
  (∀ x y : F64, isNaN x = true ∨ isNaN y = true →
    isNaN (add64 x y) = true ∧ isNaN (mul64 x y) = true ∧ isNaN (div64 x y) = true) ∧
  (∀ x y : F64, isInf x = true → isNaN y = false →
    (isFinite y = true ∨ signOf y = signOf x → add64 x y = x ∧ add64 y x = x) ∧
    (isInf y = true → signOf y ≠ signOf x → isNaN (add64 x y) = true) ∧
    (isZero y = true → isNaN (mul64 x y) = true ∧ isNaN (mul64 y x) = true) ∧
    (isZero y = false → mul64 x y = mul64 y x ∧ isInf (mul64 x y) = true ∧ signOf (mul64 x y) = (signOf x ^^ signOf y)) ∧
    (isInf y = true → isNaN (div64 x y) = true) ∧
    (isFinite y = true → isInf (div64 x y) = true ∧ signOf (div64 x y) = (signOf x ^^ signOf y) ∧
      isZero (div64 y x) = true ∧ signOf (div64 y x) = (signOf x ^^ signOf y))) ∧
  ∀ x : F64, magOf (neg64 x) = magOf x ∧ signOf (neg64 x) = !signOf x

/-- Rounding overflows to infinity exactly from the midpoint between the largest finite value and 2^1024 on
(00_scope.md R10). -/
def Obligations.RoundingOverflowsFromTheMidpoint : Prop :=
  ∀ n d : Nat, 0 < d → (roundMag n d = infMag ↔ (2 ^ 54 - 1) * 2 ^ 2044 * d ≤ n)

/-- `Sqrt64` of a finite positive value is the pattern nearest to the exact root: twice the root lies between the sums of
the result with its neighbours below and above. A zero and +Inf are their own roots, and a NaN and every other negative
value have none. `Abs64` clears the sign bit alone (00_scope.md R12). -/
def Obligations.SquareRootIsNearest : Prop :=
  ∀ x : F64,
    (isFinite x = true → isZero x = false → signOf x = false →
      let r := magOf (sqrt64 x)
      signOf (sqrt64 x) = false ∧ 0 < r ∧ r + 1 < infMag ∧
        (unitsOfMag (r - 1) + unitsOfMag r) ^ 2 ≤ 4 * (unitsOf x * 2 ^ 1074) ∧
        4 * (unitsOf x * 2 ^ 1074) ≤ (unitsOfMag r + unitsOfMag (r + 1)) ^ 2) ∧
    (isZero x = true ∨ x = 0x7FF0000000000000 → sqrt64 x = x) ∧
    (isNaN x = true ∨ (signOf x = true ∧ isZero x = false) → isNaN (sqrt64 x) = true) ∧
    signOf (abs64 x) = false ∧ magOf (abs64 x) = magOf x

/-- The comparisons are those of the values as real numbers, both zeros equal, with the infinities at the two ends; every
comparison with a NaN is false (00_scope.md R13). -/
def Obligations.ComparisonsFollowTheValues : Prop :=
  ∀ x y : F64,
    (isNaN x = true ∨ isNaN y = true → lt64 x y = false ∧ gt64 x y = false ∧ eq64 x y = false) ∧
    gt64 x y = lt64 y x ∧ eq64 x y = eq64 y x ∧
    (isFinite x = true → isFinite y = true →
      (lt64 x y = true ↔ valueOf x < valueOf y) ∧ (eq64 x y = true ↔ valueOf x = valueOf y)) ∧
    (x = 0x7FF0000000000000 → isNaN y = false →
      lt64 x y = false ∧ (lt64 y x = true ↔ y ≠ x) ∧ (eq64 x y = true ↔ y = x)) ∧
    (x = 0xFFF0000000000000 → isNaN y = false →
      lt64 y x = false ∧ (lt64 x y = true ↔ y ≠ x) ∧ (eq64 x y = true ↔ y = x))

/-- `I2F` is exact below 2^53 (00_scope.md R12). -/
def Obligations.IntegersConvertExactly : Prop :=
  ∀ n : Int, n.natAbs < 2 ^ 53 → isFinite (i2f n) = true ∧ valueOf (i2f n) = n * 2 ^ 1074

/-- `RoundSF` (00_scope.md R17): 0 for a NaN, the bounds for the infinities, and else the nearest integer, ties to even,
clamped to the bounds; so it is never -2^31. -/
def Obligations.RoundSfIsNearestAndClamped : Prop :=
  ∀ v : F64,
    (isNaN v = true → roundSF v = 0) ∧
    (v = 0x7FF0000000000000 → roundSF v = 2147483647) ∧ (v = 0xFFF0000000000000 → roundSF v = -2147483647) ∧
    (isFinite v = true → ∃ r : Int,
      (2 * (r * 2 ^ 1074 - valueOf v).natAbs < 2 ^ 1074 ∨
        (2 * (r * 2 ^ 1074 - valueOf v).natAbs = 2 ^ 1074 ∧ r % 2 = 0)) ∧
      roundSF v = max (-2147483647) (min 2147483647 r)) ∧
    -2147483647 ≤ roundSF v ∧ roundSF v ≤ 2147483647

/-- `TruncQ` (00_scope.md R18): 0 for a NaN, 2^31-1 from 2^31 on, and else the integer part, rounded toward zero. -/
def Obligations.TruncQTruncatesAndSaturates : Prop :=
  ∀ u : F64,
    (isNaN u = true → truncQ u = 0) ∧
    (isNaN u = false → lt64 u 0x41E0000000000000 = false → truncQ u = 2147483647) ∧
    (isNaN u = false → gt64 u 0xC1E0000000200000 = false → truncQ u = -2147483647) ∧
    (isNaN u = false → lt64 u 0x41E0000000000000 = true → gt64 u 0xC1E0000000200000 = true →
      truncQ u = Int.tdiv (valueOf u) (2 ^ 1074))

/-- The special cases of `Pow64`, `Log64` and `Exp64`, whatever the parameter (00_scope.md R14 to R16), and elsewhere the
parameter: `Pow64` is the parameter's power to POWM = 0x3FD999999999999A (R7) within 2^-430..2^410, `Log64` its logarithm
within -744.4400719213813..709.782712893384, and `Exp64` its exponential without the sign, within the finite values; but
`Exp64` is +Inf above 709.782712893384 and +0 below -746. The ranges are deduced: log entry 20. -/
def Obligations.ParameterFunctionsKeepSpecialCases : Prop :=
  ∀ (P : Config.Params) (x : F64),
    (isNaN x = true → isNaN (pow64 P x) = true ∧ isNaN (log64 P x) = true ∧ isNaN (exp64 P x) = true) ∧
    (isZero x = true → pow64 P x = 0 ∧ log64 P x = 0xFFF0000000000000 ∧ exp64 P x = 0x3FF0000000000000) ∧
    (isNaN x = false → isZero x = false → signOf x = true →
      isNaN (pow64 P x) = true ∧ isNaN (log64 P x) = true) ∧
    (x = 0x7FF0000000000000 → pow64 P x = x ∧ log64 P x = x ∧ exp64 P x = x) ∧
    (x = 0xFFF0000000000000 → exp64 P x = 0) ∧ (x = 0x3FF0000000000000 → log64 P x = 0) ∧
    (isNaN (exp64 P x) = false → signOf (exp64 P x) = false) ∧
    (isFinite x = true → isZero x = false → signOf x = false →
      let p := P.pow x 0x3FD999999999999A
      (isNaN p = false → lt64 p 0x2510000000000000 = false → gt64 p 0x5990000000000000 = false → pow64 P x = p) ∧
        lt64 (pow64 P x) 0x2510000000000000 = false ∧ gt64 (pow64 P x) 0x5990000000000000 = false ∧
        isFinite (pow64 P x) = true) ∧
    (isFinite x = true → isZero x = false → signOf x = false → x ≠ 0x3FF0000000000000 →
      let l := P.log x
      (isNaN l = false → lt64 l 0xC0874385446D71C4 = false → gt64 l 0x40862E42FEFA39EF = false → log64 P x = l) ∧
        lt64 (log64 P x) 0xC0874385446D71C4 = false ∧ gt64 (log64 P x) 0x40862E42FEFA39EF = false ∧
        isFinite (log64 P x) = true) ∧
    (gt64 x 0x40862E42FEFA39EF = true → exp64 P x = 0x7FF0000000000000) ∧
    (lt64 x 0xC087500000000000 = true → exp64 P x = 0) ∧
    (isFinite x = true → isZero x = false → gt64 x 0x40862E42FEFA39EF = false → lt64 x 0xC087500000000000 = false →
      (isFinite (P.exp x) = true → exp64 P x = abs64 (P.exp x)) ∧ isFinite (exp64 P x) = true)
end

