-- ==== Sys2Proof/Laws/State.lean ====
section
/-!
SUPPORT. For each update of the architectural state, one lemma per field.
-/

namespace Sys2Proof.Laws

open Machine

/-! ### recordError -/

@[simp] theorem recordError_ctrl (e : ErrCode) (s : Arch) :
    (recordError e s).ctrl = s.ctrl := rfl

@[simp] theorem recordError_done (e : ErrCode) (s : Arch) :
    (recordError e s).done = s.done := rfl

@[simp] theorem recordError_err (e : ErrCode) (s : Arch) :
    (recordError e s).err = true := rfl

@[simp] theorem recordError_signal (e : ErrCode) (s : Arch) :
    (recordError e s).signal = s.signal := rfl

@[simp] theorem recordError_cfgv (e : ErrCode) (s : Arch) :
    (recordError e s).cfgv = s.cfgv := rfl

@[simp] theorem recordError_errcode (e : ErrCode) (s : Arch) :
    (recordError e s).errcode = if s.err then s.errcode else e := rfl

@[simp] theorem recordError_lastop (e : ErrCode) (s : Arch) :
    (recordError e s).lastop = s.lastop := rfl

@[simp] theorem recordError_bwReq (e : ErrCode) (s : Arch) :
    (recordError e s).bwReq = s.bwReq := rfl

@[simp] theorem recordError_rate (e : ErrCode) (s : Arch) :
    (recordError e s).rate = s.rate := rfl

@[simp] theorem recordError_bwAch (e : ErrCode) (s : Arch) :
    (recordError e s).bwAch = s.bwAch := rfl

@[simp] theorem recordError_maxcbs (e : ErrCode) (s : Arch) :
    (recordError e s).maxcbs = s.maxcbs := rfl

@[simp] theorem recordError_maxcbl (e : ErrCode) (s : Arch) :
    (recordError e s).maxcbl = s.maxcbl := rfl

@[simp] theorem recordError_ncbShort (e : ErrCode) (s : Arch) :
    (recordError e s).ncbShort = s.ncbShort := rfl

@[simp] theorem recordError_ncbLong (e : ErrCode) (s : Arch) :
    (recordError e s).ncbLong = s.ncbLong := rfl

@[simp] theorem recordError_blktype (e : ErrCode) (s : Arch) :
    (recordError e s).blktype = s.blktype := rfl

@[simp] theorem recordError_nsfb (e : ErrCode) (s : Arch) :
    (recordError e s).nsfb = s.nsfb := rfl

@[simp] theorem recordError_sfcnt (e : ErrCode) (s : Arch) :
    (recordError e s).sfcnt = s.sfcnt := rfl

@[simp] theorem recordError_quality (e : ErrCode) (s : Arch) :
    (recordError e s).quality = s.quality := rfl

@[simp] theorem recordError_refenrg (e : ErrCode) (s : Arch) :
    (recordError e s).refenrg = s.refenrg := rfl

@[simp] theorem recordError_seq (e : ErrCode) (s : Arch) :
    (recordError e s).seq = s.seq := rfl

@[simp] theorem recordError_mem (e : ErrCode) (s : Arch) :
    (recordError e s).mem = s.mem := rfl

@[simp] theorem recordError_ramEpoch (e : ErrCode) (s : Arch) :
    (recordError e s).ramEpoch = s.ramEpoch := rfl

/-! ### failCommand -/

@[simp] theorem failCommand_ctrl (e : ErrCode) (s : Arch) :
    (failCommand e s).ctrl = s.ctrl := rfl

@[simp] theorem failCommand_done (e : ErrCode) (s : Arch) :
    (failCommand e s).done = s.done := rfl

@[simp] theorem failCommand_err (e : ErrCode) (s : Arch) :
    (failCommand e s).err = true := rfl

@[simp] theorem failCommand_signal (e : ErrCode) (s : Arch) :
    (failCommand e s).signal = s.signal := rfl

@[simp] theorem failCommand_cfgv (e : ErrCode) (s : Arch) :
    (failCommand e s).cfgv = s.cfgv := rfl

@[simp] theorem failCommand_errcode (e : ErrCode) (s : Arch) :
    (failCommand e s).errcode = if s.err then s.errcode else e := rfl

@[simp] theorem failCommand_lastop (e : ErrCode) (s : Arch) :
    (failCommand e s).lastop = s.lastop := rfl

@[simp] theorem failCommand_bwReq (e : ErrCode) (s : Arch) :
    (failCommand e s).bwReq = s.bwReq := rfl

@[simp] theorem failCommand_rate (e : ErrCode) (s : Arch) :
    (failCommand e s).rate = s.rate := rfl

@[simp] theorem failCommand_bwAch (e : ErrCode) (s : Arch) :
    (failCommand e s).bwAch = s.bwAch := rfl

@[simp] theorem failCommand_maxcbs (e : ErrCode) (s : Arch) :
    (failCommand e s).maxcbs = s.maxcbs := rfl

@[simp] theorem failCommand_maxcbl (e : ErrCode) (s : Arch) :
    (failCommand e s).maxcbl = s.maxcbl := rfl

@[simp] theorem failCommand_ncbShort (e : ErrCode) (s : Arch) :
    (failCommand e s).ncbShort = s.ncbShort := rfl

@[simp] theorem failCommand_ncbLong (e : ErrCode) (s : Arch) :
    (failCommand e s).ncbLong = s.ncbLong := rfl

@[simp] theorem failCommand_blktype (e : ErrCode) (s : Arch) :
    (failCommand e s).blktype = s.blktype := rfl

@[simp] theorem failCommand_nsfb (e : ErrCode) (s : Arch) :
    (failCommand e s).nsfb = s.nsfb := rfl

@[simp] theorem failCommand_sfcnt (e : ErrCode) (s : Arch) :
    (failCommand e s).sfcnt = s.sfcnt := rfl

@[simp] theorem failCommand_quality (e : ErrCode) (s : Arch) :
    (failCommand e s).quality = s.quality := rfl

@[simp] theorem failCommand_refenrg (e : ErrCode) (s : Arch) :
    (failCommand e s).refenrg = s.refenrg := rfl

@[simp] theorem failCommand_seq (e : ErrCode) (s : Arch) :
    (failCommand e s).seq = .idle := rfl

@[simp] theorem failCommand_mem (e : ErrCode) (s : Arch) :
    (failCommand e s).mem = s.mem := rfl

@[simp] theorem failCommand_ramEpoch (e : ErrCode) (s : Arch) :
    (failCommand e s).ramEpoch = s.ramEpoch := rfl

/-! ### completeCommand -/

@[simp] theorem completeCommand_ctrl (s : Arch) :
    (completeCommand s).ctrl = s.ctrl := rfl

@[simp] theorem completeCommand_done (s : Arch) :
    (completeCommand s).done = true := rfl

@[simp] theorem completeCommand_err (s : Arch) :
    (completeCommand s).err = s.err := rfl

@[simp] theorem completeCommand_signal (s : Arch) :
    (completeCommand s).signal = s.signal := rfl

@[simp] theorem completeCommand_cfgv (s : Arch) :
    (completeCommand s).cfgv = s.cfgv := rfl

@[simp] theorem completeCommand_errcode (s : Arch) :
    (completeCommand s).errcode = s.errcode := rfl

@[simp] theorem completeCommand_lastop (s : Arch) :
    (completeCommand s).lastop = s.lastop := rfl

@[simp] theorem completeCommand_bwReq (s : Arch) :
    (completeCommand s).bwReq = s.bwReq := rfl

@[simp] theorem completeCommand_rate (s : Arch) :
    (completeCommand s).rate = s.rate := rfl

@[simp] theorem completeCommand_bwAch (s : Arch) :
    (completeCommand s).bwAch = s.bwAch := rfl

@[simp] theorem completeCommand_maxcbs (s : Arch) :
    (completeCommand s).maxcbs = s.maxcbs := rfl

@[simp] theorem completeCommand_maxcbl (s : Arch) :
    (completeCommand s).maxcbl = s.maxcbl := rfl

@[simp] theorem completeCommand_ncbShort (s : Arch) :
    (completeCommand s).ncbShort = s.ncbShort := rfl

@[simp] theorem completeCommand_ncbLong (s : Arch) :
    (completeCommand s).ncbLong = s.ncbLong := rfl

@[simp] theorem completeCommand_blktype (s : Arch) :
    (completeCommand s).blktype = s.blktype := rfl

@[simp] theorem completeCommand_nsfb (s : Arch) :
    (completeCommand s).nsfb = s.nsfb := rfl

@[simp] theorem completeCommand_sfcnt (s : Arch) :
    (completeCommand s).sfcnt = s.sfcnt := rfl

@[simp] theorem completeCommand_quality (s : Arch) :
    (completeCommand s).quality = s.quality := rfl

@[simp] theorem completeCommand_refenrg (s : Arch) :
    (completeCommand s).refenrg = s.refenrg := rfl

@[simp] theorem completeCommand_seq (s : Arch) :
    (completeCommand s).seq = .idle := rfl

@[simp] theorem completeCommand_mem (s : Arch) :
    (completeCommand s).mem = s.mem := rfl

@[simp] theorem completeCommand_ramEpoch (s : Arch) :
    (completeCommand s).ramEpoch = s.ramEpoch := rfl

/-! ### acceptCommand -/

@[simp] theorem acceptCommand_ctrl (op : Instr) (s : Arch) :
    (acceptCommand op s).ctrl = s.ctrl := rfl

@[simp] theorem acceptCommand_done (op : Instr) (s : Arch) :
    (acceptCommand op s).done = false := rfl

@[simp] theorem acceptCommand_err (op : Instr) (s : Arch) :
    (acceptCommand op s).err = s.err := rfl

@[simp] theorem acceptCommand_signal (op : Instr) (s : Arch) :
    (acceptCommand op s).signal = s.signal := rfl

@[simp] theorem acceptCommand_cfgv (op : Instr) (s : Arch) :
    (acceptCommand op s).cfgv = s.cfgv := rfl

@[simp] theorem acceptCommand_errcode (op : Instr) (s : Arch) :
    (acceptCommand op s).errcode = s.errcode := rfl

@[simp] theorem acceptCommand_lastop (op : Instr) (s : Arch) :
    (acceptCommand op s).lastop = opcodeByte op := rfl

@[simp] theorem acceptCommand_bwReq (op : Instr) (s : Arch) :
    (acceptCommand op s).bwReq = s.bwReq := rfl

@[simp] theorem acceptCommand_rate (op : Instr) (s : Arch) :
    (acceptCommand op s).rate = s.rate := rfl

@[simp] theorem acceptCommand_bwAch (op : Instr) (s : Arch) :
    (acceptCommand op s).bwAch = s.bwAch := rfl

@[simp] theorem acceptCommand_maxcbs (op : Instr) (s : Arch) :
    (acceptCommand op s).maxcbs = s.maxcbs := rfl

@[simp] theorem acceptCommand_maxcbl (op : Instr) (s : Arch) :
    (acceptCommand op s).maxcbl = s.maxcbl := rfl

@[simp] theorem acceptCommand_ncbShort (op : Instr) (s : Arch) :
    (acceptCommand op s).ncbShort = s.ncbShort := rfl

@[simp] theorem acceptCommand_ncbLong (op : Instr) (s : Arch) :
    (acceptCommand op s).ncbLong = s.ncbLong := rfl

@[simp] theorem acceptCommand_blktype (op : Instr) (s : Arch) :
    (acceptCommand op s).blktype = s.blktype := rfl

@[simp] theorem acceptCommand_nsfb (op : Instr) (s : Arch) :
    (acceptCommand op s).nsfb = s.nsfb := rfl

@[simp] theorem acceptCommand_sfcnt (op : Instr) (s : Arch) :
    (acceptCommand op s).sfcnt = s.sfcnt := rfl

@[simp] theorem acceptCommand_quality (op : Instr) (s : Arch) :
    (acceptCommand op s).quality = s.quality := rfl

@[simp] theorem acceptCommand_refenrg (op : Instr) (s : Arch) :
    (acceptCommand op s).refenrg = s.refenrg := rfl

@[simp] theorem acceptCommand_seq (op : Instr) (s : Arch) :
    (acceptCommand op s).seq = .run op := rfl

@[simp] theorem acceptCommand_mem (op : Instr) (s : Arch) :
    (acceptCommand op s).mem = s.mem := rfl

@[simp] theorem acceptCommand_ramEpoch (op : Instr) (s : Arch) :
    (acceptCommand op s).ramEpoch = s.ramEpoch := rfl

/-! ### writeStatus -/

@[simp] theorem writeStatus_ctrl (v : Word) (s : Arch) :
    (writeStatus v s).ctrl = s.ctrl := rfl

@[simp] theorem writeStatus_done (v : Word) (s : Arch) :
    (writeStatus v s).done = (s.done && !v.getLsbD 1) := rfl

@[simp] theorem writeStatus_err (v : Word) (s : Arch) :
    (writeStatus v s).err = (s.err && !v.getLsbD 2) := rfl

@[simp] theorem writeStatus_signal (v : Word) (s : Arch) :
    (writeStatus v s).signal = s.signal := rfl

@[simp] theorem writeStatus_cfgv (v : Word) (s : Arch) :
    (writeStatus v s).cfgv = s.cfgv := rfl

@[simp] theorem writeStatus_errcode (v : Word) (s : Arch) :
    (writeStatus v s).errcode = if v.getLsbD 2 then .noError else s.errcode := rfl

@[simp] theorem writeStatus_lastop (v : Word) (s : Arch) :
    (writeStatus v s).lastop = s.lastop := rfl

@[simp] theorem writeStatus_bwReq (v : Word) (s : Arch) :
    (writeStatus v s).bwReq = s.bwReq := rfl

@[simp] theorem writeStatus_rate (v : Word) (s : Arch) :
    (writeStatus v s).rate = s.rate := rfl

@[simp] theorem writeStatus_bwAch (v : Word) (s : Arch) :
    (writeStatus v s).bwAch = s.bwAch := rfl

@[simp] theorem writeStatus_maxcbs (v : Word) (s : Arch) :
    (writeStatus v s).maxcbs = s.maxcbs := rfl

@[simp] theorem writeStatus_maxcbl (v : Word) (s : Arch) :
    (writeStatus v s).maxcbl = s.maxcbl := rfl

@[simp] theorem writeStatus_ncbShort (v : Word) (s : Arch) :
    (writeStatus v s).ncbShort = s.ncbShort := rfl

@[simp] theorem writeStatus_ncbLong (v : Word) (s : Arch) :
    (writeStatus v s).ncbLong = s.ncbLong := rfl

@[simp] theorem writeStatus_blktype (v : Word) (s : Arch) :
    (writeStatus v s).blktype = s.blktype := rfl

@[simp] theorem writeStatus_nsfb (v : Word) (s : Arch) :
    (writeStatus v s).nsfb = s.nsfb := rfl

@[simp] theorem writeStatus_sfcnt (v : Word) (s : Arch) :
    (writeStatus v s).sfcnt = s.sfcnt := rfl

@[simp] theorem writeStatus_quality (v : Word) (s : Arch) :
    (writeStatus v s).quality = s.quality := rfl

@[simp] theorem writeStatus_refenrg (v : Word) (s : Arch) :
    (writeStatus v s).refenrg = s.refenrg := rfl

@[simp] theorem writeStatus_seq (v : Word) (s : Arch) :
    (writeStatus v s).seq = s.seq := rfl

@[simp] theorem writeStatus_mem (v : Word) (s : Arch) :
    (writeStatus v s).mem = s.mem := rfl

@[simp] theorem writeStatus_ramEpoch (v : Word) (s : Arch) :
    (writeStatus v s).ramEpoch = s.ramEpoch := rfl

/-! ### putBytes -/

@[simp] theorem putBytes_ctrl (s : Arch) (a : Nat) (bs : List Byte) :
    (putBytes s a bs).ctrl = s.ctrl := rfl

@[simp] theorem putBytes_done (s : Arch) (a : Nat) (bs : List Byte) :
    (putBytes s a bs).done = s.done := rfl

@[simp] theorem putBytes_err (s : Arch) (a : Nat) (bs : List Byte) :
    (putBytes s a bs).err = s.err := rfl

@[simp] theorem putBytes_signal (s : Arch) (a : Nat) (bs : List Byte) :
    (putBytes s a bs).signal = s.signal := rfl

@[simp] theorem putBytes_cfgv (s : Arch) (a : Nat) (bs : List Byte) :
    (putBytes s a bs).cfgv = s.cfgv := rfl

@[simp] theorem putBytes_errcode (s : Arch) (a : Nat) (bs : List Byte) :
    (putBytes s a bs).errcode = s.errcode := rfl

@[simp] theorem putBytes_lastop (s : Arch) (a : Nat) (bs : List Byte) :
    (putBytes s a bs).lastop = s.lastop := rfl

@[simp] theorem putBytes_bwReq (s : Arch) (a : Nat) (bs : List Byte) :
    (putBytes s a bs).bwReq = s.bwReq := rfl

@[simp] theorem putBytes_rate (s : Arch) (a : Nat) (bs : List Byte) :
    (putBytes s a bs).rate = s.rate := rfl

@[simp] theorem putBytes_bwAch (s : Arch) (a : Nat) (bs : List Byte) :
    (putBytes s a bs).bwAch = s.bwAch := rfl

@[simp] theorem putBytes_maxcbs (s : Arch) (a : Nat) (bs : List Byte) :
    (putBytes s a bs).maxcbs = s.maxcbs := rfl

@[simp] theorem putBytes_maxcbl (s : Arch) (a : Nat) (bs : List Byte) :
    (putBytes s a bs).maxcbl = s.maxcbl := rfl

@[simp] theorem putBytes_ncbShort (s : Arch) (a : Nat) (bs : List Byte) :
    (putBytes s a bs).ncbShort = s.ncbShort := rfl

@[simp] theorem putBytes_ncbLong (s : Arch) (a : Nat) (bs : List Byte) :
    (putBytes s a bs).ncbLong = s.ncbLong := rfl

@[simp] theorem putBytes_blktype (s : Arch) (a : Nat) (bs : List Byte) :
    (putBytes s a bs).blktype = s.blktype := rfl

@[simp] theorem putBytes_nsfb (s : Arch) (a : Nat) (bs : List Byte) :
    (putBytes s a bs).nsfb = s.nsfb := rfl

@[simp] theorem putBytes_sfcnt (s : Arch) (a : Nat) (bs : List Byte) :
    (putBytes s a bs).sfcnt = s.sfcnt := rfl

@[simp] theorem putBytes_quality (s : Arch) (a : Nat) (bs : List Byte) :
    (putBytes s a bs).quality = s.quality := rfl

@[simp] theorem putBytes_refenrg (s : Arch) (a : Nat) (bs : List Byte) :
    (putBytes s a bs).refenrg = s.refenrg := rfl

@[simp] theorem putBytes_seq (s : Arch) (a : Nat) (bs : List Byte) :
    (putBytes s a bs).seq = s.seq := rfl

@[simp] theorem putBytes_mem (s : Arch) (a : Nat) (bs : List Byte) :
    (putBytes s a bs).mem = s.mem.writeBlock a bs := rfl

@[simp] theorem putBytes_ramEpoch (s : Arch) (a : Nat) (bs : List Byte) :
    (putBytes s a bs).ramEpoch = s.ramEpoch := rfl

/-! ### putWords -/

@[simp] theorem putWords_ctrl (s : Arch) (a : Nat) (ws : List Word) :
    (putWords s a ws).ctrl = s.ctrl := rfl

@[simp] theorem putWords_done (s : Arch) (a : Nat) (ws : List Word) :
    (putWords s a ws).done = s.done := rfl

@[simp] theorem putWords_err (s : Arch) (a : Nat) (ws : List Word) :
    (putWords s a ws).err = s.err := rfl

@[simp] theorem putWords_signal (s : Arch) (a : Nat) (ws : List Word) :
    (putWords s a ws).signal = s.signal := rfl

@[simp] theorem putWords_cfgv (s : Arch) (a : Nat) (ws : List Word) :
    (putWords s a ws).cfgv = s.cfgv := rfl

@[simp] theorem putWords_errcode (s : Arch) (a : Nat) (ws : List Word) :
    (putWords s a ws).errcode = s.errcode := rfl

@[simp] theorem putWords_lastop (s : Arch) (a : Nat) (ws : List Word) :
    (putWords s a ws).lastop = s.lastop := rfl

@[simp] theorem putWords_bwReq (s : Arch) (a : Nat) (ws : List Word) :
    (putWords s a ws).bwReq = s.bwReq := rfl

@[simp] theorem putWords_rate (s : Arch) (a : Nat) (ws : List Word) :
    (putWords s a ws).rate = s.rate := rfl

@[simp] theorem putWords_bwAch (s : Arch) (a : Nat) (ws : List Word) :
    (putWords s a ws).bwAch = s.bwAch := rfl

@[simp] theorem putWords_maxcbs (s : Arch) (a : Nat) (ws : List Word) :
    (putWords s a ws).maxcbs = s.maxcbs := rfl

@[simp] theorem putWords_maxcbl (s : Arch) (a : Nat) (ws : List Word) :
    (putWords s a ws).maxcbl = s.maxcbl := rfl

@[simp] theorem putWords_ncbShort (s : Arch) (a : Nat) (ws : List Word) :
    (putWords s a ws).ncbShort = s.ncbShort := rfl

@[simp] theorem putWords_ncbLong (s : Arch) (a : Nat) (ws : List Word) :
    (putWords s a ws).ncbLong = s.ncbLong := rfl

@[simp] theorem putWords_blktype (s : Arch) (a : Nat) (ws : List Word) :
    (putWords s a ws).blktype = s.blktype := rfl

@[simp] theorem putWords_nsfb (s : Arch) (a : Nat) (ws : List Word) :
    (putWords s a ws).nsfb = s.nsfb := rfl

@[simp] theorem putWords_sfcnt (s : Arch) (a : Nat) (ws : List Word) :
    (putWords s a ws).sfcnt = s.sfcnt := rfl

@[simp] theorem putWords_quality (s : Arch) (a : Nat) (ws : List Word) :
    (putWords s a ws).quality = s.quality := rfl

@[simp] theorem putWords_refenrg (s : Arch) (a : Nat) (ws : List Word) :
    (putWords s a ws).refenrg = s.refenrg := rfl

@[simp] theorem putWords_seq (s : Arch) (a : Nat) (ws : List Word) :
    (putWords s a ws).seq = s.seq := rfl

@[simp] theorem putWords_mem (s : Arch) (a : Nat) (ws : List Word) :
    (putWords s a ws).mem = s.mem.writeBlock a (ws.flatMap (fun w => leBytes 4 w.toNat)) := rfl

@[simp] theorem putWords_ramEpoch (s : Arch) (a : Nat) (ws : List Word) :
    (putWords s a ws).ramEpoch = s.ramEpoch := rfl

/-! ### putDword -/

@[simp] theorem putDword_ctrl (s : Arch) (a : Nat) (v : F64) :
    (putDword s a v).ctrl = s.ctrl := rfl

@[simp] theorem putDword_done (s : Arch) (a : Nat) (v : F64) :
    (putDword s a v).done = s.done := rfl

@[simp] theorem putDword_err (s : Arch) (a : Nat) (v : F64) :
    (putDword s a v).err = s.err := rfl

@[simp] theorem putDword_signal (s : Arch) (a : Nat) (v : F64) :
    (putDword s a v).signal = s.signal := rfl

@[simp] theorem putDword_cfgv (s : Arch) (a : Nat) (v : F64) :
    (putDword s a v).cfgv = s.cfgv := rfl

@[simp] theorem putDword_errcode (s : Arch) (a : Nat) (v : F64) :
    (putDword s a v).errcode = s.errcode := rfl

@[simp] theorem putDword_lastop (s : Arch) (a : Nat) (v : F64) :
    (putDword s a v).lastop = s.lastop := rfl

@[simp] theorem putDword_bwReq (s : Arch) (a : Nat) (v : F64) :
    (putDword s a v).bwReq = s.bwReq := rfl

@[simp] theorem putDword_rate (s : Arch) (a : Nat) (v : F64) :
    (putDword s a v).rate = s.rate := rfl

@[simp] theorem putDword_bwAch (s : Arch) (a : Nat) (v : F64) :
    (putDword s a v).bwAch = s.bwAch := rfl

@[simp] theorem putDword_maxcbs (s : Arch) (a : Nat) (v : F64) :
    (putDword s a v).maxcbs = s.maxcbs := rfl

@[simp] theorem putDword_maxcbl (s : Arch) (a : Nat) (v : F64) :
    (putDword s a v).maxcbl = s.maxcbl := rfl

@[simp] theorem putDword_ncbShort (s : Arch) (a : Nat) (v : F64) :
    (putDword s a v).ncbShort = s.ncbShort := rfl

@[simp] theorem putDword_ncbLong (s : Arch) (a : Nat) (v : F64) :
    (putDword s a v).ncbLong = s.ncbLong := rfl

@[simp] theorem putDword_blktype (s : Arch) (a : Nat) (v : F64) :
    (putDword s a v).blktype = s.blktype := rfl

@[simp] theorem putDword_nsfb (s : Arch) (a : Nat) (v : F64) :
    (putDword s a v).nsfb = s.nsfb := rfl

@[simp] theorem putDword_sfcnt (s : Arch) (a : Nat) (v : F64) :
    (putDword s a v).sfcnt = s.sfcnt := rfl

@[simp] theorem putDword_quality (s : Arch) (a : Nat) (v : F64) :
    (putDword s a v).quality = s.quality := rfl

@[simp] theorem putDword_refenrg (s : Arch) (a : Nat) (v : F64) :
    (putDword s a v).refenrg = s.refenrg := rfl

@[simp] theorem putDword_seq (s : Arch) (a : Nat) (v : F64) :
    (putDword s a v).seq = s.seq := rfl

@[simp] theorem putDword_mem (s : Arch) (a : Nat) (v : F64) :
    (putDword s a v).mem = s.mem.writeBlock a (leBytes 8 v.toNat) := rfl

@[simp] theorem putDword_ramEpoch (s : Arch) (a : Nat) (v : F64) :
    (putDword s a v).ramEpoch = s.ramEpoch := rfl

/-! ### putLines -/

@[simp] theorem putLines_ctrl (s : Arch) (lo : Nat) (vs : List Word) :
    (putLines s lo vs).ctrl = s.ctrl := rfl

@[simp] theorem putLines_done (s : Arch) (lo : Nat) (vs : List Word) :
    (putLines s lo vs).done = s.done := rfl

@[simp] theorem putLines_err (s : Arch) (lo : Nat) (vs : List Word) :
    (putLines s lo vs).err = s.err := rfl

@[simp] theorem putLines_signal (s : Arch) (lo : Nat) (vs : List Word) :
    (putLines s lo vs).signal = s.signal := rfl

@[simp] theorem putLines_cfgv (s : Arch) (lo : Nat) (vs : List Word) :
    (putLines s lo vs).cfgv = s.cfgv := rfl

@[simp] theorem putLines_errcode (s : Arch) (lo : Nat) (vs : List Word) :
    (putLines s lo vs).errcode = s.errcode := rfl

@[simp] theorem putLines_lastop (s : Arch) (lo : Nat) (vs : List Word) :
    (putLines s lo vs).lastop = s.lastop := rfl

@[simp] theorem putLines_bwReq (s : Arch) (lo : Nat) (vs : List Word) :
    (putLines s lo vs).bwReq = s.bwReq := rfl

@[simp] theorem putLines_rate (s : Arch) (lo : Nat) (vs : List Word) :
    (putLines s lo vs).rate = s.rate := rfl

@[simp] theorem putLines_bwAch (s : Arch) (lo : Nat) (vs : List Word) :
    (putLines s lo vs).bwAch = s.bwAch := rfl

@[simp] theorem putLines_maxcbs (s : Arch) (lo : Nat) (vs : List Word) :
    (putLines s lo vs).maxcbs = s.maxcbs := rfl

@[simp] theorem putLines_maxcbl (s : Arch) (lo : Nat) (vs : List Word) :
    (putLines s lo vs).maxcbl = s.maxcbl := rfl

@[simp] theorem putLines_ncbShort (s : Arch) (lo : Nat) (vs : List Word) :
    (putLines s lo vs).ncbShort = s.ncbShort := rfl

@[simp] theorem putLines_ncbLong (s : Arch) (lo : Nat) (vs : List Word) :
    (putLines s lo vs).ncbLong = s.ncbLong := rfl

@[simp] theorem putLines_blktype (s : Arch) (lo : Nat) (vs : List Word) :
    (putLines s lo vs).blktype = s.blktype := rfl

@[simp] theorem putLines_nsfb (s : Arch) (lo : Nat) (vs : List Word) :
    (putLines s lo vs).nsfb = s.nsfb := rfl

@[simp] theorem putLines_sfcnt (s : Arch) (lo : Nat) (vs : List Word) :
    (putLines s lo vs).sfcnt = s.sfcnt := rfl

@[simp] theorem putLines_quality (s : Arch) (lo : Nat) (vs : List Word) :
    (putLines s lo vs).quality = s.quality := rfl

@[simp] theorem putLines_refenrg (s : Arch) (lo : Nat) (vs : List Word) :
    (putLines s lo vs).refenrg = s.refenrg := rfl

@[simp] theorem putLines_seq (s : Arch) (lo : Nat) (vs : List Word) :
    (putLines s lo vs).seq = s.seq := rfl

@[simp] theorem putLines_mem (s : Arch) (lo : Nat) (vs : List Word) :
    (putLines s lo vs).mem = (putWords s (Ram.xi.addr lo) vs).mem := rfl

@[simp] theorem putLines_ramEpoch (s : Arch) (lo : Nat) (vs : List Word) :
    (putLines s lo vs).ramEpoch = s.ramEpoch := rfl

/-! ### appendSf -/

@[simp] theorem appendSf_ctrl (s : Arch) (w : Word) :
    (appendSf s w).ctrl = s.ctrl := rfl

@[simp] theorem appendSf_done (s : Arch) (w : Word) :
    (appendSf s w).done = s.done := rfl

@[simp] theorem appendSf_err (s : Arch) (w : Word) :
    (appendSf s w).err = s.err := rfl

@[simp] theorem appendSf_signal (s : Arch) (w : Word) :
    (appendSf s w).signal = s.signal := rfl

@[simp] theorem appendSf_cfgv (s : Arch) (w : Word) :
    (appendSf s w).cfgv = s.cfgv := rfl

@[simp] theorem appendSf_errcode (s : Arch) (w : Word) :
    (appendSf s w).errcode = s.errcode := rfl

@[simp] theorem appendSf_lastop (s : Arch) (w : Word) :
    (appendSf s w).lastop = s.lastop := rfl

@[simp] theorem appendSf_bwReq (s : Arch) (w : Word) :
    (appendSf s w).bwReq = s.bwReq := rfl

@[simp] theorem appendSf_rate (s : Arch) (w : Word) :
    (appendSf s w).rate = s.rate := rfl

@[simp] theorem appendSf_bwAch (s : Arch) (w : Word) :
    (appendSf s w).bwAch = s.bwAch := rfl

@[simp] theorem appendSf_maxcbs (s : Arch) (w : Word) :
    (appendSf s w).maxcbs = s.maxcbs := rfl

@[simp] theorem appendSf_maxcbl (s : Arch) (w : Word) :
    (appendSf s w).maxcbl = s.maxcbl := rfl

@[simp] theorem appendSf_ncbShort (s : Arch) (w : Word) :
    (appendSf s w).ncbShort = s.ncbShort := rfl

@[simp] theorem appendSf_ncbLong (s : Arch) (w : Word) :
    (appendSf s w).ncbLong = s.ncbLong := rfl

@[simp] theorem appendSf_blktype (s : Arch) (w : Word) :
    (appendSf s w).blktype = s.blktype := rfl

@[simp] theorem appendSf_nsfb (s : Arch) (w : Word) :
    (appendSf s w).nsfb = s.nsfb := rfl

@[simp] theorem appendSf_sfcnt (s : Arch) (w : Word) :
    (appendSf s w).sfcnt = s.sfcnt + 1 := rfl

@[simp] theorem appendSf_quality (s : Arch) (w : Word) :
    (appendSf s w).quality = s.quality := rfl

@[simp] theorem appendSf_refenrg (s : Arch) (w : Word) :
    (appendSf s w).refenrg = s.refenrg := rfl

@[simp] theorem appendSf_seq (s : Arch) (w : Word) :
    (appendSf s w).seq = s.seq := rfl

@[simp] theorem appendSf_mem (s : Arch) (w : Word) :
    (appendSf s w).mem = (putWords s (Ram.sf.addr s.sfcnt.toNat) [w]).mem := rfl

@[simp] theorem appendSf_ramEpoch (s : Arch) (w : Word) :
    (appendSf s w).ramEpoch = s.ramEpoch := rfl

/-! ### clearOutputs -/

@[simp] theorem clearOutputs_ctrl (s : Arch) :
    (clearOutputs s).ctrl = s.ctrl := rfl

@[simp] theorem clearOutputs_done (s : Arch) :
    (clearOutputs s).done = s.done := rfl

@[simp] theorem clearOutputs_err (s : Arch) :
    (clearOutputs s).err = s.err := rfl

@[simp] theorem clearOutputs_signal (s : Arch) :
    (clearOutputs s).signal = s.signal := rfl

@[simp] theorem clearOutputs_cfgv (s : Arch) :
    (clearOutputs s).cfgv = s.cfgv := rfl

@[simp] theorem clearOutputs_errcode (s : Arch) :
    (clearOutputs s).errcode = s.errcode := rfl

@[simp] theorem clearOutputs_lastop (s : Arch) :
    (clearOutputs s).lastop = s.lastop := rfl

@[simp] theorem clearOutputs_bwReq (s : Arch) :
    (clearOutputs s).bwReq = s.bwReq := rfl

@[simp] theorem clearOutputs_rate (s : Arch) :
    (clearOutputs s).rate = s.rate := rfl

@[simp] theorem clearOutputs_bwAch (s : Arch) :
    (clearOutputs s).bwAch = s.bwAch := rfl

@[simp] theorem clearOutputs_maxcbs (s : Arch) :
    (clearOutputs s).maxcbs = s.maxcbs := rfl

@[simp] theorem clearOutputs_maxcbl (s : Arch) :
    (clearOutputs s).maxcbl = s.maxcbl := rfl

@[simp] theorem clearOutputs_ncbShort (s : Arch) :
    (clearOutputs s).ncbShort = s.ncbShort := rfl

@[simp] theorem clearOutputs_ncbLong (s : Arch) :
    (clearOutputs s).ncbLong = s.ncbLong := rfl

@[simp] theorem clearOutputs_blktype (s : Arch) :
    (clearOutputs s).blktype = s.blktype := rfl

@[simp] theorem clearOutputs_nsfb (s : Arch) :
    (clearOutputs s).nsfb = s.nsfb := rfl

@[simp] theorem clearOutputs_sfcnt (s : Arch) :
    (clearOutputs s).sfcnt = 0 := rfl

@[simp] theorem clearOutputs_quality (s : Arch) :
    (clearOutputs s).quality = s.quality := rfl

@[simp] theorem clearOutputs_refenrg (s : Arch) :
    (clearOutputs s).refenrg = s.refenrg := rfl

@[simp] theorem clearOutputs_seq (s : Arch) :
    (clearOutputs s).seq = s.seq := rfl

@[simp] theorem clearOutputs_mem (s : Arch) :
    (clearOutputs s).mem = (putLines s 0 (List.replicate Config.frameLen 0)).mem := rfl

@[simp] theorem clearOutputs_ramEpoch (s : Arch) :
    (clearOutputs s).ramEpoch = s.ramEpoch := rfl

/-! ### limbwResults -/

@[simp] theorem limbwResults_ctrl (P : Config.Params) (s : Arch) :
    (limbwResults P s).ctrl = s.ctrl := rfl

@[simp] theorem limbwResults_done (P : Config.Params) (s : Arch) :
    (limbwResults P s).done = s.done := rfl

@[simp] theorem limbwResults_err (P : Config.Params) (s : Arch) :
    (limbwResults P s).err = s.err := rfl

@[simp] theorem limbwResults_signal (P : Config.Params) (s : Arch) :
    (limbwResults P s).signal = s.signal := rfl

@[simp] theorem limbwResults_cfgv (P : Config.Params) (s : Arch) :
    (limbwResults P s).cfgv = true := rfl

@[simp] theorem limbwResults_errcode (P : Config.Params) (s : Arch) :
    (limbwResults P s).errcode = s.errcode := rfl

@[simp] theorem limbwResults_lastop (P : Config.Params) (s : Arch) :
    (limbwResults P s).lastop = s.lastop := rfl

@[simp] theorem limbwResults_bwReq (P : Config.Params) (s : Arch) :
    (limbwResults P s).bwReq = s.bwReq := rfl

@[simp] theorem limbwResults_rate (P : Config.Params) (s : Arch) :
    (limbwResults P s).rate = s.rate := rfl

@[simp] theorem limbwResults_bwAch (P : Config.Params) (s : Arch) :
    (limbwResults P s).bwAch = BitVec.ofNat 32 (achievedHz s (longBound P s).2) := rfl

@[simp] theorem limbwResults_maxcbs (P : Config.Params) (s : Arch) :
    (limbwResults P s).maxcbs = BitVec.ofNat 16 (shortBound P s).1 := rfl

@[simp] theorem limbwResults_maxcbl (P : Config.Params) (s : Arch) :
    (limbwResults P s).maxcbl = BitVec.ofNat 16 (longBound P s).1 := rfl

@[simp] theorem limbwResults_ncbShort (P : Config.Params) (s : Arch) :
    (limbwResults P s).ncbShort = s.ncbShort := rfl

@[simp] theorem limbwResults_ncbLong (P : Config.Params) (s : Arch) :
    (limbwResults P s).ncbLong = s.ncbLong := rfl

@[simp] theorem limbwResults_blktype (P : Config.Params) (s : Arch) :
    (limbwResults P s).blktype = s.blktype := rfl

@[simp] theorem limbwResults_nsfb (P : Config.Params) (s : Arch) :
    (limbwResults P s).nsfb = s.nsfb := rfl

@[simp] theorem limbwResults_sfcnt (P : Config.Params) (s : Arch) :
    (limbwResults P s).sfcnt = s.sfcnt := rfl

@[simp] theorem limbwResults_quality (P : Config.Params) (s : Arch) :
    (limbwResults P s).quality = s.quality := rfl

@[simp] theorem limbwResults_refenrg (P : Config.Params) (s : Arch) :
    (limbwResults P s).refenrg = s.refenrg := rfl

@[simp] theorem limbwResults_seq (P : Config.Params) (s : Arch) :
    (limbwResults P s).seq = s.seq := rfl

@[simp] theorem limbwResults_mem (P : Config.Params) (s : Arch) :
    (limbwResults P s).mem = s.mem := rfl

@[simp] theorem limbwResults_ramEpoch (P : Config.Params) (s : Arch) :
    (limbwResults P s).ramEpoch = s.ramEpoch := rfl

/-! ### busy -/

@[simp] theorem recordError_busy (e : ErrCode) (s : Arch) :
    (recordError e s).busy = s.busy := rfl

@[simp] theorem failCommand_busy (e : ErrCode) (s : Arch) :
    (failCommand e s).busy = false := rfl

@[simp] theorem completeCommand_busy (s : Arch) :
    (completeCommand s).busy = false := rfl

@[simp] theorem acceptCommand_busy (op : Instr) (s : Arch) :
    (acceptCommand op s).busy = true := rfl

@[simp] theorem writeStatus_busy (v : Word) (s : Arch) :
    (writeStatus v s).busy = s.busy := rfl

@[simp] theorem putBytes_busy (s : Arch) (a : Nat) (bs : List Byte) :
    (putBytes s a bs).busy = s.busy := rfl

@[simp] theorem putWords_busy (s : Arch) (a : Nat) (ws : List Word) :
    (putWords s a ws).busy = s.busy := rfl

@[simp] theorem putDword_busy (s : Arch) (a : Nat) (v : F64) :
    (putDword s a v).busy = s.busy := rfl

@[simp] theorem putLines_busy (s : Arch) (lo : Nat) (vs : List Word) :
    (putLines s lo vs).busy = s.busy := rfl

@[simp] theorem appendSf_busy (s : Arch) (w : Word) :
    (appendSf s w).busy = s.busy := rfl

@[simp] theorem clearOutputs_busy (s : Arch) :
    (clearOutputs s).busy = s.busy := rfl

@[simp] theorem limbwResults_busy (P : Config.Params) (s : Arch) :
    (limbwResults P s).busy = s.busy := rfl

/-! ### State -/

@[simp] theorem accept_toArch (P : Config.Params) (op : Instr) (s : State) :
    (s.accept P op).toArch = acceptCommand op s.toArch := rfl

@[simp] theorem accept_bus (P : Config.Params) (op : Instr) (s : State) : (s.accept P op).bus = s.bus := rfl

@[simp] theorem accept_resp (P : Config.Params) (op : Instr) (s : State) : (s.accept P op).resp = s.resp := rfl

@[simp] theorem accept_lat (P : Config.Params) (op : Instr) (s : State) :
    (s.accept P op).lat = P.latency s.free := rfl

@[simp] theorem accept_free (P : Config.Params) (op : Instr) (s : State) : (s.accept P op).free = s.free + 1 := rfl

@[simp] theorem hostReset_toArch (i : Option Access) (s : State) :
    (hostReset i s).toArch = resetArch s.toArch := rfl

@[simp] theorem hostReset_bus (i : Option Access) (s : State) : (hostReset i s).bus = s.bus := rfl

@[simp] theorem hostReset_lat (i : Option Access) (s : State) : (hostReset i s).lat = 0 := rfl

@[simp] theorem hostReset_free (i : Option Access) (s : State) : (hostReset i s).free = s.free := rfl

end Sys2Proof.Laws
end

