-- ==== Sys2Proof/Laws/Memory.lean ====
section
/-!
SUPPORT. The laws of the local memories: bytes and numbers, what a block write leaves everywhere, and the canonical form.
-/

namespace Sys2Proof.Laws

open Machine
open Config (Params)

/-! ### Bytes and numbers -/

@[simp] theorem length_leBytes (n v : Nat) : (leBytes n v).length = n := by
  induction n generalizing v with
  | zero => rfl
  | succ n ih => simp [leBytes, ih]

theorem ofLeBytes_leBytes (n v : Nat) : ofLeBytes (leBytes n v) = v % 256 ^ n := by
  induction n generalizing v with
  | zero => simp [leBytes, ofLeBytes, Nat.mod_one]
  | succ n ih =>
    have e : 256 ^ (n + 1) = 256 * 256 ^ n := by rw [Nat.pow_succ, Nat.mul_comm]
    simp only [leBytes, ofLeBytes, ih, BitVec.toNat_ofNat]
    rw [e, Nat.mod_mul]

theorem ofLeBytes_lt (bs : List Byte) : ofLeBytes bs < 256 ^ bs.length := by
  induction bs with
  | nil => simp [ofLeBytes]
  | cons b bs ih =>
    have := b.isLt
    simp only [ofLeBytes, List.length_cons, Nat.pow_succ]
    omega

/-! ### Cells -/

@[simp] theorem length_blockCells (a : Nat) (bs : List Byte) : (blockCells a bs).length = bs.length := by
  induction bs generalizing a with
  | nil => rfl
  | cons b bs ih => simp [blockCells, ih]

theorem mem_blockCells {a : Nat} {bs : List Byte} {c : Host.Cell} (h : c ∈ blockCells a bs) :
    a ≤ c.1 ∧ c.1 < a + bs.length ∧ c.2 ∈ bs := by
  induction bs generalizing a with
  | nil => simp [blockCells] at h
  | cons b bs ih =>
    simp only [blockCells, List.mem_cons, List.length_cons] at h ⊢
    rcases h with rfl | h
    · simp
    · have := ih h
      refine ⟨by omega, by omega, Or.inr this.2.2⟩

theorem lookup_blockCells (a : Nat) (bs : List Byte) (x : Nat) :
    (blockCells a bs).lookup x = if a ≤ x then bs[x - a]? else none := by
  induction bs generalizing a with
  | nil => simp [blockCells]
  | cons b bs ih =>
    simp only [blockCells, List.lookup_cons, ih]
    by_cases hx : x = a
    · simp [hx]
    · have hne : (x == a) = false := by simpa using hx
      simp only [hne]
      by_cases hle : a ≤ x
      · have h1 : a + 1 ≤ x := by omega
        have h2 : x - a = (x - (a + 1)) + 1 := by omega
        simp [hle, h1, h2]
      · have h1 : ¬ a + 1 ≤ x := by omega
        simp [hle, h1]

theorem lookup_filter (m : Memory) (p : Nat → Bool) (x : Nat) :
    (m.filter (fun c => p c.1)).lookup x = if p x then m.lookup x else none := by
  induction m with
  | nil => simp
  | cons c m ih =>
    obtain ⟨y, v⟩ := c
    by_cases hp : p y
    · rw [List.filter_cons_of_pos (by simpa using hp), List.lookup_cons, List.lookup_cons, ih]
      by_cases hx : x = y
      · simp [hx, hp]
      · have hne : (x == y) = false := by simpa using hx
        simp [hne]
    · rw [List.filter_cons_of_neg (by simpa using hp), List.lookup_cons, ih]
      by_cases hx : x = y
      · simp [hx, hp]
      · have hne : (x == y) = false := by simpa using hx
        simp [hne]

theorem lookup_append (m n : Memory) (x : Nat) :
    (m ++ n).lookup x = (m.lookup x).or (n.lookup x) := by
  induction m with
  | nil => simp
  | cons c m ih =>
    obtain ⟨y, v⟩ := c
    by_cases hx : x = y
    · simp [hx]
    · have hne : (x == y) = false := by simpa using hx
      simp [List.lookup_cons, hne, ih]

/-- What a block write leaves at every offset. -/
theorem lookup_writeBlock (m : Memory) (a : Nat) (bs : List Byte) (x : Nat) :
    (m.writeBlock a bs).lookup x = if a ≤ x ∧ x < a + bs.length then bs[x - a]? else m.lookup x := by
  have h1 := lookup_filter m (fun y => decide (y < a)) x
  have h2 := lookup_filter m (fun y => decide (a + bs.length ≤ y)) x
  simp only [Memory.writeBlock, lookup_append, h1, h2, lookup_blockCells]
  by_cases hl : x < a
  · have e1 : ¬ a ≤ x := by omega
    have e2 : ¬ a + bs.length ≤ x := by omega
    simp [hl, e1, e2]
  · have e1 : a ≤ x := by omega
    by_cases hr : x < a + bs.length
    · have e2 : ¬ a + bs.length ≤ x := by omega
      simp [hl, e1, hr, e2]
    · have e2 : a + bs.length ≤ x := by omega
      have e3 : bs[x - a]? = none := by
        rw [List.getElem?_eq_none_iff]; omega
      simp [hl, e1, hr, e2, e3]

theorem mem_writeBlock {m : Memory} {a : Nat} {bs : List Byte} {c : Host.Cell} (h : c ∈ m.writeBlock a bs) :
    c ∈ m ∨ (a ≤ c.1 ∧ c.1 < a + bs.length ∧ c.2 ∈ bs) := by
  simp only [Memory.writeBlock, List.mem_append, List.mem_filter] at h
  rcases h with (h | h) | h
  · exact Or.inl h.1
  · exact Or.inr (mem_blockCells h)
  · exact Or.inl h.1

/-- Which byte stands in a written cell. -/
theorem mem_blockCells_get {a : Nat} {bs : List Byte} {c : Host.Cell} (h : c ∈ blockCells a bs) :
    bs[c.1 - a]? = some c.2 := by
  induction bs generalizing a with
  | nil => simp [blockCells] at h
  | cons b bs ih =>
    simp only [blockCells, List.mem_cons] at h
    rcases h with rfl | h
    · simp
    · have h1 := (mem_blockCells h).1
      have h2 : c.1 - a = (c.1 - (a + 1)) + 1 := by omega
      rw [h2, List.getElem?_cons_succ]
      exact ih h

theorem mem_writeBlock_get {m : Memory} {a : Nat} {bs : List Byte} {c : Host.Cell} (h : c ∈ m.writeBlock a bs) :
    (c ∈ m ∧ ¬ (a ≤ c.1 ∧ c.1 < a + bs.length)) ∨
      (a ≤ c.1 ∧ c.1 < a + bs.length ∧ bs[c.1 - a]? = some c.2) := by
  simp only [Memory.writeBlock, List.mem_append, List.mem_filter, decide_eq_true_eq] at h
  rcases h with (h | h) | h
  · exact Or.inl ⟨h.1, by omega⟩
  · exact Or.inr ⟨(mem_blockCells h).1, (mem_blockCells h).2.1, mem_blockCells_get h⟩
  · exact Or.inl ⟨h.1, by omega⟩

theorem blockCells_wf (a : Nat) (bs : List Byte) : Memory.wf (blockCells a bs) := by
  induction bs generalizing a with
  | nil => exact List.Pairwise.nil
  | cons b bs ih =>
    refine List.Pairwise.cons (fun c hc => ?_) (ih _)
    have := (mem_blockCells hc).1
    show a < c.1
    omega

/-- A block write keeps the canonical form. -/
theorem writeBlock_wf {m : Memory} (h : m.wf) (a : Nat) (bs : List Byte) : (m.writeBlock a bs).wf := by
  unfold Memory.writeBlock Memory.wf
  rw [List.pairwise_append, List.pairwise_append]
  refine ⟨⟨h.filter _, blockCells_wf a bs, ?_⟩, h.filter _, ?_⟩
  · intro c hc d hd
    have h1 := (List.mem_filter.mp hc).2
    have h2 := (mem_blockCells hd).1
    simp at h1
    omega
  · intro c hc d hd
    have h2 := (List.mem_filter.mp hd).2
    simp at h2
    rcases List.mem_append.mp hc with hc | hc
    · have h1 := (List.mem_filter.mp hc).2
      simp at h1
      omega
    · have h1 := (mem_blockCells hc).2.1
      omega

/-! ### Reading after writing -/

/-- A byte after a block write. -/
theorem byteAt_putBytes (P : Params) (s : Arch) (a : Nat) (bs : List Byte) (x : Nat) :
    byteAt P (putBytes s a bs) x =
      if a ≤ x ∧ x < a + bs.length then bs.getD (x - a) 0 else byteAt P s x := by
  simp only [byteAt, putBytes_mem, putBytes_ramEpoch, lookup_writeBlock]
  by_cases h : a ≤ x ∧ x < a + bs.length
  · have hlt : x - a < bs.length := by omega
    simp [h, hlt]
  · simp [h]

theorem byteAt_putBytes_outside (P : Params) (s : Arch) {a : Nat} {bs : List Byte} {x : Nat}
    (h : x < a ∨ a + bs.length ≤ x) : byteAt P (putBytes s a bs) x = byteAt P s x := by
  rw [byteAt_putBytes, if_neg (by omega)]

theorem natAt_congr (P : Params) {s t : Arch} {a n : Nat}
    (h : ∀ i, i < n → byteAt P s (a + i) = byteAt P t (a + i)) : natAt P s a n = natAt P t a n := by
  unfold natAt
  congr 1
  exact List.map_congr_left (fun i hi => h i (List.mem_range.mp hi))

theorem natAt_putBytes_outside (P : Params) (s : Arch) {a x n : Nat} {bs : List Byte}
    (h : x + n ≤ a ∨ a + bs.length ≤ x) : natAt P (putBytes s a bs) x n = natAt P s x n :=
  natAt_congr P (fun i hi => byteAt_putBytes_outside P s (by omega))

/-- A number read from inside a block just written. -/
theorem natAt_putBytes_inside (P : Params) (s : Arch) {a k n : Nat} {bs : List Byte} (h : k + n ≤ bs.length) :
    natAt P (putBytes s a bs) (a + k) n = ofLeBytes ((bs.drop k).take n) := by
  unfold natAt
  congr 1
  apply List.ext_getElem
  · simp; omega
  · intro i h1 h2
    simp only [List.length_map, List.length_range] at h1
    simp only [List.getElem_map, List.getElem_range, byteAt_putBytes, List.getElem_take, List.getElem_drop]
    rw [if_pos (by omega)]
    have e : a + k + i - a = k + i := by omega
    rw [e, List.getD_eq_getElem?_getD, List.getElem?_eq_getElem (by omega)]
    rfl

theorem natAt_putBytes_all (P : Params) (s : Arch) (a : Nat) (bs : List Byte) :
    natAt P (putBytes s a bs) a bs.length = ofLeBytes bs := by
  have := natAt_putBytes_inside P s (a := a) (k := 0) (n := bs.length) (bs := bs) (by omega)
  simpa using this

theorem dwordAt_putDword (P : Params) (s : Arch) (a : Nat) (v : F64) : dwordAt P (putDword s a v) a = v := by
  have h := natAt_putBytes_all P s a (leBytes 8 v.toNat)
  rw [length_leBytes] at h
  unfold dwordAt putDword
  rw [h, ofLeBytes_leBytes]
  apply BitVec.eq_of_toNat_eq
  have := v.isLt
  simp
  omega

/-! ### Words in a row -/

@[simp] theorem length_wordBytes (ws : List Word) : (ws.flatMap (fun w => leBytes 4 w.toNat)).length = 4 * ws.length := by
  induction ws with
  | nil => rfl
  | cons w ws ih => simp [ih]; omega

theorem wordBytes_slice (ws : List Word) (i : Nat) (h : i < ws.length) :
    ((ws.flatMap (fun w => leBytes 4 w.toNat)).drop (4 * i)).take 4 = leBytes 4 (ws[i]).toNat := by
  induction ws generalizing i with
  | nil => simp at h
  | cons w ws ih =>
    cases i with
    | zero =>
      simp only [List.flatMap_cons, Nat.mul_zero, List.drop_zero, List.getElem_cons_zero]
      rw [List.take_append_of_le_length (by simp)]
      exact List.take_of_length_le (by simp)
    | succ i =>
      have hi : i < ws.length := by simpa using h
      simp only [List.flatMap_cons, List.getElem_cons_succ]
      have e : 4 * (i + 1) = (leBytes 4 w.toNat).length + 4 * i := by simp; omega
      rw [e, ← List.drop_drop, List.drop_left]
      exact ih i hi

/-- A word read back after words were stored in a row. -/
theorem wordAt_putWords (P : Params) (s : Arch) (a : Nat) (ws : List Word) (i : Nat) (h : i < ws.length) :
    wordAt P (putWords s a ws) (a + 4 * i) = ws[i] := by
  unfold wordAt putWords
  rw [natAt_putBytes_inside P s (by rw [length_wordBytes]; omega), wordBytes_slice ws i h, ofLeBytes_leBytes]
  apply BitVec.eq_of_toNat_eq
  have := (ws[i]).isLt
  simp
  omega

/-- A byte outside the words stored is unchanged. -/
theorem byteAt_putWords_outside (P : Params) (s : Arch) {a : Nat} {ws : List Word} {x : Nat}
    (h : x < a ∨ a + 4 * ws.length ≤ x) : byteAt P (putWords s a ws) x = byteAt P s x := by
  unfold putWords
  exact byteAt_putBytes_outside P s (by rw [length_wordBytes]; omega)

theorem byteAt_putDword_outside (P : Params) (s : Arch) {a : Nat} {v : F64} {x : Nat} (h : x < a ∨ a + 8 ≤ x) :
    byteAt P (putDword s a v) x = byteAt P s x := by
  unfold putDword
  exact byteAt_putBytes_outside P s (by simpa using h)

theorem halfAt_congr (P : Params) {s t : Arch} {a : Nat} (h : ∀ i, i < 2 → byteAt P s (a + i) = byteAt P t (a + i)) :
    halfAt P s a = halfAt P t a := by
  unfold halfAt; rw [natAt_congr P h]

theorem wordAt_congr (P : Params) {s t : Arch} {a : Nat} (h : ∀ i, i < 4 → byteAt P s (a + i) = byteAt P t (a + i)) :
    wordAt P s a = wordAt P t a := by
  unfold wordAt; rw [natAt_congr P h]

theorem dwordAt_congr (P : Params) {s t : Arch} {a : Nat} (h : ∀ i, i < 8 → byteAt P s (a + i) = byteAt P t (a + i)) :
    dwordAt P s a = dwordAt P t a := by
  unfold dwordAt; rw [natAt_congr P h]

/-! ### The two words of a 64-bit value -/

/-- A number is its low bytes and its high bytes. -/
theorem natAt_split (P : Params) (s : Arch) (a n : Nat) (k : Nat) : natAt P s a (n + k) = natAt P s a n + 256 ^ n * natAt P s (a + n) k := by
  induction n generalizing a with
  | zero => simp [natAt, ofLeBytes]
  | succ n ih =>
    have key : ∀ b m, natAt P s b (m + 1) = (byteAt P s b).toNat + 256 * natAt P s (b + 1) m := by
      intro b m
      unfold natAt
      rw [List.range_succ_eq_map]
      simp only [List.map_cons, List.map_map, ofLeBytes]
      have : (fun i => byteAt P s (b + i)) ∘ Nat.succ = fun i => byteAt P s (b + 1 + i) := by
        funext i; simp only [Function.comp]; congr 1; omega
      rw [this]; rfl
    have e : n + 1 + k = (n + k) + 1 := by omega
    rw [e, key, ih, key, Nat.pow_succ]
    have : a + (n + 1) = a + 1 + n := by omega
    rw [this]; ring

theorem natAt_lt (P : Params) (s : Arch) (a n : Nat) : natAt P s a n < 256 ^ n := by
  have := ofLeBytes_lt ((List.range n).map (fun i => byteAt P s (a + i)))
  simpa [natAt] using this

/-- The low word of a 64-bit element. -/
theorem wordAt_lo (P : Params) (s : Arch) (a : Nat) : wordAt P s a = (dwordAt P s a).extractLsb' 0 32 := by
  apply BitVec.eq_of_toNat_eq
  have h := natAt_split P s a 4 4
  have h1 := natAt_lt P s a 4
  have h2 := natAt_lt P s (a + 4) 4
  simp only [wordAt, dwordAt, BitVec.toNat_ofNat, BitVec.extractLsb'_toNat]
  simp only [Nat.reduceAdd] at h
  rw [h]
  simp
/-- The high word of a 64-bit element. -/
theorem wordAt_hi (P : Params) (s : Arch) (a : Nat) : wordAt P s (a + 4) = (dwordAt P s a).extractLsb' 32 32 := by
  apply BitVec.eq_of_toNat_eq
  have h := natAt_split P s a 4 4
  have h1 := natAt_lt P s a 4
  have h2 := natAt_lt P s (a + 4) 4
  simp only [wordAt, dwordAt, BitVec.toNat_ofNat, BitVec.extractLsb'_toNat]
  simp only [Nat.reduceAdd] at h
  rw [h]
  simp [Nat.shiftRight_eq_div_pow]
  omega

/-- The `n` low bits of a word, extended again, are the word masked. -/
theorem mask_and (v : Word) (n : Nat) (h : n ≤ 32) : (v.setWidth n).zeroExtend 32 = v &&& (BitVec.ofNat 32 (2 ^ n - 1)) := by
  apply BitVec.eq_of_toNat_eq
  have h1 : 2 ^ n ≤ 2 ^ 32 := Nat.pow_le_pow_right (by omega) h
  have h2 := Nat.two_pow_pos n
  have := v.isLt
  rw [BitVec.toNat_and, BitVec.toNat_ofNat, Nat.mod_eq_of_lt (a := 2 ^ n - 1) (by omega), Nat.and_two_pow_sub_one_eq_mod]
  simp only [BitVec.truncate_eq_setWidth, BitVec.toNat_setWidth]
  rw [Nat.mod_eq_of_lt]
  exact lt_of_le_of_lt (Nat.mod_le _ _) this

/-- The two words of a 64-bit value put together from them. -/
theorem lo_append (a b : Word) : (a ++ b).extractLsb' 0 32 = b ∧ (a ++ b).extractLsb' 32 32 = a := by
  constructor <;> apply BitVec.eq_of_getLsbD_eq <;> intro i hi <;> simp only [BitVec.getLsbD_extractLsb', BitVec.getLsbD_append] <;> simp [hi]

/-- A 64-bit value is its two words put together. -/
theorem split_join (p : F64) : p.extractLsb' 32 32 ++ p.extractLsb' 0 32 = p := by
  apply BitVec.eq_of_getLsbD_eq
  intro i hi
  rw [BitVec.getLsbD_append]
  simp only [BitVec.getLsbD_extractLsb']
  by_cases h : i < 32
  · simp [h]
  · simp [h]
    rw [show 32 + (i - 32) = i by omega]
    have : i - 32 < 32 := by omega
    simp [this]

end Sys2Proof.Laws
end

