-- ==== Sys2Proof/Laws/Commands.lean ====
section
/-!
SUPPORT. What each shared operation of a command can do, said once: the checks, the two ways a completion step ends,
the accumulation of LIMBW, and what one step of the machine is.
-/

namespace Sys2Proof.Laws

open Machine
open Config (Params)

/-! ### exec and step -/

theorem exec_limbw (s : State) : exec .limbw s = .next { s with toArch := limbwComplete machineParams s.toArch } := rfl

theorem exec_qblk (s : State) : exec .qblk s = .next { s with toArch := qblkComplete machineParams s.toArch } := rfl

/-- A command's completion step always answers a next state, and changes the architectural state alone. -/
theorem exec_next (op : Instr) (s : State) :
    ∃ a, exec op s = .next { s with toArch := a } ∧
      ((op = .limbw ∧ a = limbwComplete machineParams s.toArch) ∨
        (op = .qblk ∧ a = qblkComplete machineParams s.toArch)) := by
  cases op with
  | limbw => exact ⟨_, rfl, Or.inl ⟨rfl, rfl⟩⟩
  | qblk => exact ⟨_, rfl, Or.inr ⟨rfl, rfl⟩⟩

theorem dueCommand_eq_some {s : State} {op : Instr} :
    dueCommand s = some op ↔ s.seq = .run op ∧ (s.lat = 0 ∨ s.bus = []) := by
  unfold dueCommand
  split
  · rename_i h; simp [h]
  · rename_i o h
    split
    · rename_i h2; simp [h, h2]
    · rename_i h2; simp only [h, Seq.run.injEq, reduceCtorEq, false_iff]; exact fun hh => h2 hh.2

theorem dueCommand_of_idle {s : State} (h : s.seq = .idle) : dueCommand s = none := by
  simp [dueCommand, h]

theorem busy_iff {a : Arch} : a.busy = true ↔ ∃ op, a.seq = .run op := by
  unfold Arch.busy
  cases a.seq <;> simp

theorem not_busy_iff {a : Arch} : a.busy = false ↔ a.seq = .idle := by
  unfold Arch.busy
  cases a.seq <;> simp

/-- One step is the completion step that is due, or the Host's turn: nothing to do, or its next event. -/
theorem step_cases (s : State) :
    (∃ op, dueCommand s = some op ∧ step s = exec op s) ∨
      (dueCommand s = none ∧ s.bus = [] ∧ step s = .next s) ∨
      (∃ e rest, dueCommand s = none ∧ s.bus = e :: rest ∧
        step s = hostEvent machineParams e { s with bus := rest, lat := s.lat - 1 }) := by
  unfold step
  cases h : dueCommand s with
  | some op => exact Or.inl ⟨op, rfl, rfl⟩
  | none =>
    unfold hostTurn
    cases hb : s.bus with
    | nil => exact Or.inr (Or.inl ⟨rfl, rfl, rfl⟩)
    | cons e rest => exact Or.inr (Or.inr ⟨e, rest, rfl, rfl, rfl⟩)

/-! ### The checks -/

theorem limbwCheck_none {s : Arch} : limbwCheck s = none ↔ LimbwReady s := by
  unfold limbwCheck LimbwReady
  split
  · simp_all
  · split <;> rename_i h1 h2
    · simp only [reduceCtorEq, false_iff]; omega
    · simp only [true_iff]; exact ⟨h1, by omega, by omega⟩

theorem bandTableOk_iff {P : Params} {s : Arch} : bandTableOk P s = true ↔ BandTableValid P s := by
  simp [bandTableOk, BandTableValid, and_assoc]

theorem qblkCheck_none {P : Params} {s : Arch} : qblkCheck P s = none ↔ QblkReady P s := by
  unfold qblkCheck QblkReady
  rw [← bandTableOk_iff]
  cases hc : s.cfgv <;> cases hb : bandTableOk P s <;> simp
  split <;> simp

/-- A completion step of LIMBW ends in an error or in its results. -/
theorem limbwComplete_cases (P : Params) (s : Arch) :
    (∃ e, e ≠ .noError ∧ limbwCheck s = some e ∧ limbwComplete P s = failCommand e s) ∨
      (LimbwReady s ∧ limbwComplete P s = completeCommand (limbwResults P s)) := by
  unfold limbwComplete
  cases h : limbwCheck s with
  | none => exact Or.inr ⟨limbwCheck_none.mp h, rfl⟩
  | some e =>
    refine Or.inl ⟨e, ?_, rfl, rfl⟩
    rintro rfl
    unfold limbwCheck at h
    split at h
    · cases h
    · split at h <;> cases h

/-- A completion step of QBLK ends in an error or in its results. -/
theorem qblkComplete_cases (P : Params) (s : Arch) :
    (∃ e, e ≠ .noError ∧ qblkCheck P s = some e ∧ qblkComplete P s = failCommand e s) ∨
      (QblkReady P s ∧ qblkComplete P s = completeCommand (qblkResults P s)) := by
  unfold qblkComplete
  cases h : qblkCheck P s with
  | none => exact Or.inr ⟨qblkCheck_none.mp h, rfl⟩
  | some e =>
    refine Or.inl ⟨e, ?_, rfl, rfl⟩
    rintro rfl
    unfold qblkCheck at h
    split at h
    · cases h
    · split at h
      · cases h
      · split at h <;> cases h

theorem blockHasSignal_iff {P : Params} {s : Arch} : blockHasSignal P s = true ↔ BlockSignal P s := by
  simp [blockHasSignal, lineHasSignal, BlockSignal]

/-! ### The accumulation of LIMBW (40_limbw.md R123) -/

theorem linesBefore_succ (w : Nat → Nat) (k : Nat) : linesBefore w (k + 1) = linesBefore w k + w k := by
  simp [linesBefore, List.range_succ]

/-- The loop from band `k` on, with the lines of the first `k` bands accumulated, stops at the band bound. -/
theorem accumFrom_spec (w : Nat → Nat) (c n : Nat) : ∀ d k, k + d = n → (∀ j, j < k → linesBefore w (j + 1) < c) →
    let r := accumFrom c ((List.range' k d).map w) k (linesBefore w k)
    IsBandBound w n c r.1 ∧ r.2 = linesBefore w r.1 := by
  intro d
  induction d with
  | zero =>
    intro k hk hlt
    refine ⟨⟨?_, ?_, ?_⟩, rfl⟩
    · show k ≤ n; omega
    · exact hlt
    · intro (h : k < n); omega
  | succ d ih =>
    intro k hk hlt
    simp only [List.range'_succ, List.map_cons, accumFrom]
    split
    · rename_i h
      have h' := ih (k + 1) (by omega) (fun j hj => by
        rcases Nat.lt_succ_iff_lt_or_eq.mp hj with hj | rfl
        · exact hlt j hj
        · rw [linesBefore_succ]; exact h)
      rwa [linesBefore_succ] at h'
    · rename_i h
      refine ⟨⟨by show k ≤ n; omega, hlt, fun _ => ?_⟩, rfl⟩
      show c ≤ linesBefore w (k + 1)
      rw [linesBefore_succ]; omega

/-- `Accum` gives the band bound and the lines of its bands. -/
theorem accum_spec (w : Nat → Nat) (n c : Nat) :
    IsBandBound w n c (accum ((List.range n).map w) c).1 ∧
      (accum ((List.range n).map w) c).2 = linesBefore w (accum ((List.range n).map w) c).1 := by
  have h := accumFrom_spec w c n n 0 (by omega) (fun j hj => by omega)
  rw [List.range_eq_range']
  exact h

/-- There is one band bound. -/
theorem isBandBound_unique {w : Nat → Nat} {n c j k : Nat} (hj : IsBandBound w n c j) (hk : IsBandBound w n c k) :
    j = k := by
  rcases Nat.lt_trichotomy j k with h | h | h
  · have h1 := hj.2.2 (by have := hk.1; omega)
    have h2 := hk.2.1 j h
    omega
  · exact h
  · have h1 := hk.2.2 (by have := hj.1; omega)
    have h2 := hj.2.1 k h
    omega

/-- The lines of the bands in use stay below the ceiling. -/
theorem linesBefore_lt_of_bound {w : Nat → Nat} {n c k : Nat} (h : IsBandBound w n c k) :
    k = 0 ∨ linesBefore w k < c := by
  cases k with
  | zero => exact Or.inl rfl
  | succ k => exact Or.inr (h.2.1 k (by omega))

end Sys2Proof.Laws
end

