-- ==== Sys2Proof/Laws/Map.lean ====
section
/-!
SUPPORT. What stands at each offset of the window: the register map read backwards, and the classes of offsets that the
bus distinguishes.
-/

namespace Sys2Proof.Laws

open Machine

theorem locate_reg (r : Reg) : locate r.offset = .reg r := by cases r <;> rfl

theorem holds_iff {m : Ram} {off : Nat} : m.holds off = true ↔ m.base ≤ off ∧ off < m.base + m.bytes := by
  simp [Ram.holds]

theorem holds_false_iff {m : Ram} {off : Nat} : m.holds off = false ↔ off < m.base ∨ m.base + m.bytes ≤ off := by
  rw [← Bool.not_eq_true, holds_iff]; omega

theorem mem_reg_all (r : Reg) : r ∈ Reg.all := by cases r <;> decide

theorem mem_ram_all (m : Ram) : m ∈ Ram.all := by cases m <;> decide

/-- The local memories do not overlap. -/
theorem ram_eq_of_holds {m n : Ram} {off : Nat} (h : m.holds off = true) (g : n.holds off = true) : m = n := by
  rw [holds_iff] at h g
  cases m <;> cases n <;> first
    | rfl
    | (simp only [Ram.base, Ram.bytes, Ram.count, Ram.stride] at h g; omega)

theorem ram_base_le (m : Ram) : 0x400 ≤ m.base := by cases m <;> decide

theorem reg_offset_lt (r : Reg) : r.offset < 0x400 := by cases r <;> decide

theorem locate_ram {m : Ram} {off : Nat} (h : m.holds off = true) : locate off = .ram m := by
  have h0 := (holds_iff.mp h).1
  have hb := ram_base_le m
  have e : Reg.all.find? (fun r => r.offset == off) = none := by
    rw [List.find?_eq_none]
    intro r _
    have := reg_offset_lt r
    simp; omega
  unfold locate
  rw [e]
  cases g : Ram.all.find? (fun m => m.holds off) with
  | none =>
    rw [List.find?_eq_none] at g
    exact absurd h (g m (mem_ram_all m))
  | some n =>
    have hn : n.holds off = true := by simpa using List.find?_some g
    rw [ram_eq_of_holds hn h]

/-- What stands at an offset: one register, one local memory, or nothing. -/
theorem locate_cases (off : Nat) :
    (∃ r : Reg, off = r.offset ∧ locate off = .reg r) ∨ (∃ m : Ram, m.holds off = true ∧ locate off = .ram m) ∨
      ((∀ r : Reg, off ≠ r.offset) ∧ (∀ m : Ram, m.holds off = false) ∧ locate off = .reserved) := by
  by_cases hr : ∃ r : Reg, off = r.offset
  · obtain ⟨r, rfl⟩ := hr
    exact Or.inl ⟨r, rfl, locate_reg r⟩
  by_cases hm : ∃ m : Ram, m.holds off = true
  · obtain ⟨m, hm⟩ := hm
    exact Or.inr (Or.inl ⟨m, hm, locate_ram hm⟩)
  have hr' : ∀ r : Reg, off ≠ r.offset := fun r h => hr ⟨r, h⟩
  have hm' : ∀ m : Ram, m.holds off = false := fun m => by
    cases h : m.holds off
    · rfl
    · exact absurd ⟨m, h⟩ hm
  refine Or.inr (Or.inr ⟨hr', hm', ?_⟩)
  unfold locate
  have e1 : Reg.all.find? (fun r => r.offset == off) = none := by
    rw [List.find?_eq_none]
    intro r _ h
    exact hr' r (beq_iff_eq.mp h).symm
  have e2 : Ram.all.find? (fun m => m.holds off) = none := by
    rw [List.find?_eq_none]
    intro m _ h
    rw [hm' m] at h; cases h
  rw [e1, e2]

/-! ### The classes of offsets -/

theorem isInput_iff {off : Nat} (h4 : off % 4 = 0) : (locate off).isInput = true ↔ InputOffset off := by
  rcases locate_cases off with ⟨r, rfl, h⟩ | ⟨m, hm, h⟩ | ⟨hr, hm, h⟩
  · rw [h]
    cases r <;> simp [Loc.isInput, Reg.kind, Reg.offset, InputOffset]
  · rw [h]
    rw [holds_iff] at hm
    cases m <;> simp only [Ram.base, Ram.bytes, Ram.count, Ram.stride] at hm <;>
      simp [Loc.isInput, Ram.kind, InputOffset] <;> omega
  · rw [h]
    have r1 := hr .bwReq; have r2 := hr .rate; have r3 := hr .ncbShort; have r4 := hr .ncbLong
    have r5 := hr .blktype; have r6 := hr .nsfb; have r7 := hr .qualityLo; have r8 := hr .qualityHi
    have r9 := hr .refenrgLo; have r10 := hr .refenrgHi
    have m1 := holds_false_iff.mp (hm .sfboff); have m2 := holds_false_iff.mp (hm .widthLong); have m3 := holds_false_iff.mp (hm .widthShort); have m4 := holds_false_iff.mp (hm .xr)
    simp only [Reg.offset, Ram.base, Ram.bytes, Ram.count, Ram.stride] at *
    simp [Loc.isInput, InputOffset]; omega

theorem isOutput_iff {off : Nat} (_ : off % 4 = 0) : (locate off).isOutput = true ↔ OutputOffset off := by
  rcases locate_cases off with ⟨r, rfl, h⟩ | ⟨m, hm, h⟩ | ⟨hr, hm, h⟩
  · rw [h]
    cases r <;> simp [Loc.isOutput, Reg.offset, OutputOffset]
  · rw [h]
    rw [holds_iff] at hm
    cases m <;> simp only [Ram.base, Ram.bytes, Ram.count, Ram.stride] at hm <;>
      simp [Loc.isOutput, Ram.kind, OutputOffset] <;> omega
  · rw [h]
    have r1 := hr .bwAch; have r2 := hr .maxcbs; have r3 := hr .maxcbl; have r4 := hr .sfcnt
    have m1 := holds_false_iff.mp (hm .sf); have m2 := holds_false_iff.mp (hm .bandq); have m3 := holds_false_iff.mp (hm .xi)
    simp only [Reg.offset, Ram.base, Ram.bytes, Ram.count, Ram.stride] at *
    simp [Loc.isOutput, OutputOffset]; omega

theorem readOnly_locate {off : Nat} (h : ReadOnlyOffset off) :
    locate off = .reg .id ∨ locate off = .reg .caps ∨ (locate off).isOutput = true := by
  rcases h with rfl | rfl | h
  · exact Or.inl rfl
  · exact Or.inr (Or.inl rfl)
  · refine Or.inr (Or.inr ?_)
    rcases h with h | h | h | h
    · simp only [List.mem_cons, List.not_mem_nil, or_false] at h
      rcases h with rfl | rfl | rfl | rfl <;> rfl
    · rw [locate_ram (m := .sf) (holds_iff.mpr (by simp only [Ram.base, Ram.bytes, Ram.count, Ram.stride]; omega))]; rfl
    · rw [locate_ram (m := .bandq) (holds_iff.mpr (by simp only [Ram.base, Ram.bytes, Ram.count, Ram.stride]; omega))]; rfl
    · rw [locate_ram (m := .xi) (holds_iff.mpr (by simp only [Ram.base, Ram.bytes, Ram.count, Ram.stride]; omega))]; rfl

theorem reserved_locate {off : Nat} (h4 : off % 4 = 0) (h : ReservedOffset off) : locate off = .reserved := by
  rcases locate_cases off with ⟨r, rfl, g⟩ | ⟨m, hm, g⟩ | ⟨-, -, g⟩
  · exfalso
    apply h
    cases r <;> simp [Reg.offset, InputOffset, ReadOnlyOffset, OutputOffset]
  · exfalso
    apply h
    rw [holds_iff] at hm
    cases m <;> simp only [Ram.base, Ram.bytes, Ram.count, Ram.stride] at hm <;>
      simp only [InputOffset, ReadOnlyOffset, OutputOffset] <;> omega
  · exact g

end Sys2Proof.Laws
end

