-- ==== Sys2Proof/Laws/Bus.lean ====
section
/-!
SUPPORT. What one event of the Host can do: the step of each kind of event, and the effect of each kind of write.
-/

namespace Sys2Proof.Laws

open Machine
open Config (Params)

/-! ### The step of an event -/

/-- The step of the Host's next event. -/
theorem step_event {s : State} {e : HostEvent} {rest : List HostEvent} (h : NextEvent s e rest) :
    step s = hostEvent machineParams e { s with bus := rest, lat := s.lat - 1 } := by
  obtain ⟨h1, h2⟩ := h
  rcases step_cases s with ⟨op, hd, -⟩ | ⟨-, hb, -⟩ | ⟨e', rest', -, hb, hs⟩
  · rw [dueCommand_eq_some] at hd
    rcases h1 with h1 | h1
    · simp [h1] at hd
    · simp [h1, h2] at hd
  · simp [h2] at hb
  · rw [h2] at hb; cases hb; exact hs

/-- Where no command is due, the next event of the bus comes. -/
theorem nextEvent_of_not_due {s : State} {e : HostEvent} {rest : List HostEvent} (hd : dueCommand s = none)
    (hb : s.bus = e :: rest) : NextEvent s e rest := by
  refine ⟨?_, hb⟩
  unfold dueCommand at hd
  split at hd
  · exact Or.inl ‹_›
  · split at hd
    · cases hd
    · exact Or.inr (by tauto)

theorem hostAccess_ok {P : Params} {a : Access} {s : State} (h : a.wellFormed = true) :
    hostAccess P a s = .next (performAccess P a s) := by
  simp only [Access.wellFormed, Bool.and_eq_true] at h
  simp [hostAccess, h.1.1, h.1.2, h.2]

theorem hostAccess_refused {P : Params} {a : Access} {s : State} (h : a.inWindow = true) (hw : a.wellFormed = false) :
    hostAccess P a s = .next { s with resp := some (refusedResponse a) } := by
  simp only [Access.wellFormed, h, Bool.true_and] at hw
  simp [hostAccess, h, hw]

theorem wellFormed_of_word {a : Access} (h : WordOffset a.off) (hw : a.width = .word) : a.wellFormed = true := by
  simp [Access.wellFormed, Access.inWindow, Access.aligned, Access.isWord, h.1, h.2, hw, Config.windowBytes]

/-- The step of an aligned word read. -/
theorem step_read {s : State} {off : Nat} {rest : List HostEvent} (ho : WordOffset off)
    (h : NextEvent s (.access (.read off .word)) rest) :
    step s = .next { s with
      bus := rest, lat := s.lat - 1, free := s.free + 1,
      resp := some (.okayRead (observedWord machineParams s.toArch off (machineParams.freeWord s.free))) } := by
  rw [step_event h]; simp only [hostEvent]
  rw [hostAccess_ok (wellFormed_of_word (by exact ho) rfl)]
  rfl

/-- The step of an aligned word write. -/
theorem step_write {s : State} {off : Nat} {v : Word} {rest : List HostEvent} (ho : WordOffset off)
    (h : NextEvent s (.access (.write off .word v)) rest) :
    step s = .next { (busWrite machineParams off v { s with bus := rest, lat := s.lat - 1 }) with
      resp := some .okayWrite } := by
  rw [step_event h]; simp only [hostEvent]
  rw [hostAccess_ok (wellFormed_of_word (by exact ho) rfl)]
  rfl

/-! ### Writes -/

theorem isInput_reg_rw {r : Reg} (h : (Loc.reg r).isInput = true) : r.kind = .rw ∧ r ≠ .ctrl := by
  cases r <;> simp_all [Loc.isInput, Reg.kind]

theorem busWrite_cmd (P : Params) (v : Word) (s : State) : busWrite P 0x10 v s = writeCmd P v s := by
  have h : locate 0x10 = .reg .cmd := locate_reg .cmd
  simp [busWrite, h]

theorem busWrite_status (P : Params) (v : Word) (s : State) :
    busWrite P 0x0C v s = { s with toArch := writeStatus v s.toArch } := by
  have h : locate 0x0C = .reg .status := locate_reg .status
  simp [busWrite, h]

theorem busWrite_ctrl (P : Params) (v : Word) (s : State) :
    busWrite P 0x08 v s = { s with toArch := writeReg v s.toArch .ctrl } := by
  have h : locate 0x08 = .reg .ctrl := locate_reg .ctrl
  simp [busWrite, h]

theorem busWrite_input {P : Params} {off : Nat} {v : Word} {s : State} (h : (locate off).isInput = true) :
    busWrite P off v s = if s.busy then { s with toArch := recordError .wrBusy s.toArch }
      else { s with toArch := writeInput v off s.toArch } := by
  unfold busWrite
  split <;> simp_all [Loc.isInput, Reg.kind]

/-- A write to a location that is not an input, `CTRL`, `STATUS` or `CMD` has no effect. -/
theorem busWrite_ignored {P : Params} {off : Nat} {v : Word} {s : State} (h : (locate off).isInput = false)
    (h1 : off ≠ 0x08) (h2 : off ≠ 0x0C) (h3 : off ≠ 0x10) : busWrite P off v s = s := by
  have key : ∀ r : Reg, locate off = .reg r → off = r.offset := by
    intro r hr
    rcases locate_cases off with ⟨r', rfl, h⟩ | ⟨m, _, h⟩ | ⟨_, _, h⟩
    · rw [hr] at h; cases h; rfl
    · rw [hr] at h; cases h
    · rw [hr] at h; cases h
  unfold busWrite
  split
  · rename_i hl; exact absurd (key _ hl) h3
  · rename_i hl; exact absurd (key _ hl) h2
  · rename_i hl; exact absurd (key _ hl) h1
  · simp [h]

theorem isInput_false_of_output {l : Loc} (h : l.isOutput = true) : l.isInput = false := by
  cases l with
  | reg r => cases r <;> simp_all [Loc.isInput, Loc.isOutput, Reg.kind]
  | ram m => cases m <;> simp_all [Loc.isInput, Loc.isOutput, Ram.kind]
  | reserved => rfl

/-! ### What a step can do -/

/-- The architectural state after the Host's next event, other than a reset. -/
inductive EventEffect (s : State) (e : HostEvent) (a : Arch) : Prop where
  /-- A read, a refused access, or a write that is ignored. -/
  | none (h : a = s.toArch)
  | ctrl (v : Word) (he : e = .access (.write 0x08 .word v)) (h : a = writeReg v s.toArch .ctrl)
  | status (v : Word) (he : e = .access (.write 0x0C .word v)) (h : a = writeStatus v s.toArch)
  /-- A write refused while a command runs. -/
  | refused (c : ErrCode) (hc : c = .wrBusy ∨ c = .cmdBusy) (hb : s.busy = true) (h : a = recordError c s.toArch)
  | illegal (hi : s.seq = .idle) (h : a = recordError .illegalCmd s.toArch)
  | accepted (op : Instr) (hi : s.seq = .idle) (h : a = acceptCommand op s.toArch)
  | input (off : Nat) (v : Word) (he : e = .access (.write off .word v)) (ho : WordOffset off)
      (hin : (locate off).isInput = true) (hi : s.seq = .idle) (h : a = writeInput v off s.toArch)

theorem busWrite_effect (P : Params) (s : State) (off : Nat) (v : Word) (ho : WordOffset off) :
    EventEffect s (.access (.write off .word v)) (busWrite P off v s).toArch ∧ (busWrite P off v s).bus = s.bus := by
  by_cases h1 : off = 0x08
  · subst h1; rw [busWrite_ctrl]; exact ⟨.ctrl v rfl rfl, rfl⟩
  by_cases h2 : off = 0x0C
  · subst h2; rw [busWrite_status]; exact ⟨.status v rfl rfl, rfl⟩
  by_cases h3 : off = 0x10
  · subst h3
    rw [busWrite_cmd]; unfold writeCmd
    split
    · rename_i hb; exact ⟨.refused .cmdBusy (Or.inr rfl) hb rfl, rfl⟩
    · rename_i hb
      have hi : s.seq = .idle := not_busy_iff.mp (by simpa using hb)
      split
      · rename_i op _; exact ⟨.accepted op hi rfl, rfl⟩
      · exact ⟨.illegal hi rfl, rfl⟩
  cases hin : (locate off).isInput with
  | false => rw [busWrite_ignored hin h1 h2 h3]; exact ⟨.none rfl, rfl⟩
  | true =>
    rw [busWrite_input hin]
    split
    · rename_i hb; exact ⟨.refused .wrBusy (Or.inl rfl) hb rfl, rfl⟩
    · rename_i hb
      exact ⟨.input off v rfl ho hin (not_busy_iff.mp (by simpa using hb)) rfl, rfl⟩

/-- What the Host's next event, other than a reset, does to the architectural state. -/
theorem step_event_effect {s t : State} {e : HostEvent} {rest : List HostEvent} (h : NextEvent s e rest)
    (hr : ∀ i, e ≠ .reset i) (hs : step s = .next t) :
    EventEffect s e t.toArch ∧ (t.bus = rest ∨ e = .wait ∧ t.bus = .wait :: rest) := by
  rw [step_event h] at hs
  cases e with
  | reset i => exact absurd rfl (hr i)
  | wait =>
    simp only [hostEvent, Host.Outcome.next.injEq] at hs
    subst hs
    unfold hostWait
    dsimp only
    split
    · exact ⟨.none rfl, Or.inr ⟨rfl, rfl⟩⟩
    · exact ⟨.none rfl, Or.inl rfl⟩
  | access a =>
    simp only [hostEvent] at hs
    cases hw : a.inWindow with
    | false => simp [hostAccess, hw] at hs
    | true =>
      cases hf : a.wellFormed with
      | false =>
        rw [hostAccess_refused hw hf] at hs
        cases hs
        exact ⟨.none rfl, Or.inl rfl⟩
      | true =>
        rw [hostAccess_ok hf] at hs
        cases hs
        simp only [Access.wellFormed, Access.inWindow, Access.aligned, Access.isWord, Bool.and_eq_true,
          decide_eq_true_eq, beq_iff_eq] at hf
        cases a with
        | read o w => exact ⟨.none rfl, Or.inl rfl⟩
        | write o w v =>
          obtain ⟨⟨h1, h2⟩, h3⟩ := hf
          cases h3
          have hb := busWrite_effect machineParams { s with bus := rest, lat := s.lat - 1 } o v ⟨h1, h2⟩
          refine ⟨?_, Or.inl hb.2⟩
          show EventEffect s _ (busWrite machineParams o v { s with bus := rest, lat := s.lat - 1 }).toArch
          cases hb.1 with
          | none h => exact .none h
          | ctrl v he h => exact .ctrl v he h
          | status v he h => exact .status v he h
          | refused c hc hb h => exact .refused c hc hb h
          | illegal hi h => exact .illegal hi h
          | accepted op hi h => exact .accepted op hi h
          | input off v he ho hin hi h => exact .input off v he ho hin hi h

/-- The architectural state after the completion step of a command. -/
def completed (P : Params) (op : Instr) (s : Arch) : Arch :=
  match op with
  | .limbw => limbwComplete P s
  | .qblk => qblkComplete P s

theorem exec_eq (op : Instr) (s : State) :
    exec op s = .next { s with toArch := completed machineParams op s.toArch } := by cases op <;> rfl

/-- One step that goes on is a completion step, a reset, another event of the Host, or nothing. -/
theorem step_next_cases {s t : State} (h : step s = .next t) :
    (∃ op, s.seq = .run op ∧ dueCommand s = some op ∧
        t = { s with toArch := completed machineParams op s.toArch }) ∨
      (∃ i rest, NextEvent s (.reset i) rest ∧ t.toArch = resetArch s.toArch) ∨
      (∃ e rest, NextEvent s e rest ∧ (∀ i, e ≠ .reset i) ∧ EventEffect s e t.toArch) ∨
      (s.bus = [] ∧ t = s) := by
  rcases step_cases s with ⟨op, hd, hs⟩ | ⟨hd, hb, hs⟩ | ⟨e, rest, hd, hb, hs⟩
  · rw [hs, exec_eq] at h
    cases h
    exact Or.inl ⟨op, (dueCommand_eq_some.mp hd).1, hd, rfl⟩
  · rw [hs] at h
    cases h
    exact Or.inr (Or.inr (Or.inr ⟨hb, rfl⟩))
  · have hn := nextEvent_of_not_due hd hb
    by_cases hr : ∃ i, e = .reset i
    · obtain ⟨i, rfl⟩ := hr
      rw [hs] at h
      simp only [hostEvent, Host.Outcome.next.injEq] at h
      subst h
      exact Or.inr (Or.inl ⟨i, rest, hn, rfl⟩)
    · have hr' : ∀ i, e ≠ .reset i := fun i hi => hr ⟨i, hi⟩
      exact Or.inr (Or.inr (Or.inl ⟨e, rest, hn, hr', (step_event_effect hn hr' h).1⟩))

end Sys2Proof.Laws
end

