-- ==== Sys2Proof/Laws/Float.lean ====
section
/-!
SUPPORT. The laws of the binary64 primitives: the fields of a pattern, the value of a magnitude pattern and its order,
and what each operation gives on special values.
-/

namespace Sys2Proof.Laws

open Machine
open Config (Params)

/-! ### Patterns -/

theorem magOf_lt (x : F64) : magOf x < 2 ^ 63 := (x.extractLsb' 0 63).isLt

theorem magOf_eq (x : F64) : magOf x = x.toNat % 2 ^ 63 := by simp [magOf]

theorem expOf_eq (x : F64) : expOf x = magOf x / 2 ^ 52 := by
  rw [magOf_eq]
  have := x.isLt
  simp [expOf, Nat.shiftRight_eq_div_pow]
  omega

theorem fracOf_eq (x : F64) : fracOf x = magOf x % 2 ^ 52 := by
  rw [magOf_eq]
  simp [fracOf]

@[simp] theorem signOf_ofMag (b : Bool) (m : Nat) : signOf (ofMag b m) = b := by
  unfold signOf ofMag
  rw [BitVec.getLsbD_append]
  simp

theorem magOf_ofMag {b : Bool} {m : Nat} (h : m < 2 ^ 63) : magOf (ofMag b m) = m := by
  have e : (ofMag b m).toNat % 2 ^ 63 = m := by
    unfold ofMag
    rw [BitVec.toNat_append, Nat.shiftLeft_eq, BitVec.toNat_ofNat, Nat.mul_comm _ (2 ^ 63),
      ← Nat.two_pow_add_eq_or_of_lt (by omega)]
    omega
  rw [magOf_eq, e]

theorem signOf_eq (x : F64) : signOf x = decide (2 ^ 63 ≤ x.toNat) := by
  have := x.isLt
  unfold signOf
  rw [BitVec.getLsbD, Nat.testBit_eq_decide_div_mod_eq, decide_eq_decide]
  omega

/-- A pattern is its sign and its magnitude pattern. -/
theorem pattern_ext {x y : F64} (h1 : signOf x = signOf y) (h2 : magOf x = magOf y) : x = y := by
  rw [signOf_eq, signOf_eq] at h1
  rw [magOf_eq, magOf_eq] at h2
  have := x.isLt; have := y.isLt
  apply BitVec.eq_of_toNat_eq
  rw [decide_eq_decide] at h1
  by_cases h : 2 ^ 63 ≤ x.toNat
  · have := h1.mp h; omega
  · have : ¬ 2 ^ 63 ≤ y.toNat := fun g => h (h1.mpr g)
    omega

theorem infMag_lt : infMag < 2 ^ 63 := by decide

theorem magOf_inf (b : Bool) : magOf (ofMag b infMag) = infMag := magOf_ofMag infMag_lt

theorem magOf_zero (b : Bool) : magOf (ofMag b 0) = 0 := magOf_ofMag (by decide)

theorem isNaN_false_of_mag {x : F64} (h : magOf x ≤ infMag) : isNaN x = false := by
  simp only [isNaN, decide_eq_false_iff_not]; omega

@[simp] theorem isNaN_quietNaN : isNaN quietNaN = true := by decide

theorem not_nan_cases (x : F64) (h : isNaN x = false) : isInf x = true ∨ isFinite x = true := by
  simp only [isNaN, isInf, isFinite, decide_eq_true_eq, decide_eq_false_iff_not] at *; omega

theorem finite_not_nan {x : F64} (h : isFinite x = true) : isNaN x = false ∧ isInf x = false := by
  simp only [isNaN, isInf, isFinite, decide_eq_true_eq, decide_eq_false_iff_not] at *; omega

/-! ### The value of a magnitude pattern -/

theorem unitsOf_eq (x : F64) :
    unitsOf x = if magOf x / 2 ^ 52 = 0 then magOf x % 2 ^ 52
      else (2 ^ 52 + magOf x % 2 ^ 52) * 2 ^ (magOf x / 2 ^ 52 - 1) := by
  rw [unitsOf, expOf_eq, fracOf_eq]

theorem unitsOfMag_eq {m : Nat} (h : m < 2 ^ 63) :
    unitsOfMag m = if m / 2 ^ 52 = 0 then m % 2 ^ 52 else (2 ^ 52 + m % 2 ^ 52) * 2 ^ (m / 2 ^ 52 - 1) := by
  rw [unitsOfMag, unitsOf_eq, magOf_ofMag h]

theorem unitsOf_eq_mag (x : F64) : unitsOf x = unitsOfMag (magOf x) := by
  rw [unitsOf_eq, unitsOfMag_eq (magOf_lt x)]

/-- Within the binade of scale `2 ^ k`, up to and with its upper end, the patterns are the multiples of `2 ^ k`. -/
theorem unitsOfMag_binade {k q : Nat} (hk : k < 2046) (hq : q ≤ 2 ^ 53) (h : k = 0 ∨ 2 ^ 52 ≤ q) :
    unitsOfMag (k * 2 ^ 52 + q) = q * 2 ^ k := by
  rw [unitsOfMag_eq (by omega)]
  rcases Nat.lt_or_ge q (2 ^ 52) with hlt | hge
  · have hk0 : k = 0 := by omega
    subst hk0
    have e1 : (0 * 2 ^ 52 + q) / 2 ^ 52 = 0 := by omega
    have e2 : (0 * 2 ^ 52 + q) % 2 ^ 52 = q := by omega
    rw [if_pos e1, e2]; simp
  · rcases Nat.lt_or_ge q (2 ^ 53) with hlt | hge2
    · have e1 : (k * 2 ^ 52 + q) / 2 ^ 52 = k + 1 := by omega
      have e2 : (k * 2 ^ 52 + q) % 2 ^ 52 = q - 2 ^ 52 := by omega
      rw [if_neg (by omega), e1, e2]
      have e3 : 2 ^ 52 + (q - 2 ^ 52) = q := by omega
      rw [e3]; simp
    · have hq2 : q = 2 ^ 53 := by omega
      subst hq2
      have e1 : (k * 2 ^ 52 + 2 ^ 53) / 2 ^ 52 = k + 2 := by omega
      have e2 : (k * 2 ^ 52 + 2 ^ 53) % 2 ^ 52 = 0 := by omega
      rw [if_neg (by omega), e1, e2]
      have e3 : k + 2 - 1 = k + 1 := by omega
      rw [e3, Nat.pow_succ]; omega

theorem unitsOfMag_zero : unitsOfMag 0 = 0 := by
  have := unitsOfMag_binade (k := 0) (q := 0) (by omega) (by omega) (Or.inl rfl)
  simpa using this

/-- The next pattern is a larger value. -/
theorem unitsOfMag_lt_succ {m : Nat} (h : m < infMag) : unitsOfMag m < unitsOfMag (m + 1) := by
  have hi : infMag = 2047 * 2 ^ 52 := by decide
  by_cases h0 : m < 2 ^ 52
  · have e1 := unitsOfMag_binade (k := 0) (q := m) (by omega) (by omega) (Or.inl rfl)
    have e2 := unitsOfMag_binade (k := 0) (q := m + 1) (by omega) (by omega) (Or.inl rfl)
    simp only [Nat.zero_mul, Nat.zero_add, Nat.pow_zero, Nat.mul_one] at e1 e2
    omega
  · obtain ⟨k, q, hm, hq1, hq2, hk⟩ : ∃ k q, m = k * 2 ^ 52 + q ∧ 2 ^ 52 ≤ q ∧ q < 2 ^ 53 ∧ k < 2046 :=
      ⟨m / 2 ^ 52 - 1, m % 2 ^ 52 + 2 ^ 52, by omega, by omega, by omega, by omega⟩
    have e1 := unitsOfMag_binade (k := k) (q := q) hk (by omega) (Or.inr hq1)
    have e2 := unitsOfMag_binade (k := k) (q := q + 1) hk (by omega) (Or.inr (by omega))
    rw [hm, e1, Nat.add_assoc, e2]
    exact Nat.mul_lt_mul_of_pos_right (by omega) (Nat.two_pow_pos k)

/-- The magnitude patterns are in the order of the values. -/
theorem unitsOfMag_lt {m n : Nat} (h : m < n) (hn : n ≤ infMag) : unitsOfMag m < unitsOfMag n := by
  induction n, h using Nat.le_induction with
  | base => exact unitsOfMag_lt_succ (by omega)
  | succ n h ih => exact lt_trans (ih (by omega)) (unitsOfMag_lt_succ (by omega))

theorem unitsOfMag_lt_iff {m n : Nat} (hm : m ≤ infMag) (hn : n ≤ infMag) :
    unitsOfMag m < unitsOfMag n ↔ m < n := by
  refine ⟨fun h => ?_, fun h => unitsOfMag_lt h hn⟩
  rcases Nat.lt_trichotomy m n with g | g | g
  · exact g
  · subst g; omega
  · have := unitsOfMag_lt g hm; omega

/-! ### Rounding -/

theorem roundMag_le (n d : Nat) : roundMag n d ≤ infMag := Nat.min_le_right _ _

@[simp] theorem signOf_round64 (b : Bool) (n d : Nat) : signOf (round64 b n d) = b := signOf_ofMag _ _

theorem magOf_round64 (b : Bool) (n d : Nat) : magOf (round64 b n d) = roundMag n d :=
  magOf_ofMag (lt_of_le_of_lt (roundMag_le n d) infMag_lt)

@[simp] theorem isNaN_round64 (b : Bool) (n d : Nat) : isNaN (round64 b n d) = false :=
  isNaN_false_of_mag (by rw [magOf_round64]; exact roundMag_le n d)

/-- The integer nearest to `n / d`, ties to even. -/
theorem roundNearestEven_spec (n d : Nat) (hd : 0 < d) :
    (2 * n < (2 * roundNearestEven n d + 1) * d ∨
      (2 * n = (2 * roundNearestEven n d + 1) * d ∧ roundNearestEven n d % 2 = 0)) ∧
    (2 * roundNearestEven n d * d < 2 * n + d ∨
      (2 * roundNearestEven n d * d = 2 * n + d ∧ roundNearestEven n d % 2 = 0)) := by
  have h1 := Nat.div_add_mod n d
  have h2 := Nat.mod_lt n hd
  unfold roundNearestEven
  generalize n / d = q at *
  generalize n % d = r at *
  subst h1
  split
  · constructor <;> left <;> nlinarith
  · split
    · constructor <;> left <;> nlinarith
    · have h3 : 2 * r = d := by omega
      rcases Nat.mod_two_eq_zero_or_one q with hq | hq <;> rw [hq]
      · constructor
        · right; constructor
          · simp; nlinarith
          · omega
        · left; simp; nlinarith
      · constructor
        · left; nlinarith
        · right; constructor
          · nlinarith
          · omega

/-- The binade that `roundMag` picks, and the multiple of its scale that it rounds to. -/
theorem roundMag_shape (n d : Nat) (hd : 0 < d) :
    ∃ k q, roundMag n d = min (k * 2 ^ 52 + q) infMag ∧ q = roundNearestEven n (d * 2 ^ k) ∧ q ≤ 2 ^ 53 ∧
      (k = 0 ∨ (2 ^ 52 ≤ q ∧ 2 ^ 52 * (d * 2 ^ k) ≤ n)) ∧ n < 2 ^ 53 * (d * 2 ^ k) := by
  refine ⟨Nat.log2 (n / d) - 52, _, rfl, rfl, ?_⟩
  generalize hk : Nat.log2 (n / d) - 52 = k
  have hD : 0 < d * 2 ^ k := Nat.mul_pos hd (Nat.two_pow_pos k)
  have h1 : n / d < 2 ^ (k + 53) := by
    refine lt_of_lt_of_le Nat.lt_log2_self (Nat.pow_le_pow_right (by omega) (by omega))
  have h2 : n < 2 ^ 53 * (d * 2 ^ k) := by
    have := (Nat.div_lt_iff_lt_mul hd).mp h1
    calc n < 2 ^ (k + 53) * d := this
      _ = 2 ^ 53 * (d * 2 ^ k) := by rw [Nat.pow_add]; ring
  have h3 := (Nat.div_lt_iff_lt_mul hD).mpr h2
  refine ⟨?_, ?_, h2⟩
  · unfold roundNearestEven
    split
    · omega
    · split <;> omega
  · by_cases h0 : k = 0
    · exact Or.inl h0
    · right
      have hne : n / d ≠ 0 := by
        intro h; rw [h] at hk; simp at hk; omega
      have h4 : 2 ^ (k + 52) ≤ n / d := by
        rw [show k + 52 = Nat.log2 (n / d) by omega]
        exact Nat.log2_self_le hne
      have h5 : 2 ^ 52 * (d * 2 ^ k) ≤ n := by
        have := (Nat.le_div_iff_mul_le hd).mp h4
        calc 2 ^ 52 * (d * 2 ^ k) = 2 ^ (k + 52) * d := by rw [Nat.pow_add]; ring
          _ ≤ n := this
      refine ⟨?_, h5⟩
      have h6 := (Nat.le_div_iff_mul_le hD).mpr h5
      unfold roundNearestEven
      split
      · omega
      · split <;> omega

/-! ### Values -/

/-- A finite value is zero exactly for a zero pattern. -/
theorem unitsOf_eq_zero {x : F64} (h : isFinite x = true) : unitsOf x = 0 ↔ magOf x = 0 := by
  rw [unitsOf_eq_mag]
  simp only [isFinite, decide_eq_true_eq] at h
  constructor
  · intro h0
    by_contra hne
    have := unitsOfMag_lt (m := 0) (n := magOf x) (by omega) (by omega)
    omega
  · intro h0; rw [h0, unitsOfMag_zero]

/-- Finite values are in the order of their keys. -/
theorem valueOf_lt {x y : F64} (hx : isFinite x = true) (hy : isFinite y = true) :
    valueOf x < valueOf y ↔ orderKey x < orderKey y := by
  have zx := unitsOf_eq_zero hx
  have zy := unitsOf_eq_zero hy
  simp only [isFinite, decide_eq_true_eq] at hx hy
  have k1 := unitsOfMag_lt_iff (m := magOf x) (n := magOf y) (by omega) (by omega)
  have k2 := unitsOfMag_lt_iff (m := magOf y) (n := magOf x) (by omega) (by omega)
  rw [← unitsOf_eq_mag, ← unitsOf_eq_mag] at k1 k2
  unfold valueOf orderKey
  split <;> split <;> omega

theorem zero_not_nan {x : F64} (h : isZero x = true) : isNaN x = false ∧ isInf x = false := by
  have h0 : magOf x = 0 := of_decide_eq_true h
  have h1 : infMag ≠ 0 := by decide
  refine ⟨isNaN_false_of_mag (by omega), ?_⟩
  simp only [isInf, decide_eq_false_iff_not]; omega

theorem zero_finite {x : F64} (h : isZero x = true) : isFinite x = true := by
  have h0 : magOf x = 0 := of_decide_eq_true h
  exact decide_eq_true (by rw [h0]; decide)

theorem unitsOf_of_zero {x : F64} (h : isZero x = true) : unitsOf x = 0 := by
  have h0 : magOf x = 0 := of_decide_eq_true h
  rw [unitsOf_eq_mag, h0, unitsOfMag_zero]

/-- Comparing with +0 is testing for zero. -/
theorem eq64_plusZero (t : F64) : eq64 t plusZero = isZero t := by
  unfold eq64 isZero orderKey isNaN
  have e : magOf plusZero = 0 := by decide
  rw [e]
  have h1 : ¬ infMag < 0 := by omega
  by_cases h : magOf t = 0
  · rw [h]; simp
  · simp [h]
    split <;> omega

/-- A NaN pattern is a NaN, whatever its sign and payload. -/
theorem isNaN_nanPattern (x : F64) : isNaN (nanPattern x) = true := by
  have hf : fracOf x < 2 ^ 52 := by rw [fracOf_eq]; exact Nat.mod_lt _ (by decide)
  have hi : infMag = 2047 * 2 ^ 52 := by decide
  unfold nanPattern isNaN
  rw [magOf_ofMag (by split <;> omega), decide_eq_true_eq]
  split <;> omega

/-- A NaN is no zero. -/
theorem nan_not_zero {x : F64} (h : isNaN x = true) : isZero x = false := by
  simp only [isNaN, isZero, decide_eq_true_eq, decide_eq_false_iff_not] at h ⊢
  omega

/-! ### Clamping and the parameter functions -/

/-- A value that is already in the range is kept. -/
theorem clamp64_eq {lo hi x : F64} (hn : isNaN x = false) (h1 : lt64 x lo = false) (h2 : gt64 x hi = false) :
    clamp64 lo hi x = x := by
  simp [clamp64, hn, h1, h2]

/-- A clamped value is in the range, and no NaN. -/
theorem clamp64_mem {lo hi : F64} (x : F64) (hl : isNaN lo = false) (hh : isNaN hi = false) (h : lt64 hi lo = false) :
    isNaN (clamp64 lo hi x) = false ∧ lt64 (clamp64 lo hi x) lo = false ∧ gt64 (clamp64 lo hi x) hi = false := by
  unfold clamp64
  simp only [lt64, gt64, hl, hh, Bool.not_false, Bool.true_and, Bool.and_true, decide_eq_false_iff_not] at h ⊢
  cases hx : isNaN x <;> simp only [Bool.not_true, Bool.not_false, Bool.true_and, Bool.false_or, Bool.true_or,
    Bool.false_and, if_true, decide_eq_true_eq]
  · split
    · simpa [hl] using h
    · split
      · simpa [hh] using h
      · simp_all
  · simpa [hl] using h

theorem magOf_eq_key (x : F64) : magOf x = (orderKey x).natAbs := by
  unfold orderKey
  split <;> omega

/-- A clamped value between finite bounds is finite. -/
theorem clamp64_finite {lo hi : F64} (x : F64) (hl : isFinite lo = true) (hh : isFinite hi = true)
    (h : lt64 hi lo = false) : isFinite (clamp64 lo hi x) = true := by
  obtain ⟨h1, h2, h3⟩ := clamp64_mem x (finite_not_nan hl).1 (finite_not_nan hh).1 h
  simp only [lt64, gt64, h1, (finite_not_nan hl).1, (finite_not_nan hh).1, Bool.not_false, Bool.true_and,
    decide_eq_false_iff_not] at h2 h3
  simp only [isFinite, decide_eq_true_eq, magOf_eq_key] at hl hh ⊢
  omega

/-- `Pow64` of a finite positive value. -/
theorem pow64_regular (P : Params) {x : F64} (hf : isFinite x = true) (hz : isZero x = false) (hs : signOf x = false) :
    pow64 P x = clamp64 powBottom powTop (P.pow x Config.powm) := by
  simp [pow64, finite_not_nan hf, hz, hs]

/-- `Log64` of a finite positive value other than 1. -/
theorem log64_regular (P : Params) {x : F64} (hf : isFinite x = true) (hz : isZero x = false) (hs : signOf x = false)
    (h1 : x ≠ Config.one) : log64 P x = clamp64 logBottom expTop (P.log x) := by
  simp [log64, finite_not_nan hf, hz, hs, h1]

/-- `Exp64` of a finite value that is not zero. -/
theorem exp64_regular (P : Params) {x : F64} (hf : isFinite x = true) (hz : isZero x = false) :
    exp64 P x =
      if gt64 x expTop then ofMag false infMag
      else if lt64 x expBottom then plusZero
      else clamp64 plusZero maxFinite (abs64 (P.exp x)) := by
  simp [exp64, finite_not_nan hf, hz]

/-- `DEFQUAL` is finite and positive. -/
theorem defaultQuality_positive (P : Params) :
    isFinite (defaultQuality P) = true ∧ isZero (defaultQuality P) = false ∧ signOf (defaultQuality P) = false := by
  unfold defaultQuality
  split
  · simp_all
  · decide

end Sys2Proof.Laws
end

