-- ==== Sys2Proof/Laws/PerInstr.lean ====
section
/-!
SUPPORT. Families of statements made per instruction.
-/

namespace Sys2Proof.Laws

/-- The command's word is legal: its fields pass the check, and the word is one of the two of the opcode map. -/
def LegalWord.Statement (i : Instr) : Prop :=
  i.wellFormed = true ∧ (Cmd32.ofWord (encode i)).wellFormed = true ∧
    (encode i = 0x00000001 ∨ encode i = 0x00000002) ∧ (encode i).extractLsb' 8 24 = 0

theorem LegalWord.limbw : LegalWord.Statement .limbw := by unfold LegalWord.Statement; decide

theorem LegalWord.qblk : LegalWord.Statement .qblk := by unfold LegalWord.Statement; decide

end Sys2Proof.Laws
end

