-- ==== Sys2Proof/Laws/Stages.lean ====
section
/-!
SUPPORT. What the two stages of QBLK leave, said once: which fields and bytes they do not touch, and the contents of
BANDQ, SF and XI after them.
-/

namespace Sys2Proof.Laws

open Machine
open Config (Params)

/-- An induction along the bands: what holds before band 0 and is carried over each band holds after band n - 1. -/
theorem foldl_range_induction {α : Type} (f : α → Nat → α) (s : α) (Q : Nat → α → Prop) (h0 : Q 0 s) (n : Nat)
    (hstep : ∀ b t, b < n → Q b t → Q (b + 1) (f t b)) : Q n ((List.range n).foldl f s) := by
  induction n with
  | zero => exact h0
  | succ n ih =>
    rw [List.range_succ, List.foldl_append]
    exact hstep n _ (by omega) (ih (fun b t hb hq => hstep b t (by omega) hq))

/-! ### What the stages read -/

/-- Two states with the same registers and the same bytes of `SFBOFF` and `XR`: what the stages read apart from
`BANDQ` and `SFCNT`. -/
structure SameBlock (P : Params) (s t : Arch) : Prop where
  blktype : s.blktype = t.blktype
  nsfb : s.nsfb = t.nsfb
  quality : s.quality = t.quality
  refenrg : s.refenrg = t.refenrg
  sfboff : ∀ x, 0x400 ≤ x → x < 0x604 → byteAt P s x = byteAt P t x
  xr : ∀ x, 0x2000 ≤ x → x < 0x4000 → byteAt P s x = byteAt P t x

theorem SameBlock.symm {P : Params} {s t : Arch} (h : SameBlock P s t) : SameBlock P t s :=
  ⟨h.blktype.symm, h.nsfb.symm, h.quality.symm, h.refenrg.symm, fun x a b => (h.sfboff x a b).symm,
    fun x a b => (h.xr x a b).symm⟩

theorem SameBlock.trans {P : Params} {s t u : Arch} (h : SameBlock P s t) (g : SameBlock P t u) : SameBlock P s u :=
  ⟨h.blktype.trans g.blktype, h.nsfb.trans g.nsfb, h.quality.trans g.quality, h.refenrg.trans g.refenrg,
    fun x a b => (h.sfboff x a b).trans (g.sfboff x a b), fun x a b => (h.xr x a b).trans (g.xr x a b)⟩

theorem SameBlock.refl (P : Params) (s : Arch) : SameBlock P s s :=
  ⟨rfl, rfl, rfl, rfl, fun _ _ _ => rfl, fun _ _ _ => rfl⟩

theorem sfboffAt_congr {P : Params} {s t : Arch} (h : SameBlock P s t) {k : Nat} (hk : k ≤ 128) :
    sfboffAt P s k = sfboffAt P t k := by
  unfold sfboffAt
  rw [halfAt_congr P (fun i hi => h.sfboff _ ?_ ?_)]
  · simp [Ram.addr, Ram.base, Ram.stride]; omega
  · simp [Ram.addr, Ram.base, Ram.stride]; omega

theorem xrAt_congr {P : Params} {s t : Arch} (h : SameBlock P s t) {i : Nat} (hi : i < 1024) :
    xrAt P s i = xrAt P t i := by
  unfold xrAt
  exact dwordAt_congr P (fun j hj => h.xr _ (by simp [Ram.addr, Ram.base, Ram.stride]; omega)
    (by simp [Ram.addr, Ram.base, Ram.stride]; omega))

theorem linesOf_congr {P : Params} {s t : Arch} (h : SameBlock P s t) {lo hi : Nat} (hhi : hi ≤ 1024) :
    linesOf P s lo hi = linesOf P t lo hi := by
  unfold linesOf
  refine List.map_congr_left (fun i hm => xrAt_congr h ?_)
  have := List.mem_range'_1.mp hm
  omega

@[simp] theorem length_linesOf (P : Params) (s : Arch) (lo hi : Nat) : (linesOf P s lo hi).length = hi - lo := by
  simp [linesOf]

theorem getElem_linesOf (P : Params) (s : Arch) (lo hi j : Nat) (h : j < (linesOf P s lo hi).length) :
    (linesOf P s lo hi)[j] = xrAt P s (lo + j) := by
  simp [linesOf]

/-- Every boundary up to `NSFB` of a valid table lies within the block, and the table rises. -/
theorem sfboffAt_le_of_valid {P : Params} {s : Arch} (h : BandTableValid P s) {b c : Nat} (hbc : b ≤ c)
    (hc : c ≤ s.nsfb.toNat) : sfboffAt P s b ≤ sfboffAt P s c := by
  induction c, hbc using Nat.le_induction with
  | base => exact le_refl _
  | succ c hbc ih =>
    have h1 := ih (by omega)
    have h2 := h.2.1 c (by omega)
    omega

theorem sfboffAt_le_block {P : Params} {s : Arch} (h : BandTableValid P s) {b : Nat} (hb : b ≤ s.nsfb.toNat) :
    sfboffAt P s b ≤ 1024 :=
  le_trans (sfboffAt_le_of_valid h hb (le_refl _)) h.2.2

theorem BandTableValid.congr {P : Params} {s t : Arch} (h : SameBlock P s t) (hn : s.nsfb.toNat ≤ 128)
    (hv : BandTableValid P s) : BandTableValid P t := by
  obtain ⟨h0, h1, h2⟩ := hv
  refine ⟨?_, ?_, ?_⟩
  · rw [← sfboffAt_congr h (by omega)]; exact h0
  · intro b hb
    rw [← h.nsfb] at hb
    rw [← sfboffAt_congr h (by omega), ← sfboffAt_congr h (by omega)]
    exact h1 b hb
  · rw [← h.nsfb, ← sfboffAt_congr h hn]; exact h2

/-- A band's target depends only on what `SameBlock` keeps. -/
theorem bandTarget_congr {P : Params} {s t : Arch} (h : SameBlock P s t) {b : Nat} (hb : b < 128)
    (hhi : sfboffAt P s (b + 1) ≤ 1024) : bandTarget P s b = bandTarget P t b := by
  have e1 : bandBounds P s b = bandBounds P t b := by
    simp only [bandBounds, sfboffAt_congr h (k := b) (by omega), sfboffAt_congr h (k := b + 1) (by omega)]
  have e2 : linesOf P s (bandBounds P s b).1 (bandBounds P s b).2 =
      linesOf P t (bandBounds P t b).1 (bandBounds P t b).2 := by
    rw [← e1]; exact linesOf_congr h hhi
  simp only [bandTarget, qualityRatio, targetOperands, Arch.onlyShort, h.blktype, h.quality, h.refenrg, e1]
  rw [e1] at e2
  rw [e2]

theorem bandLines_congr {P : Params} {s t : Arch} (h : SameBlock P s t) {b : Nat} (hb : b < 128)
    (hhi : sfboffAt P s (b + 1) ≤ 1024) : bandLines P s b = bandLines P t b := by
  have e1 : bandBounds P s b = bandBounds P t b := by
    simp only [bandBounds, sfboffAt_congr h (k := b) (by omega), sfboffAt_congr h (k := b + 1) (by omega)]
  unfold bandLines
  rw [← e1]
  exact linesOf_congr h hhi

theorem blockSignal_congr {P : Params} {s t : Arch} (h : SameBlock P s t) : BlockSignal P s ↔ BlockSignal P t := by
  unfold BlockSignal
  refine exists_congr (fun i => and_congr_right (fun hi => ?_))
  rw [xrAt_congr h hi]

/-! ### The output reset (43_qblk.md R183) -/

theorem clearOutputs_byte (P : Params) (s : Arch) {x : Nat} (h : x < 0x4000 ∨ 0x5000 ≤ x) :
    byteAt P (clearOutputs s) x = byteAt P s x := by
  have := byteAt_putWords_outside P s (a := Ram.xi.addr 0) (ws := List.replicate Config.frameLen (0 : Word)) (x := x)
    (by rw [List.length_replicate]; simp only [Ram.addr, Ram.base, Ram.stride, Config.frameLen]; omega)
  exact this

theorem clearOutputs_xi (P : Params) (s : Arch) {i : Nat} (h : i < 1024) : xiAt P (clearOutputs s) i = 0 := by
  have := wordAt_putWords P s (Ram.xi.addr 0) (List.replicate Config.frameLen (0 : Word)) i
    (by rw [List.length_replicate]; exact h)
  rw [List.getElem_replicate] at this
  exact this

theorem clearOutputs_sameBlock (P : Params) (s : Arch) : SameBlock P s (clearOutputs s) :=
  ⟨rfl, rfl, rfl, rfl, fun _ _ _ => (clearOutputs_byte P s (by omega)).symm,
    fun _ _ _ => (clearOutputs_byte P s (by omega)).symm⟩

/-! ### Mask (41_masking.md R140) -/

theorem maskStage_eq (P : Params) (s : Arch) : maskStage P s = { s with mem := (maskStage P s).mem } := by
  unfold maskStage
  exact foldl_range_induction (maskBand P) s (fun _ t => t = { s with mem := t.mem }) rfl _
    (fun b t _ h => by show ({ t with mem := _ } : Arch) = _; rw [h]; rfl)

/-- What the masking stage has left after the first `n` bands. -/
theorem maskUpTo_spec (P : Params) (s : Arch) (hn : s.nsfb.toNat ≤ 128) (hv : BandTableValid P s) (n : Nat)
    (hle : n ≤ s.nsfb.toNat) :
    let t := (List.range n).foldl (maskBand P) s
    SameBlock P s t ∧ (∀ x, x < 0x1000 ∨ 0x1000 + 8 * n ≤ x → byteAt P t x = byteAt P s x) ∧
      ∀ b, b < n → bandqAt P t b = bandTarget P s b := by
  refine foldl_range_induction (maskBand P) s (fun n t => SameBlock P s t ∧
    (∀ x, x < 0x1000 ∨ 0x1000 + 8 * n ≤ x → byteAt P t x = byteAt P s x) ∧
      ∀ b, b < n → bandqAt P t b = bandTarget P s b) ⟨SameBlock.refl P s, fun _ _ => rfl, fun b hb => by omega⟩ n ?_
  rintro b t hb ⟨h1, h2, h3⟩
  have hout : ∀ x, x < 0x1000 + 8 * b ∨ 0x1000 + 8 * b + 8 ≤ x → byteAt P (maskBand P t b) x = byteAt P t x :=
    fun x hx => byteAt_putDword_outside P t (by simp only [Ram.addr, Ram.base, Ram.stride]; omega)
  refine ⟨h1.trans ⟨rfl, rfl, rfl, rfl, fun x _ _ => (hout x (by omega)).symm,
    fun x _ _ => (hout x (by omega)).symm⟩, fun x hx => ?_, fun c hc => ?_⟩
  · rw [hout x (by omega), h2 x (by omega)]
  · rcases Nat.lt_succ_iff_lt_or_eq.mp hc with hc | rfl
    · rw [← h3 c hc]
      exact dwordAt_congr P (fun i hi => hout _ (by simp only [Ram.addr, Ram.base, Ram.stride]; omega))
    · have e : bandTarget P s c = bandTarget P t c :=
        bandTarget_congr h1 (by omega) (sfboffAt_le_block hv (by omega))
      rw [e]
      exact dwordAt_putDword P t _ _

/-- What the masking stage leaves. -/
theorem maskStage_spec (P : Params) (s : Arch) (hn : s.nsfb.toNat ≤ 128) (hv : BandTableValid P s) :
    SameBlock P s (maskStage P s) ∧
      (∀ x, x < 0x1000 ∨ 0x1000 + 8 * s.nsfb.toNat ≤ x → byteAt P (maskStage P s) x = byteAt P s x) ∧
      ∀ b, b < s.nsfb.toNat → bandqAt P (maskStage P s) b = bandTarget P s b :=
  maskUpTo_spec P s hn hv _ (le_refl _)

/-! ### Qlevel (42_companding.md R160) -/

theorem qlevelStage_eq (P : Params) (s : Arch) :
    qlevelStage P s = { s with mem := (qlevelStage P s).mem, sfcnt := (qlevelStage P s).sfcnt } := by
  unfold qlevelStage
  exact foldl_range_induction (qlevelBand P) s (fun _ t => t = { s with mem := t.mem, sfcnt := t.sfcnt }) rfl _
    (fun b t _ h => by
      show ({ t with mem := _, sfcnt := _ } : Arch) = _
      rw [h]; rfl)

theorem length_quantizeBand (P : Params) (target : F64) (lines : List F64) :
    (quantizeBand P target lines).2.length = lines.length := by
  unfold quantizeBand
  split <;> simp

/-- A band that is not silent is companded with its own scale factor. -/
theorem quantizeBand_of_signal (P : Params) (tg : F64) (ls : List F64) (h : silentBand tg ls = false) :
    quantizeBand P tg ls = (BitVec.ofInt 32 (scaleFactor P tg (rmsOf ls ls.length)),
      ls.map (fun x => BitVec.ofInt 32 (compand (multiplier P (scaleFactor P tg (rmsOf ls ls.length))) x))) := by
  unfold quantizeBand; rw [if_neg (by rw [h]; decide)]

/-- The bytes one band's companding leaves alone: all but its own lines of `XI` and the next entry of `SF`. -/
theorem qlevelBand_byte (P : Params) (t : Arch) (b x : Nat)
    (h1 : x < 0x4000 + 4 * (bandBounds P t b).1 ∨
      0x4000 + 4 * (bandBounds P t b).1 + 4 * ((bandBounds P t b).2 - (bandBounds P t b).1) ≤ x)
    (h2 : x < 0xC00 + 4 * t.sfcnt.toNat ∨ 0xC00 + 4 * t.sfcnt.toNat + 4 ≤ x) :
    byteAt P (qlevelBand P t b) x = byteAt P t x := by
  have e1 : byteAt P (qlevelBand P t b) x = byteAt P (putLines t (bandBounds P t b).1
      (quantizeBand P (bandqAt P t b) (linesOf P t (bandBounds P t b).1 (bandBounds P t b).2)).2) x := by
    unfold qlevelBand
    exact byteAt_putWords_outside P _ (by simp [Ram.addr, Ram.base, Ram.stride]; omega)
  rw [e1]
  exact byteAt_putWords_outside P _ (by
    rw [length_quantizeBand, length_linesOf]
    simp only [Ram.addr, Ram.base, Ram.stride]; omega)

/-- The entry of `SF` and the lines of `XI` that one band's companding leaves. -/
theorem qlevelBand_results (P : Params) (t : Arch) (b : Nat) (hsf : t.sfcnt.toNat < 128) :
    sfAt P (qlevelBand P t b) t.sfcnt.toNat = (quantizeBand P (bandqAt P t b) (bandLines P t b)).1 ∧
      ∀ j (h : j < (quantizeBand P (bandqAt P t b) (bandLines P t b)).2.length),
        xiAt P (qlevelBand P t b) ((bandBounds P t b).1 + j) =
          (quantizeBand P (bandqAt P t b) (bandLines P t b)).2[j] := by
  refine ⟨?_, fun j h => ?_⟩
  · have := wordAt_putWords P (putLines t (bandBounds P t b).1 (quantizeBand P (bandqAt P t b) (bandLines P t b)).2)
      (Ram.sf.addr t.sfcnt.toNat) [(quantizeBand P (bandqAt P t b) (bandLines P t b)).1] 0 (by simp)
    exact this
  · have e := wordAt_putWords P t (Ram.xi.addr (bandBounds P t b).1)
      (quantizeBand P (bandqAt P t b) (bandLines P t b)).2 j h
    rw [← e]
    have ea : Ram.xi.addr ((bandBounds P t b).1 + j) = Ram.xi.addr (bandBounds P t b).1 + 4 * j := by
      simp only [Ram.addr, Ram.stride]; omega
    show wordAt P _ (Ram.xi.addr _) = _
    rw [ea]
    exact wordAt_congr P (fun i hi => byteAt_putWords_outside P _ (by
      simp [Ram.addr, Ram.base, Ram.stride]; omega))

/-- What the companding stage has left after the first `n` bands. -/
theorem qlevelUpTo_spec (P : Params) (s : Arch) (hn : s.nsfb.toNat ≤ 128) (hv : BandTableValid P s)
    (h0 : s.sfcnt = 0) (n : Nat) (hle : n ≤ s.nsfb.toNat) :
    let t := (List.range n).foldl (qlevelBand P) s
    SameBlock P s t ∧ t.sfcnt.toNat = n ∧
      (∀ x, (x < 0xC00 ∨ 0xC00 + 4 * n ≤ x) → (x < 0x4000 ∨ 0x4000 + 4 * sfboffAt P s n ≤ x) →
        byteAt P t x = byteAt P s x) ∧
      ∀ b, b < n → sfAt P t b = (quantizeBand P (bandqAt P s b) (bandLines P s b)).1 ∧
        ∀ j (h : j < (quantizeBand P (bandqAt P s b) (bandLines P s b)).2.length),
          xiAt P t (sfboffAt P s b + j) = (quantizeBand P (bandqAt P s b) (bandLines P s b)).2[j] := by
  refine foldl_range_induction (qlevelBand P) s (fun n t => SameBlock P s t ∧ t.sfcnt.toNat = n ∧
      (∀ x, (x < 0xC00 ∨ 0xC00 + 4 * n ≤ x) → (x < 0x4000 ∨ 0x4000 + 4 * sfboffAt P s n ≤ x) →
        byteAt P t x = byteAt P s x) ∧
      ∀ b, b < n → sfAt P t b = (quantizeBand P (bandqAt P s b) (bandLines P s b)).1 ∧
        ∀ j (h : j < (quantizeBand P (bandqAt P s b) (bandLines P s b)).2.length),
          xiAt P t (sfboffAt P s b + j) = (quantizeBand P (bandqAt P s b) (bandLines P s b)).2[j])
    ⟨SameBlock.refl P s, by simp [h0], fun _ _ _ => rfl, fun b hb => by omega⟩ n ?_
  rintro b t hb ⟨h1, h2, h3, h4⟩
  have hoff : sfboffAt P t b = sfboffAt P s b := (sfboffAt_congr h1 (by omega)).symm
  have hoff' : sfboffAt P t (b + 1) = sfboffAt P s (b + 1) := (sfboffAt_congr h1 (by omega)).symm
  have hlt := hv.2.1 b (by omega)
  have hle1 := sfboffAt_le_block hv (b := b + 1) (by omega)
  have hout : ∀ x, (x < 0x4000 + 4 * sfboffAt P s b ∨ 0x4000 + 4 * sfboffAt P s (b + 1) ≤ x) →
      (x < 0xC00 + 4 * b ∨ 0xC00 + 4 * b + 4 ≤ x) → byteAt P (qlevelBand P t b) x = byteAt P t x := by
    intro x hx1 hx2
    refine qlevelBand_byte P t b x ?_ (by omega)
    simp only [bandBounds, hoff, hoff']
    omega
  have hq : bandqAt P t b = bandqAt P s b :=
    dwordAt_congr P (fun i hi => h3 _ (by simp only [Ram.addr, Ram.base, Ram.stride]; omega)
      (by simp only [Ram.addr, Ram.base, Ram.stride]; omega))
  have hl : bandLines P t b = bandLines P s b := (bandLines_congr h1 (by omega) hle1).symm
  have hres := qlevelBand_results P t b (by omega)
  rw [h2, hq, hl] at hres
  have hlo : (bandBounds P t b).1 = sfboffAt P s b := hoff
  rw [hlo] at hres
  refine ⟨h1.trans ⟨rfl, rfl, rfl, rfl, fun x _ _ => (hout x (by omega) (by omega)).symm,
    fun x _ _ => (hout x (by omega) (by omega)).symm⟩, ?_, fun x hx1 hx2 => ?_, fun c hc => ?_⟩
  · show (t.sfcnt + 1).toNat = b + 1
    rw [BitVec.toNat_add, h2]
    simp
    omega
  · rw [hout x (by omega) (by omega), h3 x (by omega) (by omega)]
  · rcases Nat.lt_succ_iff_lt_or_eq.mp hc with hc | rfl
    · obtain ⟨g1, g2⟩ := h4 c hc
      have hmono := sfboffAt_le_of_valid hv (b := c + 1) (c := b) (by omega) (by omega)
      have hclt := hv.2.1 c (by omega)
      refine ⟨?_, fun j hj => ?_⟩
      · rw [← g1]
        exact wordAt_congr P (fun i hi => hout _ (by simp only [Ram.addr, Ram.base, Ram.stride]; omega)
          (by simp only [Ram.addr, Ram.base, Ram.stride]; omega))
      · rw [← g2 j hj]
        have hj' : j < sfboffAt P s (c + 1) - sfboffAt P s c := by
          rw [length_quantizeBand] at hj
          simpa [bandLines, bandBounds] using hj
        exact wordAt_congr P (fun i hi => hout _ (by simp only [Ram.addr, Ram.base, Ram.stride]; omega)
          (by simp only [Ram.addr, Ram.base, Ram.stride]; omega))
    · exact hres

/-- What the companding stage leaves. -/
theorem qlevelStage_spec (P : Params) (s : Arch) (hn : s.nsfb.toNat ≤ 128) (hv : BandTableValid P s)
    (h0 : s.sfcnt = 0) :
    SameBlock P s (qlevelStage P s) ∧ (qlevelStage P s).sfcnt.toNat = s.nsfb.toNat ∧
      (∀ x, (x < 0xC00 ∨ 0xC00 + 4 * s.nsfb.toNat ≤ x) →
        (x < 0x4000 ∨ 0x4000 + 4 * sfboffAt P s s.nsfb.toNat ≤ x) → byteAt P (qlevelStage P s) x = byteAt P s x) ∧
      ∀ b, b < s.nsfb.toNat →
        sfAt P (qlevelStage P s) b = (quantizeBand P (bandqAt P s b) (bandLines P s b)).1 ∧
        ∀ j (h : j < (quantizeBand P (bandqAt P s b) (bandLines P s b)).2.length),
          xiAt P (qlevelStage P s) (sfboffAt P s b + j) =
            (quantizeBand P (bandqAt P s b) (bandLines P s b)).2[j] :=
  qlevelUpTo_spec P s hn hv h0 _ (le_refl _)

/-! ### QBLK (43_qblk.md R180) -/

theorem sameRegs_of_mem {s t : Arch} (h : t = { s with mem := t.mem }) :
    t = { s with mem := t.mem, sfcnt := t.sfcnt } := by
  cases s; cases t; simp_all

theorem sameRegs_trans {s t u : Arch} (h : t = { s with mem := t.mem, sfcnt := t.sfcnt })
    (g : u = { t with mem := u.mem, sfcnt := u.sfcnt }) : u = { s with mem := u.mem, sfcnt := u.sfcnt } := by
  cases s; cases t; cases u; simp_all

theorem qblkResults_silent {P : Params} {s : Arch} (h : ¬ BlockSignal P s) :
    qblkResults P s = { clearOutputs s with signal := false } := by
  have : blockHasSignal P s = false := by
    cases hb : blockHasSignal P s
    · rfl
    · exact absurd (blockHasSignal_iff.mp hb) h
  simp [qblkResults, this]

theorem qblkResults_signal {P : Params} {s : Arch} (h : BlockSignal P s) :
    qblkResults P s = { qlevelStage P (maskStage P (clearOutputs s)) with signal := true } := by
  simp [qblkResults, blockHasSignal_iff.mpr h]

/-- What the two stages leave of a block that passes the check: the registers but `SFCNT`, the bytes that no output of
the block takes, `BANDQ`, and `SF` and `XI` band by band, in terms of the state before. -/
theorem stages_spec (P : Params) (s : Arch) (hr : QblkReady P s) :
    let t := qlevelStage P (maskStage P (clearOutputs s))
    t = { s with mem := t.mem, sfcnt := s.nsfb } ∧ SameBlock P s t ∧
      (∀ x, (x < 0xC00 ∨ 0xC00 + 4 * s.nsfb.toNat ≤ x) → (x < 0x1000 ∨ 0x1000 + 8 * s.nsfb.toNat ≤ x) →
        (x < 0x4000 ∨ 0x5000 ≤ x) → byteAt P t x = byteAt P s x) ∧
      (∀ i, sfboffAt P s s.nsfb.toNat ≤ i → i < 1024 → xiAt P t i = 0) ∧
      ∀ b, b < s.nsfb.toNat → bandqAt P t b = bandTarget P s b ∧
        sfAt P t b = (quantizeBand P (bandTarget P s b) (bandLines P s b)).1 ∧
        ∀ j (h : j < (quantizeBand P (bandTarget P s b) (bandLines P s b)).2.length),
          xiAt P t (sfboffAt P s b + j) = (quantizeBand P (bandTarget P s b) (bandLines P s b)).2[j] := by
  obtain ⟨-, hn', hv⟩ := hr
  have hn : s.nsfb.toNat ≤ 128 := hn'
  have c1 := clearOutputs_sameBlock P s
  have hvc := BandTableValid.congr c1 hn hv
  obtain ⟨m1, m2, m3⟩ := maskStage_spec P (clearOutputs s) hn hvc
  have hnm : (maskStage P (clearOutputs s)).nsfb = s.nsfb := m1.nsfb.symm
  have hvm := BandTableValid.congr m1 hn hvc
  have h0 : (maskStage P (clearOutputs s)).sfcnt = 0 := by rw [maskStage_eq]; rfl
  obtain ⟨q1, q2, q3, q4⟩ := qlevelStage_spec P (maskStage P (clearOutputs s)) (by rw [hnm]; exact hn) hvm h0
  rw [hnm] at q2 q3 q4
  have cm := c1.trans m1
  have hoff : ∀ k, k ≤ 128 → sfboffAt P (maskStage P (clearOutputs s)) k = sfboffAt P s k :=
    fun k hk => (sfboffAt_congr cm hk).symm
  have hle := sfboffAt_le_block hv (le_refl s.nsfb.toNat)
  refine ⟨?_, cm.trans q1, fun x h1 h2 h3 => ?_, fun i hi1 hi2 => ?_, fun b hb => ?_⟩
  · have e : (qlevelStage P (maskStage P (clearOutputs s))).sfcnt = s.nsfb := BitVec.eq_of_toNat_eq q2
    have hc : clearOutputs s = { s with mem := (clearOutputs s).mem, sfcnt := (clearOutputs s).sfcnt } := rfl
    have h := sameRegs_trans (sameRegs_trans hc (sameRegs_of_mem (maskStage_eq P (clearOutputs s))))
      (qlevelStage_eq P _)
    rwa [e] at h
  · rw [q3 x h1 (by rw [hoff _ hn]; omega), m2 x (by simpa using h2), clearOutputs_byte P s h3]
  · rw [← clearOutputs_xi P s hi2]
    refine wordAt_congr P (fun j hj => ?_)
    rw [q3 _ (by simp only [Ram.addr, Ram.base, Ram.stride]; omega)
      (by rw [hoff _ hn]; simp only [Ram.addr, Ram.base, Ram.stride]; omega),
      m2 _ (by right; simp only [Ram.addr, Ram.base, Ram.stride, clearOutputs_nsfb]; omega)]
  · have hb1 := sfboffAt_le_block hv (b := b + 1) (by omega)
    have eb : bandqAt P (maskStage P (clearOutputs s)) b = bandTarget P s b := by
      rw [m3 b hb]; exact (bandTarget_congr c1 (by omega) hb1).symm
    have el : bandLines P (maskStage P (clearOutputs s)) b = bandLines P s b :=
      (bandLines_congr cm (by omega) hb1).symm
    have q4b := q4 b hb
    rw [eb, el, hoff b (by omega)] at q4b
    refine ⟨?_, q4b⟩
    rw [← eb]
    refine dwordAt_congr P (fun j hj => q3 _ ?_ ?_)
    · simp only [Ram.addr, Ram.base, Ram.stride]; omega
    · simp only [Ram.addr, Ram.base, Ram.stride]; omega

/-- A QBLK that passes its check completes with its results. -/
theorem exec_qblk_ready {s : State} (h : QblkReady machineParams s.toArch) :
    exec .qblk s = .next { s with toArch := completeCommand (qblkResults machineParams s.toArch) } := by
  rw [exec_qblk, qblkComplete, qblkCheck_none.mpr h]

/-- What a QBLK of a block with signal leaves of each band, in terms of the state before. -/
theorem exec_qblk_bands {s : State} (hr : QblkReady machineParams s.toArch) (hb : BlockSignal machineParams s.toArch) :
    ∃ t, exec .qblk s = .next t ∧ ∀ b, b < s.nsfb.toNat →
      bandqAt machineParams t.toArch b = bandTarget machineParams s.toArch b ∧
      sfAt machineParams t.toArch b =
        (quantizeBand machineParams (bandTarget machineParams s.toArch b) (bandLines machineParams s.toArch b)).1 ∧
      ∀ j (h : j < (quantizeBand machineParams (bandTarget machineParams s.toArch b)
          (bandLines machineParams s.toArch b)).2.length),
        xiAt machineParams t.toArch (sfboffAt machineParams s.toArch b + j) =
          (quantizeBand machineParams (bandTarget machineParams s.toArch b) (bandLines machineParams s.toArch b)).2[j] := by
  obtain ⟨-, -, -, -, h⟩ := stages_spec machineParams s.toArch hr
  refine ⟨_, exec_qblk_ready hr, ?_⟩
  rw [qblkResults_signal hb]
  exact h

end Sys2Proof.Laws
end

