-- ==== Sys2Proof/Machine/SpecDefault.lean ====
section
/-!
DEFINITION. The spec's default parameters (00_scope.md R6): `DEFQUAL` = 100.0, `SF_SILENT` = 0x80000000, and `Pow64`,
`Log64` and `Exp64` computed in fixed point with 320 fraction bits and rounded once to nearest-even. The machine itself
runs with the uninterpreted `Config.params`; these are a choice of them that can be evaluated, for the spec's test
vectors (log entry 19).
-/

namespace Sys2Proof.Machine

open Config (Params)

/-- The fraction bits of the fixed-point values here. -/
def fixBits : Nat := 320

/-- 1 in fixed point. -/
def fixOne : Nat := 2 ^ fixBits

/-- The sum of `t / k + t z^2 / (k + 2) + ...`, `fuel` terms, with `zz` = z^2. -/
def atanhSum (zz : Nat) : (fuel : Nat) → (t k : Nat) → Nat
  | 0, _, _ => 0
  | fuel + 1, t, k => t / k + atanhSum zz fuel (t * zz / fixOne) (k + 2)

/-- 2 atanh z, for 0 ≤ z ≤ 1/3. -/
def twoAtanh (z : Nat) : Nat := 2 * atanhSum (z * z / fixOne) 110 z 1

/-- ln 2 = 2 atanh (1/3). -/
def lnTwo : Nat := twoAtanh (fixOne / 3)

/-- The natural logarithm of `u` units (u > 0): u = m 2^L with 1 ≤ m < 2, and ln m = 2 atanh ((m - 1) / (m + 1)). -/
def lnUnits (u : Nat) : Int :=
  let p := 2 ^ Nat.log2 u
  ((Nat.log2 u : Int) - 1074) * lnTwo + (twoAtanh ((u - p) * fixOne / (u + p)) : Nat)

/-- The Taylor sum of e^r from the term `t` = r^(j-1)/(j-1)! on. -/
def expSum (r : Nat) : (fuel : Nat) → (t j : Nat) → Nat
  | 0, t, _ => t
  | fuel + 1, t, j => t + expSum r fuel (t * r / (fixOne * j)) (j + 1)

/-- e^a for `a` in fixed point, as a positive binary64 pattern: a = k ln 2 + r with 0 ≤ r < ln 2. -/
def expFix (a : Int) : F64 :=
  let k := a / (lnTwo : Int)
  let m := expSum (a % (lnTwo : Int)).toNat 90 fixOne 1
  if k > 1100 then ofMag false infMag
  else if k < -1200 then plusZero
  else round64 false (m * 2 ^ (k + 1200).toNat * unitsPerOne) (2 ^ (fixBits + 1200))

/-- The value of a finite pattern in fixed point, rounded down. -/
def fixOf (x : F64) : Int := valueOf x * (fixOne : Int) / (unitsPerOne : Int)

/-- The natural logarithm of a finite positive pattern. -/
def defaultLog (x : F64) : F64 :=
  let a := lnUnits (unitsOf x)
  round64 (decide (a < 0)) (a.natAbs * unitsPerOne) fixOne

/-- The exponential of a finite pattern. -/
def defaultExp (x : F64) : F64 := expFix (fixOf x)

/-- x^y for finite patterns, x positive. -/
def defaultPow (x y : F64) : F64 := expFix (lnUnits (unitsOf x) * valueOf y / (unitsPerOne : Int))

/-- The spec's default parameters; the choices that have no default (the free values and `QCU_BASE`) are arguments. -/
def specDefault (latency : Nat → Nat) (freeWord : Nat → Word) (ramByte : Nat → Nat → Byte) (nanBits : List F64 → F64)
    (qcuBase : Nat) : Params where
  defqual := 0x4059000000000000
  sfSilent := 0x80000000
  pow := defaultPow
  log := defaultLog
  exp := defaultExp
  latency := latency
  freeWord := freeWord
  ramByte := ramByte
  nanBits := nanBits
  qcuBase := qcuBase

end Sys2Proof.Machine
end

