-- ==== Sys2Proof/Tests/Slice0.lean ====
section
/-!
SUPPORT. Tests. The numbered vectors are those of spec/95_test_vectors.md; every other expected result is worked out by
hand from the rule named. The last part gives, for each statement with hypotheses, concrete states and operands that meet
them.
-/

namespace Sys2Proof.Tests

-- The evaluations below are done one at a time: begun together, they would all hold memory while each waits for the kernel.
set_option Elab.async false

open Machine
open Laws (lookup_blockCells)

/-! ### Ill-formed terms are refused -/

theorem test_reserved_opcode_is_ill_formed : ({ mbz := 0, opc := 0x03 } : Cmd32).opcKnown = false := by decide

theorem test_nonzero_mbz_is_ill_formed : ({ mbz := 1, opc := 0x01 } : Cmd32).mbzZero = false := by decide

theorem test_ill_formed_fields_are_refused :
    ({ mbz := 0, opc := 0x00 } : Cmd32).wellFormed = false ∧ ({ mbz := 0x800000, opc := 0x02 } : Cmd32).wellFormed = false ∧
      Instr.limbw.wellFormed = true ∧ Instr.qblk.wellFormed = true := by decide

theorem test_access_outside_the_window : (Access.read 0x10000 .word).inWindow = false := by decide

theorem test_misaligned_access : (Access.write 0x0002 .word 0).aligned = false := by decide

theorem test_byte_access_is_no_word : (Access.read 0x0008 .byte).isWord = false := by decide

theorem test_ill_formed_accesses_are_refused :
    (Access.read 0x10000 .word).wellFormed = false ∧ (Access.read 0x0002 .word).wellFormed = false ∧
      (Access.read 0x0008 .dword).wellFormed = false ∧ (Access.read 0xFFFC .word).wellFormed = true := by decide

/-! ### Decoding: words written out from 30_encoding.md R100 and R103 -/

theorem test_limbw_word : decodeWord 0b00000000_00000000_00000000_00000001 = .ok .limbw := by decide

theorem test_qblk_word : decodeWord 0b00000000_00000000_00000000_00000010 = .ok .qblk := by decide

theorem test_limbw_table_word : decodeTableWord 32 1 = some .limbw := by decide

theorem test_qblk_table_word : decodeTableWord 32 2 = some .qblk := by decide

/-- Vectors K-3 to K-5. -/
theorem test_illegal_words :
    [0x00000000, 0x00000003, 0x000000FF, 0x00000101, 0x80000002].all
      (fun w => decodeTableWord 32 w == none) = true := by decide

theorem test_wrong_length_is_refused : decodeBytes [0x01, 0x00] = .error (.wrongLength 2) := by decide

/-! ### Numeric primitives (vectors N-1 to N-12) -/

theorem test_n1_c_noise : mul64 (add64 0x3FF0000000000000 (neg64 Config.noisetone)) Config.wLong = Config.cNoise := by
  decide +kernel

theorem test_n3_round_sf_ties :
    (roundSF 0x4004000000000000, roundSF 0xC004000000000000, roundSF 0x400C000000000000, roundSF 0xC00C000000000000) =
      (2, -2, 4, -4) := by decide +kernel

theorem test_n4_round_sf_halves :
    (roundSF 0x3FE0000000000000, roundSF 0xBFE0000000000000, roundSF 0x3FF7FFFFFFFFFFFF) = (0, 0, 1) := by
  decide +kernel

theorem test_n5_round_sf_corners :
    (roundSF 0x7FF8000000000000, roundSF 0x7FF0000000000000, roundSF 0xFFF0000000000000, roundSF 0x4202A05F20000000) =
      (0, 2147483647, -2147483647, 2147483647) := by decide +kernel

theorem test_n6_trunc_q : (truncQ Config.magic, truncQ 0x41DFFFFFFFF99999) = (0, 2147483647) := by decide +kernel

theorem test_n7_trunc_q_corners :
    (truncQ 0x41E0000000000000, truncQ 0x7FF0000000000000, truncQ 0x7FF8000000000000) =
      (2147483647, 2147483647, 0) := by decide +kernel

theorem test_n8_sqrt :
    (sqrt64 0x4059000000000000, sqrt64 0x4058FFFFFFFFFFFF, sqrt64 0x4058FFFFFFFFFFFE) =
      (0x4024000000000000, 0x4024000000000000, 0x4023FFFFFFFFFFFF) := by decide +kernel

theorem test_n9_mul : mul64 0x4023FFFFFFFFFFFF 0x4023FFFFFFFFFFFF = 0x4058FFFFFFFFFFFE := by decide +kernel

theorem test_n10_silence_threshold :
    (lt64 Config.thrSilent Config.thrSilent, lt64 0x3BC79CA10C924222 Config.thrSilent,
      lt64 0x7FF8000000000000 Config.thrSilent) = (false, true, false) := by decide +kernel

theorem test_n11_zeros_are_equal : eq64 0x8000000000000000 plusZero = true := by decide +kernel

theorem test_n12_position_factor :
    (positionFactor 0 0, positionFactor 4 8, positionFactor 0 1024, positionFactor 1024 1024) =
      (0x4024000000000000, 0x4023C4B1EA413C4B, 0x4014000000000000, 0x400AAAAAAAAAAAAB) := by decide +kernel

/-- Vector Q14: the quotient 2147483647 / SFSTEP, and 0 / 0. -/
theorem test_q14_quotients :
    isNaN (div64 plusZero plusZero) = true ∧ div64 0x4120000000000000 plusZero = 0x7FF0000000000000 := by decide +kernel

/-- The smallest subnormal halved rounds to even, to +0, and the largest value doubled overflows (00_scope.md R10). -/
theorem test_rounding_at_the_ends :
    (mul64 0x0000000000000001 0x3FE0000000000000, mul64 0x0000000000000003 0x3FE0000000000000,
      mul64 0x7FEFFFFFFFFFFFFF 0x4000000000000000) = (0, 2, 0x7FF0000000000000) := by decide +kernel

/-! ### Small states -/

/-- The reset machine with the given events to come. -/
def idleWith (bus : List HostEvent) : State := { State.reset with bus := bus }

/-- The reset machine after it accepted `op`, with `lat` events before the completion and the given events to come. -/
def busyWith (op : Instr) (lat : Nat) (bus : List HostEvent) : State :=
  { State.reset with toArch := acceptCommand op (Arch.reset 0), lat := lat, bus := bus }

/-- The bytes of consecutive 16-bit elements, each stored in the low half of a word. -/
def tableCells : Nat → List Byte → Memory
  | a, lo :: hi :: bs => (a, lo) :: (a + 1, hi) :: tableCells (a + 4) bs
  | _, _ => []

/-- The word that a state's last access read. -/
def wordRead (s : Host.Outcome State Fault Refusal) : Option Response :=
  match s with
  | .next t => t.resp
  | _ => none

/-- Vectors B-1 and B-3. -/
theorem test_reads_of_constants :
    wordRead (step (idleWith [.access (.read 0x0 .word)])) = some (.okayRead 0x51434D01) ∧
      wordRead (step (idleWith [.access (.read 0x4 .word)])) = some (.okayRead 0x00800400) ∧
      wordRead (step (idleWith [.access (.read 0x10 .word)])) = some (.okayRead 0) := by decide

/-- Vector B-12. -/
theorem test_misaligned_read_is_a_bus_error :
    wordRead (step (idleWith [.access (.read 0x2 .word)])) = some (.errorRead 0) := by decide

/-- Vectors B-7 to B-9 and B-14: the stored bits of a write. -/
theorem test_stored_bits :
    (writeInput 0x00010002 0x34 (Arch.reset 0)).nsfb = 2 ∧ (writeInput 0xFFFFFFFE 0x30 (Arch.reset 0)).blktype = 2 ∧
      (writeInput 0xFFFFFFFF 0x08 (Arch.reset 0)).ctrl = 3 ∧
      (writeInput 0xABCD0010 0x400 (Arch.reset 0)).mem = [(0x400, 0x10), (0x401, 0x00)] := by decide

/-- Vector K-3: the status word after an illegal command. -/
theorem test_k3_status : statusWord (recordError .illegalCmd (Arch.reset 0)) = 0x00000104 := by decide

/-- Section 7 of the vectors. -/
theorem test_irq :
    ({ Arch.reset 0 with done := true, ctrl := 1 } : Arch).irq = true ∧
      ({ Arch.reset 0 with done := true, ctrl := 2 } : Arch).irq = false ∧
      ({ Arch.reset 0 with err := true, ctrl := 2 } : Arch).irq = true ∧
      ({ Arch.reset 0 with done := true, err := true, ctrl := 0 } : Arch).irq = false := by decide

/-! ### The two commands -/

/-- The architectural state of vector LB10 at its completion step: zero-width bands, and a band that meets the
ceiling. -/
def archLB10 : Arch :=
  { Arch.reset 0 with
    bwReq := 216, rate := 44100, ncbLong := 3, ncbShort := 3, seq := .run .limbw, lastop := 1,
    mem := tableCells 0x800 [0, 0, 0, 0, 5, 0] ++ tableCells 0xA00 [0, 0, 0, 0, 5, 0] }

/-- Vector LB10. -/
theorem test_lb10 :
    ((limbwComplete machineParams archLB10).maxcbl, (limbwComplete machineParams archLB10).maxcbs, (limbwComplete machineParams archLB10).bwAch,
      (limbwComplete machineParams archLB10).done, (limbwComplete machineParams archLB10).cfgv) = (2, 2, 0, true, true) := by
  decide +kernel

/-- Vectors LE1 and LE3: `BW_ARG` comes first. -/
theorem test_le3 :
    ((limbwComplete machineParams { Arch.reset 0 with ncbShort := 200 }).errcode,
      (limbwComplete machineParams { Arch.reset 0 with ncbShort := 200 }).done) = (.bwArg, false) := by
  decide +kernel

/-- Vector QE1: a QBLK straight after reset. -/
theorem test_qe1 :
    statusWord (qblkComplete machineParams (acceptCommand .qblk (Arch.reset 0))) = 0x00020404 := by
  decide +kernel

/-- Vectors QE2 and QE8: `BAND_OVF` before `BAND_TABLE`. -/
theorem test_qe8 :
    (qblkComplete machineParams { Arch.reset 0 with cfgv := true, nsfb := 200, mem := tableCells 0x400 [5, 0] }).errcode =
      .bandOvf := by
  decide +kernel

/-- Vectors QE3 to QE6 and QE9, and a table that passes. -/
theorem test_band_tables :
    [([0, 0, 4, 0, 4, 0], 2), ([1, 0, 4, 0, 8, 0], 2), ([0, 0, 1, 4], 1), ([0, 0, 8, 0, 4, 0], 2), ([1, 0], 0)].all
        (fun c => !bandTableOk machineParams { Arch.reset 0 with nsfb := c.2, mem := tableCells 0x400 c.1 }) = true ∧
      bandTableOk machineParams { Arch.reset 0 with nsfb := 1, mem := tableCells 0x400 [0, 0, 0, 4] } = true := by
  decide +kernel

/-- The presented word is the first instruction after reset: LIMBW then ends in `BW_ARG`, since `RATE` is 0. -/
theorem test_presented_word_runs_first :
    (match step (State.reset.withFetchWord 32 1) with
      | .next t => some (t.errcode, t.lastop, t.done)
      | _ => none) = some (.bwArg, 0x01, false) := by decide +kernel

/-- A presented word that is no command is the next word written to `CMD`: it records `ILLEGAL_CMD`. -/
theorem test_presented_illegal_word :
    (match step (State.reset.withFetchWord 32 0x101) with
      | .next t => some (t.errcode, t.lastop)
      | _ => none) = some (.illegalCmd, 0x00) := by decide +kernel

/-- Vector Q14, band 1, whatever the parameters: a target of +Inf gives the scale factor 2^31-1 and lines of 2^31-1. -/
theorem test_q14_band :
    quantizeBand machineParams 0x7FF0000000000000
      [0x4059000000000000, 0xC069000000000000, 0x4072C00000000000, 0xC079000000000000] =
      (0x7FFFFFFF, [0x7FFFFFFF, 0x7FFFFFFF, 0x7FFFFFFF, 0x7FFFFFFF]) := by decide +kernel

/-! ### Concrete states and operands that meet the hypotheses of each statement -/

/-- A block whose one band 0..3 holds 1000.0 on line 0, its other lines not written since reset; a LIMBW has
completed. -/
def blockArch : Arch :=
  { Arch.reset 0 with
    cfgv := true, nsfb := 1,
    mem := tableCells 0x400 [0, 0, 4, 0] ++ blockCells 0x2000 [0, 0, 0, 0, 0, 0x40, 0x8F, 0x40] }

/-- The same block with the settings and the lines outside band 0 changed, and a second band. -/
def otherArch : Arch :=
  { blockArch with
    nsfb := 2,
    mem := tableCells 0x400 [0, 0, 4, 0, 8, 0] ++ blockCells 0x2000
      ([0, 0, 0, 0, 0, 0x40, 0x8F, 0x40] ++ List.replicate 24 0 ++ [0, 0, 0, 0, 0, 0, 0x24, 0x40]) }

/-- The first four lines of `blockArch`, all written. -/
def fullBandArch : Arch :=
  { blockArch with
    mem := tableCells 0x400 [0, 0, 4, 0] ++
      blockCells 0x2000 ([0, 0, 0, 0, 0, 0x40, 0x8F, 0x40] ++ List.replicate 24 0) }

/-- A block of zeros, with no band. -/
def silentArch : Arch :=
  { Arch.reset 0 with cfgv := true, mem := tableCells 0x400 [0, 0] ++ blockCells 0x2000 (List.replicate 8192 0) }

/-- The band table of vector Q8, with the greatest number of bands. -/
def fullTableArch : Arch :=
  { Arch.reset 0 with
    cfgv := true, nsfb := 128,
    mem := tableCells 0x400 ((List.range 129).flatMap (fun k => leBytes 2 (8 * k))) }

def stateOf (a : Arch) : State := { State.reset with toArch := a }

theorem test_witness_encoded_commands : Instr.limbw.wellFormed = true ∧ Instr.qblk.wellFormed = true := by decide

theorem test_witness_only_two_words :
    (0x00000003 : Word) ≠ 0x00000001 ∧ (0x00000003 : Word) ≠ 0x00000002 ∧ (0x80000002 : Word) ≠ 0x00000001 ∧
      (0x80000002 : Word) ≠ 0x00000002 := by decide

theorem test_witness_due_command :
    (busyWith .limbw 0 [.wait]).seq = .run .limbw ∧ (busyWith .limbw 0 [.wait]).lat = 0 ∧
      (busyWith .qblk 5 []).seq = .run .qblk ∧ (busyWith .qblk 5 []).bus = [] := by decide

theorem test_witness_accepted_command :
    (idleWith [.access (.write 0x10 .word 2), .wait]).seq = .idle ∧ decodeWord 2 = .ok .qblk ∧
      (idleWith [.access (.write 0x10 .word 2), .wait]).bus = .access (.write 0x10 .word 2) :: [.wait] := by decide

theorem test_witness_fetch_word : decodeTableWord 32 1 = some .limbw ∧ decodeTableWord 32 2 = some .qblk := by decide

theorem test_witness_outside_the_window :
    NextEvent (idleWith [.access (.read 0x10000 .word)]) (.access (.read 0x10000 .word)) [] ∧
      step (idleWith [.access (.read 0x10000 .word)]) = .fault .outsideWindow := ⟨⟨Or.inl rfl, rfl⟩, rfl⟩

theorem test_witness_command_in_flight :
    (busyWith .limbw 2 [.access (.write 0x14 .word 5), .wait]).seq = .run .limbw ∧
      ∀ e ∈ (busyWith .limbw 2 [.access (.write 0x14 .word 5), .wait]).bus,
        e.inWindow = true ∧ ∀ i, e ≠ .reset i := by
  refine ⟨rfl, fun e he => ?_⟩
  simp only [busyWith, List.mem_cons, List.not_mem_nil, or_false] at he
  rcases he with rfl | rfl <;> exact ⟨by decide, fun i h => by cases h⟩

theorem test_witness_wait :
    (idleWith [.wait]).bus = .wait :: [] ∧ (busyWith .qblk 3 [.wait, .wait]).bus = .wait :: [.wait] := by decide

/-- A state from which the next step completes a LIMBW. -/
def limbwDue : State :=
  { State.reset with toArch := { acceptCommand .limbw (Arch.reset 0) with rate := 44100 } }

/-- The invariant holds of a state that the next step changes. -/
theorem test_witness_invariant_step :
    limbwDue.toArch.Inv ∧ ∃ t, step limbwDue = .next t ∧ t.cfgv = true ∧ t.done = true ∧ t.seq = .idle := by
  refine ⟨?_, _, rfl, by decide +kernel⟩
  constructor <;> simp [limbwDue, acceptCommand, opcodeByte, Arch.reset, Arch.busy]
  decide

theorem test_witness_reset_event :
    NextEvent (busyWith .limbw 1 [.reset none]) (.reset none) [] ∧
      NextEvent (idleWith [.reset (some (.read 0x0 .word))]) (.reset (some (.read 0x0 .word))) [] :=
  ⟨⟨Or.inr (by decide), rfl⟩, ⟨Or.inl rfl, rfl⟩⟩

theorem test_witness_reserved_offsets :
    [0x003C, 0x0050, 0x03FC, 0x0604, 0x0E00, 0x0FFC, 0x1400, 0x1FFC, 0x5000, 0xFFFC].all
      (fun o => decide (o < 0x10000 ∧ o % 4 = 0) && (locate o == .reserved)) = true ∧
      ReservedOffset 0x0604 ∧ ReservedOffset 0xFFFC := by
  refine ⟨by decide +kernel, ?_, ?_⟩ <;>
    simp [ReservedOffset, InputOffset, ReadOnlyOffset, OutputOffset]

theorem test_witness_window_ranges :
    WordOffset 0x0600 ∧ InputOffset 0x0600 ∧ WordOffset 0x3FFC ∧ InputOffset 0x3FFC ∧ InputOffset 0x4C ∧
      WordOffset 0x4FFC ∧ OutputOffset 0x4FFC ∧ OutputOffset 0x0DFC ∧ OutputOffset 0x13FC ∧ ReadOnlyOffset 0x0 := by
  simp [WordOffset, InputOffset, OutputOffset, ReadOnlyOffset]

theorem test_witness_read :
    WordOffset 0xFFFC ∧ NextEvent (idleWith [.access (.read 0xFFFC .word)]) (.access (.read 0xFFFC .word)) [] :=
  ⟨⟨by decide, by decide⟩, Or.inl rfl, rfl⟩

theorem test_witness_busy_read :
    (busyWith .qblk 1 [.access (.read 0x4000 .word)]).seq = .run .qblk ∧ WordOffset 0x4000 ∧ OutputOffset 0x4000 ∧
      NextEvent (busyWith .qblk 1 [.access (.read 0x4000 .word)]) (.access (.read 0x4000 .word)) [] ∧
      NextEvent (busyWith .qblk 1 [.access (.read 0x0C .word)]) (.access (.read 0x0C .word)) [] ∧
      WordOffset 0x3FFC ∧ ¬ OutputOffset 0x3FFC :=
  ⟨rfl, ⟨by decide, by decide⟩, by simp [OutputOffset], ⟨Or.inr (by decide), rfl⟩, ⟨Or.inr (by decide), rfl⟩,
    ⟨by decide, by decide⟩, by simp [OutputOffset]⟩

theorem test_witness_write :
    WordOffset 0x2000 ∧ InputOffset 0x2000 ∧ (idleWith [.access (.write 0x2000 .word 7)]).seq = .idle ∧
      NextEvent (idleWith [.access (.write 0x2000 .word 7)]) (.access (.write 0x2000 .word 7)) [] ∧ WordOffset 0x08 ∧
      NextEvent (busyWith .qblk 1 [.access (.write 0x08 .word 3)]) (.access (.write 0x08 .word 3)) [] :=
  ⟨⟨by decide, by decide⟩, by simp [InputOffset], rfl, ⟨Or.inl rfl, rfl⟩, ⟨by decide, by decide⟩, Or.inr (by decide), rfl⟩

theorem test_witness_sixty_four_bit_write :
    (idleWith (expandOp (.wr64 (0x2000 + 8 * 1023) 1))).seq = .idle ∧
      (idleWith (expandOp (.wr64 (0x2000 + 8 * 1023) 1))).bus = expandOp (.wr64 (0x2000 + 8 * 1023) 1) ++ [] ∧
      (idleWith (expandOp (.wr64 0x40 1))).bus = expandOp (.wr64 0x40 1) ++ [] ∧
      (idleWith (expandOp (.wr64 0x48 1))).bus = expandOp (.wr64 0x48 1) ++ [] := by decide

theorem test_witness_read_only_write :
    WordOffset 0x1C ∧ ReadOnlyOffset 0x1C ∧ ReadOnlyOffset 0x4 ∧
      NextEvent (idleWith [.access (.write 0x1C .word 5)]) (.access (.write 0x1C .word 5)) [] ∧
      NextEvent (busyWith .limbw 1 [.access (.write 0x1C .word 5)]) (.access (.write 0x1C .word 5)) [] :=
  ⟨⟨by decide, by decide⟩, by simp [ReadOnlyOffset, OutputOffset], by simp [ReadOnlyOffset], ⟨Or.inl rfl, rfl⟩,
    Or.inr (by decide), rfl⟩

theorem test_witness_reserved_access :
    WordOffset 0x50 ∧ ReservedOffset 0x50 ∧
      NextEvent (idleWith [.access (.write 0x50 .word 5)]) (.access (.write 0x50 .word 5)) [] ∧
      NextEvent (idleWith [.access (.read 0x50 .word)]) (.access (.read 0x50 .word)) [] :=
  ⟨⟨by decide, by decide⟩, by simp [ReservedOffset, InputOffset, ReadOnlyOffset, OutputOffset], ⟨Or.inl rfl, rfl⟩,
    Or.inl rfl, rfl⟩

theorem test_witness_refused_access :
    (Access.read 0xFFFF .word).off < 0x10000 ∧ (Access.read 0xFFFF .word).off % 4 ≠ 0 ∧
      NextEvent (idleWith [.access (.read 0xFFFF .word)]) (.access (.read 0xFFFF .word)) [] ∧
      (Access.write 0x0 .dword 5).width ≠ .word ∧
      NextEvent (idleWith [.access (.write 0x0 .dword 5)]) (.access (.write 0x0 .dword 5)) [] :=
  ⟨by decide, by decide, ⟨Or.inl rfl, rfl⟩, by decide, Or.inl rfl, rfl⟩

theorem test_witness_busy_input_write :
    (busyWith .limbw 1 [.access (.write 0x600 .word 5)]).seq = .run .limbw ∧ WordOffset 0x600 ∧ InputOffset 0x600 ∧
      NextEvent (busyWith .limbw 1 [.access (.write 0x600 .word 5)]) (.access (.write 0x600 .word 5)) [] :=
  ⟨rfl, ⟨by decide, by decide⟩, by simp [InputOffset], Or.inr (by decide), rfl⟩

theorem test_witness_busy_command_write :
    (busyWith .limbw 1 [.access (.write 0x10 .word 7)]).seq = .run .limbw ∧
      NextEvent (busyWith .limbw 1 [.access (.write 0x10 .word 7)]) (.access (.write 0x10 .word 7)) [] :=
  ⟨rfl, Or.inr (by decide), rfl⟩

theorem test_witness_illegal_word :
    (idleWith [.access (.write 0x10 .word 0x101)]).seq = .idle ∧ (0x101 : Word) ≠ 1 ∧ (0x101 : Word) ≠ 2 ∧
      (idleWith [.access (.write 0x10 .word 0x101)]).bus = .access (.write 0x10 .word 0x101) :: [] := by decide

theorem test_witness_status_write :
    NextEvent (idleWith [.access (.write 0x0C .word 6)]) (.access (.write 0x0C .word 6)) [] ∧
      NextEvent (busyWith .qblk 1 [.access (.write 0x0C .word 0)]) (.access (.write 0x0C .word 0)) [] :=
  ⟨⟨Or.inl rfl, rfl⟩, Or.inr (by decide), rfl⟩

/-- Steps for each clause of the error latch: an error recorded, the write that clears it, and a reset. -/
theorem test_witness_error_latch :
    (∃ t, step (idleWith [.access (.write 0x10 .word 0)]) = .next t ∧ t.err = true ∧ t.errcode = .illegalCmd) ∧
      (∃ t, step { stateOf { Arch.reset 0 with err := true, errcode := .wrBusy } with
          bus := [.access (.write 0x0C .word 4)] } = .next t ∧ t.err = false) ∧
      ∃ t, step { stateOf { Arch.reset 0 with err := true, errcode := .wrBusy } with bus := [.reset none] } = .next t ∧
        t.err = false := ⟨⟨_, rfl, rfl, rfl⟩, ⟨_, rfl, rfl⟩, ⟨_, rfl, rfl⟩⟩

/-- A step that sets `CFGV`, and one that clears it. -/
theorem test_witness_cfgv :
    (∃ t, step (stateOf { Arch.reset 0 with rate := 44100, seq := .run .limbw, lastop := 1 }) = .next t ∧
        t.cfgv = true) ∧
      ∃ t, step { stateOf blockArch with bus := [.reset none] } = .next t ∧ t.cfgv = false :=
  ⟨⟨_, rfl, by decide +kernel⟩, ⟨_, rfl, rfl⟩⟩

/-- A step that sets `SIGNAL`, and one that clears it. -/
theorem test_witness_signal :
    (∃ t, step (stateOf { Arch.reset 0 with
          cfgv := true, seq := .run .qblk, lastop := 2,
          mem := tableCells 0x400 [0, 0] ++ blockCells 0x2000 [0, 0, 0, 0, 0, 0x40, 0x8F, 0x40] }) = .next t ∧
        t.signal = true) ∧
      ∃ t, step { stateOf { blockArch with signal := true } with bus := [.reset none] } = .next t ∧ t.signal = false :=
  ⟨⟨_, rfl, by decide +kernel⟩, ⟨_, rfl, rfl⟩⟩

theorem test_witness_event_step :
    NextEvent (busyWith .qblk 1 [.access (.write 0x14 .word 5)]) (.access (.write 0x14 .word 5)) [] ∧
      (busyWith .qblk 1 [.access (.write 0x14 .word 5)]).seq = .run .qblk ∧
      (∀ i, HostEvent.access (.write 0x14 .word 5) ≠ .reset i) ∧
      ∃ t, step (busyWith .qblk 1 [.access (.write 0x14 .word 5)]) = .next t :=
  ⟨⟨Or.inr (by decide), rfl⟩, rfl, (fun i h => by cases h), ⟨_, rfl⟩⟩

theorem test_witness_limbw :
    LimbwReady { Arch.reset 0 with rate := 1, ncbShort := 128, ncbLong := 128 } ∧ LimbwReady archLB10 ∧
      (Arch.reset 0).rate = 0 ∧ archLB10.bwReq.toNat ≤ (0xFFFFFFFF : Word).toNat ∧
      (128 < ({ Arch.reset 0 with rate := 1, ncbLong := 129 } : Arch).ncbLong.toNat) ∧
      (({ Arch.reset 0 with rate := 1 } : Arch).bwReq = 0) := by
  unfold LimbwReady; decide

/-- A configured machine with `n` bands and the given bytes of the band table. -/
def tableArch (n : Half) (table : List Byte) : Arch :=
  { Arch.reset 0 with cfgv := true, nsfb := n, mem := tableCells 0x400 table }

theorem test_witness_qblk_errors :
    (Arch.reset 0).cfgv = false ∧
      (128 < ({ Arch.reset 0 with cfgv := true, nsfb := 129 } : Arch).nsfb.toNat) ∧
      sfboffAt machineParams (tableArch 0 [1, 0]) 0 ≠ 0 ∧
      sfboffAt machineParams (tableArch 2 [0, 0, 4, 0, 4, 0]) 2 ≤ sfboffAt machineParams (tableArch 2 [0, 0, 4, 0, 4, 0]) 1 ∧
      1024 < sfboffAt machineParams (tableArch 1 [0, 0, 1, 4]) 1 ∧
      [tableArch 0 [1, 0], tableArch 2 [0, 0, 4, 0, 4, 0], tableArch 1 [0, 0, 1, 4]].all
        (fun a => a.cfgv && decide (a.nsfb.toNat ≤ 128)) = true := by
  decide +kernel

/-- The table of each of the blocks used here passes the check. -/
theorem ready_of_table {a : Arch} (h : qblkCheck machineParams a = none) : QblkReady machineParams a :=
  Laws.qblkCheck_none.mp h

theorem test_witness_ready_blocks :
    QblkReady machineParams blockArch ∧ QblkReady machineParams fullBandArch ∧ QblkReady machineParams otherArch :=
  ⟨ready_of_table (by decide +kernel), ready_of_table (by decide +kernel), ready_of_table (by decide +kernel)⟩

theorem test_witness_signal_blocks :
    BlockSignal machineParams blockArch ∧ BlockSignal machineParams fullBandArch ∧ BlockSignal machineParams otherArch :=
  ⟨⟨0, by decide, by decide +kernel⟩, ⟨0, by decide, by decide +kernel⟩, ⟨0, by decide, by decide +kernel⟩⟩

theorem lookup_silent {x : Nat} (h1 : 0x2000 ≤ x) (h2 : x < 0x4000) : silentArch.mem.lookup x = some 0 := by
  have e0 : (tableCells 0x400 [0, 0]).lookup x = none := by
    simp [tableCells]
    omega
  show (tableCells 0x400 [0, 0] ++ blockCells 0x2000 (List.replicate 8192 0)).lookup x = some 0
  rw [Laws.lookup_append, e0, lookup_blockCells, if_pos h1, List.getElem?_eq_getElem (by rw [List.length_replicate]; omega),
    List.getElem_replicate]
  rfl

theorem test_witness_silent_block :
    QblkReady machineParams silentArch ∧
      ∀ i, i < 1024 → lt64 (abs64 (xrAt machineParams silentArch i)) 0x3BC79CA10C924223 = true := by
  refine ⟨ready_of_table (by decide +kernel), fun i hi => ?_⟩
  have hb : ∀ j, j < 8 → byteAt machineParams silentArch (0x2000 + 8 * i + j) = 0 := fun j hj => by
    unfold byteAt
    rw [lookup_silent (by omega) (by omega)]
    rfl
  have e : xrAt machineParams silentArch i = 0 := by
    show dwordAt machineParams silentArch (0x2000 + 8 * i) = 0
    have hm : (List.range 8).map (fun j => byteAt machineParams silentArch (0x2000 + 8 * i + j)) = List.replicate 8 0 :=
      List.eq_replicate_iff.mpr ⟨by simp, fun b hb' => by
        obtain ⟨j, hj, rfl⟩ := List.mem_map.mp hb'
        exact hb j (List.mem_range.mp hj)⟩
    unfold dwordAt natAt
    rw [hm]
    decide
  rw [e]
  decide

/-- The two bands of the independence statement: band 0 of a block of one band and of a block of two. -/
theorem test_witness_independent_bands :
    0 < fullBandArch.nsfb.toNat ∧ 0 < otherArch.nsfb.toNat ∧ fullBandArch.blktype = otherArch.blktype ∧
      fullBandArch.refenrg = otherArch.refenrg ∧ fullBandArch.quality = otherArch.quality ∧
      sfboffAt machineParams fullBandArch 0 = sfboffAt machineParams otherArch 0 ∧
      sfboffAt machineParams fullBandArch 1 = sfboffAt machineParams otherArch 1 ∧
      ∀ i, sfboffAt machineParams fullBandArch 0 ≤ i → i < sfboffAt machineParams fullBandArch 1 →
        xrAt machineParams fullBandArch i = xrAt machineParams otherArch i := by
  refine ⟨by decide, by decide, by decide, by decide, by decide, by decide +kernel, by decide +kernel,
    fun i _ hi => ?_⟩
  have h4 : sfboffAt machineParams fullBandArch 1 = 4 := by decide +kernel
  rw [h4] at hi
  have key : ∀ k : Fin 4, xrAt machineParams fullBandArch k.val = xrAt machineParams otherArch k.val := by
    decide +kernel
  exact key ⟨i, hi⟩

/-- A band of each kind: a band of zeros is silent by its peak, a band whose quality is 0 by its target, and a band with
a peak of 10.0 or more and a target that is not zero is companded. -/
theorem test_witness_band_paths :
    lt64 (sqrt64 (bandEnergy [0, 0, 0, 0]).2) 0x4024000000000000 = true ∧
      lt64 (sqrt64 (bandEnergy [0x4024000000000000]).2) 0x4024000000000000 = false ∧
      lt64 (sqrt64 (bandEnergy [0x4023FFFFFFFFFFFF]).2) 0x4024000000000000 = true ∧ isZero 0x8000000000000000 = true := by
  decide +kernel

/-- A band of four zeros, in a block with a line of 1000.0 outside it. -/
def quietBandArch : Arch :=
  { blockArch with
    mem := tableCells 0x400 [0, 0, 4, 0] ++
      blockCells 0x2000 (List.replicate 32 0 ++ [0, 0, 0, 0, 0, 0x40, 0x8F, 0x40]) }

/-- A band with a peak of 1000.0 whose target is zero: the reference energy is +Inf and the quality 0. -/
def zeroTargetArch : Arch := { fullBandArch with refenrg := 0x7FF0000000000000 }

/-- A band with a peak of 1000.0 whose target is a NaN, so not zero: the quality is a NaN. -/
def loudBandArch : Arch := { fullBandArch with quality := 0x7FF8000000000000 }

theorem zeroTarget_isZero : isZero (bandTarget machineParams zeroTargetArch 0) = true := by
  obtain ⟨h1, h2, h3⟩ := Laws.defaultQuality_positive machineParams
  obtain ⟨h4, h5⟩ := Laws.finite_not_nan h1
  have hq : qualityRatio machineParams zeroTargetArch = 0 := by
    show div64 0 (defaultQuality machineParams) = 0
    have e : roundMag (unitsOf 0 * unitsPerOne) (unitsOf (defaultQuality machineParams)) = 0 := by
      rw [Laws.unitsOf_of_zero (by decide), Nat.zero_mul]
      simp [roundMag, roundNearestEven]
    unfold div64 round64
    rw [e, h2, h3, h4, h5]
    rfl
  unfold bandTarget
  dsimp only
  rw [hq]
  decide +kernel

theorem loudTarget_not_zero : isZero (bandTarget machineParams loudBandArch 0) = false := by
  have hq : isNaN (qualityRatio machineParams loudBandArch) = true := by
    show isNaN (div64 0x7FF8000000000000 _) = true
    unfold div64
    rw [show isNaN (0x7FF8000000000000 : F64) = true by decide, Bool.true_or]
    decide
  have hm : ∀ x y : F64, isNaN y = true → isNaN (mul64 x y) = true := fun x y h => by
    unfold mul64
    rw [h, Bool.or_true, if_pos rfl]
    decide
  unfold bandTarget storedTarget
  dsimp only
  rw [if_pos (by unfold maskTarget; exact hm _ _ hq)]
  exact Laws.nan_not_zero (Laws.isNaN_nanPattern _)

/-- Blocks with a band on each path: silent by its peak, silent by its target, and companded. -/
theorem test_witness_band_states :
    (QblkReady machineParams quietBandArch ∧ BlockSignal machineParams quietBandArch ∧ 0 < quietBandArch.nsfb.toNat ∧
      lt64 (sqrt64 (bandEnergy (linesOf machineParams quietBandArch (sfboffAt machineParams quietBandArch 0)
        (sfboffAt machineParams quietBandArch 1))).2) 0x4024000000000000 = true) ∧
    (QblkReady machineParams zeroTargetArch ∧ BlockSignal machineParams zeroTargetArch ∧
      ∃ t, exec .qblk (stateOf zeroTargetArch) = .next t ∧ isZero (bandqAt machineParams t.toArch 0) = true) ∧
    (QblkReady machineParams loudBandArch ∧ BlockSignal machineParams loudBandArch ∧
      lt64 (sqrt64 (bandEnergy (linesOf machineParams loudBandArch (sfboffAt machineParams loudBandArch 0)
        (sfboffAt machineParams loudBandArch 1))).2) 0x4024000000000000 = false ∧
      ∃ t, exec .qblk (stateOf loudBandArch) = .next t ∧ isZero (bandqAt machineParams t.toArch 0) = false) := by
  have r2 : QblkReady machineParams zeroTargetArch := ready_of_table (by decide +kernel)
  have r3 : QblkReady machineParams loudBandArch := ready_of_table (by decide +kernel)
  have s2 : BlockSignal machineParams zeroTargetArch := ⟨0, by decide, by decide +kernel⟩
  have s3 : BlockSignal machineParams loudBandArch := ⟨0, by decide, by decide +kernel⟩
  obtain ⟨t2, e2, b2⟩ := Laws.exec_qblk_bands (s := stateOf zeroTargetArch) r2 s2
  obtain ⟨t3, e3, b3⟩ := Laws.exec_qblk_bands (s := stateOf loudBandArch) r3 s3
  refine ⟨⟨ready_of_table (by decide +kernel), ⟨4, by decide, by decide +kernel⟩, by decide, by decide +kernel⟩,
    ⟨r2, s2, t2, e2, ?_⟩, r3, s3, by decide +kernel, t3, e3, ?_⟩
  · rw [(b2 0 (by decide)).1]
    exact zeroTarget_isZero
  · rw [(b3 0 (by decide)).1]
    exact loudTarget_not_zero

theorem test_witness_nan_energy : isNaN 0x7FF8000000000000 = true := by decide

theorem test_witness_corner_targets :
    isFinite 0x3FF0000000000000 = true ∧ isZero 0x3FF0000000000000 = false ∧ signOf 0x3FF0000000000000 = false ∧
      isNaN 0x7FF8000000000000 = true ∧ isNaN 0xBFF0000000000000 = false ∧ signOf 0xBFF0000000000000 = true ∧
      isZero (div64 0xBFF0000000000000 0x3FF0000000000000) = false ∧
      isZero (div64 0x0000000000000001 0x4024000000000000) = true ∧
      (isFinite (div64 0x4059000000000000 0x3FF0000000000000) = true ∧
        isZero (div64 0x4059000000000000 0x3FF0000000000000) = false ∧ signOf 0x4059000000000000 = false) := by
  decide +kernel

theorem test_witness_zero_band :
    (0 : Nat) < 1024 ∧ (1024 : Nat) ≤ 1024 ∧ (List.replicate 1024 (0x8000000000000000 : F64)).length = 1024 - 0 ∧
      (∀ x ∈ List.replicate 1024 (0x8000000000000000 : F64), isZero x = true) ∧ isFinite 0x40C3880000000000 = true ∧
      isZero 0x40C3880000000000 = false ∧ signOf 0x40C3880000000000 = false ∧ isFinite 0x3FF0000000000000 = true := by
  refine ⟨by omega, by omega, by rw [List.length_replicate], fun x hx => ?_, by decide, by decide, by decide, by decide⟩
  rw [List.eq_of_mem_replicate hx]
  decide

theorem test_witness_rounding :
    (0 : Nat) < 2 ∧ roundMag 3 2 < infMag ∧ (2 : Nat) < infMag ∧ roundMag 3 2 = 2 ∧ roundMag 1 2 = 0 ∧
      (isFinite 0x3FF0000000000000 = true ∧ isFinite 0xBFF0000000000000 = true ∧ isZero 0xBFF0000000000000 = false ∧
        isZero 0x8000000000000000 = true ∧ isNaN 0x7FF8000000000000 = true ∧ isInf 0x7FF0000000000000 = true ∧
        isInf 0xFFF0000000000000 = true ∧ signOf 0xFFF0000000000000 ≠ signOf 0x7FF0000000000000) := by
  decide +kernel

theorem test_witness_square_root :
    (isFinite 0x0000000000000001 = true ∧ isZero 0x0000000000000001 = false ∧ signOf 0x0000000000000001 = false) ∧
      isFinite 0x7FEFFFFFFFFFFFFF = true ∧ isZero 0x7FEFFFFFFFFFFFFF = false ∧ signOf 0x7FEFFFFFFFFFFFFF = false ∧
      isZero 0x8000000000000000 = true ∧ signOf 0xFFF0000000000000 = true ∧ isZero 0xFFF0000000000000 = false := by
  decide

theorem test_witness_comparisons :
    isNaN 0x7FF0000000000001 = true ∧ isFinite 0x8000000000000000 = true ∧ isFinite 0x7FEFFFFFFFFFFFFF = true ∧
      isNaN 0x7FF0000000000000 = false ∧ isNaN 0xFFF0000000000000 = false := by decide

theorem test_witness_integers : (9007199254740991 : Int).natAbs < 2 ^ 53 ∧ (-9007199254740991 : Int).natAbs < 2 ^ 53 := by
  decide +kernel

theorem test_witness_conversions :
    isFinite 0x41DFFFFFFFFFFFFF = true ∧ isNaN 0x41E0000000000000 = false ∧
      lt64 0x41E0000000000000 0x41E0000000000000 = false ∧ gt64 0xC1E0000000200000 0xC1E0000000200000 = false ∧
      (lt64 0x41DFFFFFFFFFFFFF 0x41E0000000000000 = true ∧ gt64 0x41DFFFFFFFFFFFFF 0xC1E0000000200000 = true) ∧
      lt64 0xC1E00000001FFFFF 0x41E0000000000000 = true ∧ gt64 0xC1E00000001FFFFF 0xC1E0000000200000 = true := by
  decide +kernel

theorem test_witness_special_cases :
    isNaN 0xFFF8000000000000 = true ∧ isZero 0x8000000000000000 = true ∧
      (isNaN 0xFFF0000000000000 = false ∧ isZero 0xFFF0000000000000 = false ∧ signOf 0xFFF0000000000000 = true) ∧
      isNaN (exp64 machineParams 0x8000000000000000) = false ∧
      (isFinite 0x3FF0000000000001 = true ∧ isZero 0x3FF0000000000001 = false ∧ signOf 0x3FF0000000000001 = false ∧
        (0x3FF0000000000001 : F64) ≠ 0x3FF0000000000000) ∧
      gt64 0x40862E42FEFA39F0 0x40862E42FEFA39EF = true ∧ lt64 0xC087500000000001 0xC087500000000000 = true ∧
      gt64 0x40862E42FEFA39EF 0x40862E42FEFA39EF = false ∧ lt64 0xC087500000000000 0xC087500000000000 = false := by
  decide +kernel

/-! ### The longest evaluations -/

/-- Vector Q1, band 1, with the spec's default parameter functions: its target, its scale factor and its lines. -/
theorem test_q1_band :
    let P := specDefault (fun _ => 0) (fun _ => 0) (fun _ _ => 0) (fun _ => 0) 0
    let lines : List F64 := [0x4059000000000000, 0xC069000000000000, 0x4072C00000000000, 0xC079000000000000]
    let t := maskTarget P false 0x40C3880000000000 (div64 0x4059000000000000 P.defqual) 4 8 lines
    t = 0x401B61F52A49CCF0 ∧ quantizeBand P t lines = (0xFFFFFFEB, [1, 1, 2, 2]) := by decide +kernel

/-- A table of the greatest number of bands passes the check. -/
theorem test_witness_full_table : QblkReady machineParams fullTableArch := ready_of_table (by decide +kernel)

end Sys2Proof.Tests
end

section
/-!
The rounding of 00_scope.md R10 by the midpoints between neighbouring patterns, and the obligations on the numeric
primitives of R10 to R18.
-/

namespace Sys2Proof.Arithmetic

open Machine Laws
open Config (Params)

/-! ### Midpoints

A rounded result is the nearest one because the exact value lies between the midpoints to its two neighbours. Nearness,
overflow, exact conversion and the square root all follow from the place of the exact value among the midpoints. -/

/-- Twice the midpoint between the magnitude pattern `m` and the next one, in units. -/
def midpointSum (m : Nat) : Nat := unitsOfMag m + unitsOfMag (m + 1)

theorem unitsOfMag_le {m n : Nat} (h : m ≤ n) (hn : n ≤ infMag) : unitsOfMag m ≤ unitsOfMag n := by
  rcases Nat.eq_or_lt_of_le h with rfl | hlt
  · exact le_rfl
  · exact (unitsOfMag_lt hlt hn).le

theorem midpointSum_lt {m n : Nat} (h : m < n) (hn : n < infMag) : midpointSum m < midpointSum n :=
  Nat.add_lt_add (unitsOfMag_lt h hn.le) (unitsOfMag_lt (Nat.succ_lt_succ h) hn)

theorem midpointSum_le {m n : Nat} (h : m ≤ n) (hn : n < infMag) : midpointSum m ≤ midpointSum n :=
  Nat.add_le_add (unitsOfMag_le h hn.le) (unitsOfMag_le (Nat.succ_le_succ h) hn)

/-- Inside a binade of scale `2 ^ k` the midpoints are the odd multiples of half the scale. -/
theorem midpointSum_binade {k q : Nat} (hk : k < 2046) (hq : q < 2 ^ 53) (h : k = 0 ∨ 2 ^ 52 ≤ q) :
    midpointSum (k * 2 ^ 52 + q) = (2 * q + 1) * 2 ^ k := by
  rw [midpointSum, unitsOfMag_binade hk hq.le h, Nat.add_assoc,
    unitsOfMag_binade (q := q + 1) hk hq (by omega)]
  ring

theorem midpointSum_binade_top {j : Nat} (hj : j + 1 < 2046) :
    midpointSum ((j + 1) * 2 ^ 52 + (2 ^ 53 - 1)) = 2 * ((2 ^ 54 - 1) * 2 ^ j) := by
  rw [midpointSum_binade hj (by decide) (Or.inr (by decide)), pow_succ 2 j]
  ring

/-- A binade's last midpoint is below the start of every later binade. -/
theorem midpointSum_binade_top_le {j k : Nat} (hj : j + 1 < 2046) (hk : j + 2 ≤ k) :
    midpointSum ((j + 1) * 2 ^ 52 + (2 ^ 53 - 1)) ≤ 2 * (2 ^ 52 * 2 ^ k) :=
  calc midpointSum ((j + 1) * 2 ^ 52 + (2 ^ 53 - 1)) = 2 * ((2 ^ 54 - 1) * 2 ^ j) := midpointSum_binade_top hj
    _ ≤ 2 * (2 ^ 54 * 2 ^ j) := by gcongr; decide
    _ = 2 * (2 ^ 52 * 2 ^ (j + 2)) := by ring
    _ ≤ 2 * (2 ^ 52 * 2 ^ k) := by gcongr; decide

/-- The midpoint between the largest finite value and 2^1024. -/
theorem midpointSum_maxFinite : midpointSum (infMag - 1) = 2 * ((2 ^ 54 - 1) * 2 ^ 2044) :=
  midpointSum_binade_top (j := 2044) (by decide)

/-- The exact value is at or below the midpoint above its rounding, and at it only if the rounding is even. -/
theorem le_midpointSum_roundMag {n d : Nat} (hd : 0 < d) (h : roundMag n d < infMag) :
    2 * n ≤ midpointSum (roundMag n d) * d ∧
      (2 * n = midpointSum (roundMag n d) * d → roundMag n d % 2 = 0) := by
  obtain ⟨k, q, hr, hq, hq53, hk, hn⟩ := roundMag_shape n d hd
  have hi : infMag = 2047 * 2 ^ 52 := by decide
  have hr' : roundMag n d = k * 2 ^ 52 + q := by omega
  have hk2046 : k < 2046 := by omega
  rcases Nat.lt_or_eq_of_le hq53 with hlt | heq
  · have spec := (roundNearestEven_spec n (d * 2 ^ k) (by positivity)).1
    rw [← hq] at spec
    rw [hr', midpointSum_binade hk2046 hlt (by omega), Nat.mul_assoc, Nat.mul_comm (2 ^ k) d]
    omega
  · have hu := unitsOfMag_binade hk2046 hq53 (by omega)
    have hlt : 2 * n < midpointSum (roundMag n d) * d := by
      have hsucc := unitsOfMag_lt_succ h
      rw [hr'] at hsucc ⊢
      calc 2 * n < 2 * (2 ^ 53 * (d * 2 ^ k)) := by omega
        _ = 2 * unitsOfMag (k * 2 ^ 52 + q) * d := by rw [hu, heq]; ring
        _ ≤ midpointSum (k * 2 ^ 52 + q) * d := Nat.mul_le_mul_right d (by unfold midpointSum; omega)
    exact ⟨hlt.le, fun e => absurd e hlt.ne⟩

/-- The exact value is at or above the midpoint below its rounding, an overflow included, and at it only if the rounding
is even. -/
theorem midpointSum_pred_roundMag_le {n d m : Nat} (hd : 0 < d) (h : roundMag n d = m + 1) :
    midpointSum m * d ≤ 2 * n ∧ (midpointSum m * d = 2 * n → (m + 1) % 2 = 0) := by
  obtain ⟨k, q, hr, hq, hq53, hk, -⟩ := roundMag_shape n d hd
  have hi : infMag = 2047 * 2 ^ 52 := by decide
  rcases Nat.lt_or_ge k 2046 with hk2046 | hk2046
  · have hm : m + 1 = k * 2 ^ 52 + q := by omega
    by_cases hedge : k = 0 ∨ 2 ^ 52 < q
    · have spec := (roundNearestEven_spec n (d * 2 ^ k) (by positivity)).2
      rw [← hq] at spec
      obtain ⟨p, rfl⟩ : ∃ p, q = p + 1 := ⟨q - 1, by omega⟩
      have hmp : m = k * 2 ^ 52 + p := by omega
      have e : midpointSum m * d + d * 2 ^ k = 2 * (p + 1) * (d * 2 ^ k) := by
        rw [hmp, midpointSum_binade hk2046 (by omega) (by omega)]
        ring
      omega
    · have hu := unitsOfMag_binade hk2046 hq53 (by omega)
      have hlt : midpointSum m * d < 2 * n :=
        calc midpointSum m * d < 2 * unitsOfMag (m + 1) * d := by
              have := unitsOfMag_lt_succ (m := m) (by omega)
              exact Nat.mul_lt_mul_of_pos_right (by unfold midpointSum; omega) hd
          _ = 2 * (q * (d * 2 ^ k)) := by rw [hm, hu]; ring
          _ ≤ 2 * n := by rw [show q = 2 ^ 52 by omega]; omega
      exact ⟨hlt.le, fun e => absurd e hlt.ne⟩
  · have hm : m = infMag - 1 := by omega
    refine ⟨?_, fun _ => by omega⟩
    calc midpointSum m * d ≤ 2 * (2 ^ 52 * 2 ^ k) * d :=
          Nat.mul_le_mul_right d (hm ▸ midpointSum_binade_top_le (j := 2044) (by decide) hk2046)
      _ = 2 * (2 ^ 52 * (d * 2 ^ k)) := by ring
      _ ≤ 2 * n := by omega

/-- A value that rounds above `m` is at or above the midpoint above `m`. -/
theorem midpointSum_le_of_lt_roundMag {n d m : Nat} (hd : 0 < d) (h : m < roundMag n d) :
    midpointSum m * d ≤ 2 * n := by
  have hle := roundMag_le n d
  obtain ⟨r, hr⟩ : ∃ r, roundMag n d = r + 1 := ⟨roundMag n d - 1, by omega⟩
  calc midpointSum m * d ≤ midpointSum r * d := Nat.mul_le_mul_right d (midpointSum_le (by omega) (by omega))
    _ ≤ 2 * n := (midpointSum_pred_roundMag_le hd hr).1

/-- A value that rounds to `m` or below is at or below the midpoint above `m`. -/
theorem le_midpointSum_of_roundMag_le {n d m : Nat} (hd : 0 < d) (h : roundMag n d ≤ m) (hm : m < infMag) :
    2 * n ≤ midpointSum m * d :=
  calc 2 * n ≤ midpointSum (roundMag n d) * d := (le_midpointSum_roundMag hd (by omega)).1
    _ ≤ midpointSum m * d := Nat.mul_le_mul_right d (midpointSum_le h hm)

/-- A value that a finite pattern has rounds to that pattern. -/
theorem roundMag_of_exact {n d m : Nat} (hd : 0 < d) (hm : m < infMag) (h : n = unitsOfMag m * d) :
    roundMag n d = m := by
  rcases Nat.lt_trichotomy (roundMag n d) m with hlt | heq | hgt
  · have hle := le_midpointSum_of_roundMag_le (n := n) (m := m - 1) hd (by omega) (by omega)
    have hstep := unitsOfMag_lt (m := m - 1) (n := m) (by omega) hm.le
    have : midpointSum (m - 1) * d < 2 * unitsOfMag m * d :=
      Nat.mul_lt_mul_of_pos_right (by unfold midpointSum; rw [show m - 1 + 1 = m by omega]; omega) hd
    rw [Nat.mul_assoc] at this
    omega
  · exact heq
  · have hle := midpointSum_le_of_lt_roundMag hd hgt
    have hstep := unitsOfMag_lt_succ hm
    have : 2 * unitsOfMag m * d < midpointSum m * d :=
      Nat.mul_lt_mul_of_pos_right (by unfold midpointSum; omega) hd
    rw [Nat.mul_assoc] at this
    omega

/-! ### Rounding overflows from the midpoint -/

/-- Settles O54: the midpoint below infinity is the one above the largest finite value, whose pattern is odd. -/
theorem roundingOverflowsFromTheMidpoint : Obligations.RoundingOverflowsFromTheMidpoint := by
  unfold Obligations.RoundingOverflowsFromTheMidpoint
  intro n d hd
  have hmid : midpointSum (infMag - 1) * d = 2 * ((2 ^ 54 - 1) * 2 ^ 2044 * d) := by
    rw [midpointSum_maxFinite, Nat.mul_assoc]
  constructor
  · intro h
    have hle := midpointSum_le_of_lt_roundMag (m := infMag - 1) hd (by rw [h]; decide)
    rw [hmid] at hle
    exact Nat.le_of_mul_le_mul_left hle (by decide)
  · intro h
    by_contra hne
    have hlt : roundMag n d < infMag := lt_of_le_of_ne (roundMag_le n d) hne
    obtain ⟨habove, htie⟩ := le_midpointSum_roundMag hd hlt
    have h2 : midpointSum (infMag - 1) * d ≤ 2 * n := by rw [hmid]; exact Nat.mul_le_mul_left 2 h
    rcases Nat.lt_or_eq_of_le (Nat.le_sub_one_of_lt hlt) with hr | hr
    · have := Nat.mul_lt_mul_of_pos_right (midpointSum_lt hr (by decide)) hd
      omega
    · rw [hr] at habove htie
      exact absurd (htie (le_antisymm habove h2)) (by decide)

/-! ### Rounding is to nearest even -/

theorem distanceFrom_eq (n d m : Nat) :
    distanceFrom n d m = (((unitsOfMag m * d : Nat) : Int) - (n : Int)).natAbs := by
  simp [distanceFrom]

/-- No finite pattern is nearer to the exact value than its rounding, and another one as near leaves it even. -/
theorem roundMag_nearest {n d m : Nat} (hd : 0 < d) (hr : roundMag n d < infMag) (hm : m < infMag) :
    distanceFrom n d (roundMag n d) < distanceFrom n d m ∨
      (distanceFrom n d (roundMag n d) = distanceFrom n d m ∧ (m = roundMag n d ∨ roundMag n d % 2 = 0)) := by
  simp only [distanceFrom_eq]
  rcases Nat.lt_trichotomy m (roundMag n d) with hlt | rfl | hgt
  · obtain ⟨r, hr1⟩ : ∃ r, roundMag n d = r + 1 := ⟨roundMag n d - 1, by omega⟩
    obtain ⟨hmid, htie⟩ := midpointSum_pred_roundMag_le hd hr1
    rw [midpointSum, Nat.add_mul] at hmid htie
    rw [hr1] at hlt hr ⊢
    have h1 := Nat.mul_lt_mul_of_pos_right (unitsOfMag_lt hlt hr.le) hd
    have h2 := Nat.mul_le_mul_right d (unitsOfMag_le (Nat.le_of_lt_succ hlt) (by omega))
    omega
  · exact Or.inr ⟨rfl, Or.inl rfl⟩
  · obtain ⟨hmid, htie⟩ := le_midpointSum_roundMag hd hr
    rw [midpointSum, Nat.add_mul] at hmid htie
    have h1 := Nat.mul_lt_mul_of_pos_right (unitsOfMag_lt hgt hm.le) hd
    have h2 := Nat.mul_le_mul_right d (unitsOfMag_le (Nat.succ_le_of_lt hgt) hm.le)
    simp only [Nat.succ_eq_add_one] at h2
    omega

/-! ### The kinds of patterns -/

theorem isZero_iff {x : F64} : isZero x = true ↔ magOf x = 0 := decide_eq_true_iff

theorem isInf_iff {x : F64} : isInf x = true ↔ magOf x = infMag := decide_eq_true_iff

theorem isFinite_iff {x : F64} : isFinite x = true ↔ magOf x < infMag := decide_eq_true_iff

theorem inf_not_nan {x : F64} (h : isInf x = true) : isNaN x = false :=
  isNaN_false_of_mag (isInf_iff.mp h).le

theorem inf_not_zero {x : F64} (h : isInf x = true) : isZero x = false := by
  rw [isInf_iff] at h
  rw [isZero, h]
  decide

@[simp] theorem isInf_ofMag_infMag (b : Bool) : isInf (ofMag b infMag) = true := isInf_iff.mpr (magOf_inf b)

@[simp] theorem isZero_ofMag_zero (b : Bool) : isZero (ofMag b 0) = true := isZero_iff.mpr (magOf_zero b)

/-- Infinities of the same sign are the same pattern. -/
theorem inf_unique {x y : F64} (hx : isInf x = true) (hy : isInf y = true) (hs : signOf x = signOf y) : x = y :=
  pattern_ext hs ((isInf_iff.mp hx).trans (isInf_iff.mp hy).symm)

/-! ### The operations on finite values -/

theorem add64_finite {x y : F64} (hx : isFinite x = true) (hy : isFinite y = true) :
    add64 x y = if valueOf x + valueOf y = 0 then ofMag (signOf x && signOf y) 0
      else round64 (decide (valueOf x + valueOf y < 0)) (valueOf x + valueOf y).natAbs 1 := by
  simp [add64, finite_not_nan hx, finite_not_nan hy]

theorem mul64_finite {x y : F64} (hx : isFinite x = true) (hy : isFinite y = true) :
    mul64 x y = round64 (signOf x ^^ signOf y) (unitsOf x * unitsOf y) unitsPerOne := by
  simp [mul64, finite_not_nan hx, finite_not_nan hy]

theorem div64_finite {x y : F64} (hx : isFinite x = true) (hy : isFinite y = true) (hz : isZero y = false) :
    div64 x y = round64 (signOf x ^^ signOf y) (unitsOf x * unitsPerOne) (unitsOf y) := by
  simp [div64, finite_not_nan hx, finite_not_nan hy, hz]

theorem div64_by_zero {x y : F64} (hx : isFinite x = true) (hy : isZero y = true) :
    div64 x y = if isZero x then quietNaN else ofMag (signOf x ^^ signOf y) infMag := by
  simp [div64, finite_not_nan hx, zero_not_nan hy, hy]

/-! ### The operations on NaNs and infinities -/

theorem add64_nan {x y : F64} (h : isNaN x = true ∨ isNaN y = true) : add64 x y = quietNaN := by
  simp [add64, h]

theorem mul64_nan {x y : F64} (h : isNaN x = true ∨ isNaN y = true) : mul64 x y = quietNaN := by
  simp [mul64, h]

theorem div64_nan {x y : F64} (h : isNaN x = true ∨ isNaN y = true) : div64 x y = quietNaN := by
  simp [div64, h]

section Infinite

variable {x y : F64} (hx : isInf x = true)

include hx

theorem add64_inf_left (hy : isNaN y = false) :
    add64 x y = if isInf y && (signOf x ^^ signOf y) then quietNaN else x := by
  simp [add64, inf_not_nan hx, hx, hy]

theorem add64_inf_right (hy : isFinite y = true) : add64 y x = x := by
  simp [add64, inf_not_nan hx, hx, finite_not_nan hy]

theorem mul64_inf_left (hy : isNaN y = false) :
    mul64 x y = if isZero y then quietNaN else ofMag (signOf x ^^ signOf y) infMag := by
  simp [mul64, inf_not_nan hx, inf_not_zero hx, hx, hy]

theorem mul64_inf_right (hy : isNaN y = false) :
    mul64 y x = if isZero y then quietNaN else ofMag (signOf x ^^ signOf y) infMag := by
  simp [mul64, inf_not_nan hx, inf_not_zero hx, hx, hy, Bool.xor_comm]

theorem div64_inf_inf (hy : isInf y = true) : div64 x y = quietNaN := by
  simp [div64, inf_not_nan hx, inf_not_nan hy, hx, hy]

theorem div64_inf_left (hy : isFinite y = true) : div64 x y = ofMag (signOf x ^^ signOf y) infMag := by
  simp [div64, inf_not_nan hx, hx, finite_not_nan hy]

theorem div64_inf_right (hy : isFinite y = true) : div64 y x = ofMag (signOf x ^^ signOf y) 0 := by
  simp [div64, inf_not_nan hx, hx, finite_not_nan hy, Bool.xor_comm]

/-- An infinity absorbs a finite addend and one of its own sign. -/
theorem add64_inf_absorbs (hn : isNaN y = false) (h : isFinite y = true ∨ signOf y = signOf x) :
    add64 x y = x ∧ add64 y x = x := by
  rcases not_nan_cases y hn with hy | hy
  · have hs : signOf y = signOf x := by
      rcases h with hf | hs
      · rw [(finite_not_nan hf).2] at hy; cases hy
      · exact hs
    obtain rfl := inf_unique hy hx hs
    simp [add64_inf_left hx hn]
  · exact ⟨by simp [add64_inf_left hx hn, finite_not_nan hy], add64_inf_right hx hy⟩

end Infinite

/-- Settles O53: nearness by the two midpoints around the rounding, and each operation by its equation on each kind of
operands. -/
theorem roundingIsToNearestEven : Obligations.RoundingIsToNearestEven := by
  unfold Obligations.RoundingIsToNearestEven
  refine ⟨fun n d hd hr m hm => roundMag_nearest hd hr hm, fun x y hx hy => ⟨?_, ?_, ?_, ?_, ?_, ?_, ?_⟩,
    fun x y h => ⟨?_, ?_, ?_⟩, fun x y hx hn => ⟨add64_inf_absorbs hx hn, ?_, ?_, ?_, ?_, ?_⟩, fun x => ?_⟩
  · intro hv
    simp [add64_finite hx hy, hv, magOf_round64]
  · intro hv
    simp [add64_finite hx hy, hv]
  · simp [mul64_finite hx hy]
  · rw [mul64_finite hx hy, magOf_round64, unitsPerOne]
  · intro hz
    rw [div64_finite hx hy hz, magOf_round64, unitsPerOne]
    exact ⟨signOf_round64 _ _ _, rfl⟩
  · intro hz hxz
    simp [div64_by_zero hx hz, hxz, magOf_inf]
  · intro hz hxz
    simp [div64_by_zero hx hz, hxz]
  · simp [add64_nan h]
  · simp [mul64_nan h]
  · simp [div64_nan h]
  · intro hy hs
    simp [add64_inf_left hx hn, hy, hs.symm]
  · intro hz
    simp [mul64_inf_left hx hn, mul64_inf_right hx hn, hz]
  · intro hz
    simp [mul64_inf_left hx hn, mul64_inf_right hx hn, hz]
  · intro hy
    simp [div64_inf_inf hx hy]
  · intro hy
    simp [div64_inf_left hx hy, div64_inf_right hx hy]
  · exact ⟨magOf_ofMag (magOf_lt x), signOf_ofMag _ _⟩

/-! ### Integers convert exactly -/

/-- Every natural number below 2^53 is the value of a finite pattern. -/
theorem exists_unitsOfMag_eq_nat {n : Nat} (h : n < 2 ^ 53) :
    ∃ m, m < infMag ∧ unitsOfMag m = n * unitsPerOne := by
  rcases Nat.eq_zero_or_pos n with rfl | hpos
  · exact ⟨0, by decide, by rw [unitsOfMag_zero, Nat.zero_mul]⟩
  · have hlow := Nat.log2_self_le hpos.ne'
    have hhigh := Nat.lt_log2_self (n := n)
    have he : Nat.log2 n ≤ 52 := by
      have := (Nat.log2_lt hpos.ne').mpr h
      omega
    obtain ⟨c, hc⟩ := Nat.exists_eq_add_of_le he
    have hi : infMag = 2047 * 2 ^ 52 := by decide
    have hq1 : 2 ^ 52 ≤ n * 2 ^ c := by
      rw [hc, Nat.pow_add]
      exact Nat.mul_le_mul_right _ hlow
    have hq2 : n * 2 ^ c < 2 ^ 53 := by
      calc n * 2 ^ c < 2 ^ (Nat.log2 n + 1) * 2 ^ c := Nat.mul_lt_mul_of_pos_right hhigh (Nat.two_pow_pos c)
        _ = 2 ^ 53 := by rw [← Nat.pow_add]; congr 1; omega
    refine ⟨(1074 - c) * 2 ^ 52 + n * 2 ^ c, by omega, ?_⟩
    rw [unitsOfMag_binade (by omega) hq2.le (Or.inr hq1), Nat.mul_assoc, ← Nat.pow_add, unitsPerOne]
    congr 2
    omega

theorem unitsPerOne_cast : (unitsPerOne : Int) = 2 ^ 1074 := by
  rw [unitsPerOne, Nat.cast_pow, Nat.cast_ofNat]

theorem valueOf_round64_exact {b : Bool} {n m : Nat} (hm : m < infMag) (h : n = unitsOfMag m) :
    isFinite (round64 b n 1) = true ∧ valueOf (round64 b n 1) = if b then -(n : Int) else n := by
  have hmag : magOf (round64 b n 1) = m := by
    rw [magOf_round64, roundMag_of_exact Nat.one_pos hm (by rw [h, Nat.mul_one])]
  exact ⟨isFinite_iff.mpr (hmag ▸ hm), by rw [valueOf, signOf_round64, unitsOf_eq_mag, hmag, h]⟩

/-- Settles O57: a value that a pattern has is not changed by rounding. -/
theorem integersConvertExactly : Obligations.IntegersConvertExactly := by
  unfold Obligations.IntegersConvertExactly
  intro n hn
  obtain ⟨m, hm, hu⟩ := exists_unitsOfMag_eq_nat hn
  obtain ⟨hfin, hval⟩ := valueOf_round64_exact (b := decide (n < 0)) hm hu.symm
  refine ⟨hfin, ?_⟩
  rw [i2f, hval, Nat.cast_mul, Int.natCast_natAbs, unitsPerOne_cast]
  rcases lt_or_ge n 0 with hneg | hpos
  · rw [decide_eq_true hneg, if_pos rfl, abs_of_neg hneg, Int.neg_mul, Int.neg_neg]
  · rw [decide_eq_false hpos.not_gt, if_neg Bool.false_ne_true, abs_of_nonneg hpos]

/-! ### Square root -/

/-- `isqrt` with enough fuel is the integer square root. -/
theorem isqrt_spec (fuel n : Nat) (h : n < 4 ^ fuel) :
    isqrt fuel n * isqrt fuel n ≤ n ∧ n < (isqrt fuel n + 1) * (isqrt fuel n + 1) := by
  induction fuel generalizing n with
  | zero => simp only [isqrt]; omega
  | succ fuel ih =>
    obtain ⟨hle, hlt⟩ := ih (n / 4) (by rw [Nat.pow_succ] at h; omega)
    simp only [isqrt]
    generalize isqrt fuel (n / 4) = s at hle hlt ⊢
    have hle4 : 4 * (s * s) ≤ n := by omega
    have hlt4 : n < 4 * ((s + 1) * (s + 1)) := by omega
    split <;> constructor <;> nlinarith

/-- `stickyRoot n` is twice the floor of the root at a scale `2 ^ t` that keeps 57 bits, and one more where the root is
not exact. -/
theorem stickyRoot_spec {n : Nat} (h : 2 ^ 112 ≤ n) :
    ∃ t s b, stickyRoot n = (2 * s + b) * 2 ^ t ∧ s * s * 4 ^ t ≤ n ∧ n < (s + 1) * (s + 1) * 4 ^ t ∧
      2 ^ 56 ≤ s ∧ s < 2 ^ 57 ∧ (b = 0 ∧ s * s * 4 ^ t = n ∨ b = 1) ∧ 2 ^ 112 * 4 ^ t ≤ n := by
  have hn : n ≠ 0 := by omega
  have hlog : 112 ≤ Nat.log2 n := (Nat.le_log2 hn).mpr h
  refine ⟨(Nat.log2 n - 112) / 2, isqrt 57 (n / 4 ^ ((Nat.log2 n - 112) / 2)), _, rfl, ?_⟩
  generalize ht : (Nat.log2 n - 112) / 2 = t
  have hp : 0 < 4 ^ t := Nat.pow_pos (by decide)
  have h4 (c : Nat) : 2 ^ (c + 2 * t) = 2 ^ c * 4 ^ t := by rw [Nat.pow_add, Nat.pow_mul]
  have hlow : 2 ^ 112 * 4 ^ t ≤ n := by
    rw [← h4]
    exact (Nat.pow_le_pow_right (by decide) (by omega)).trans (Nat.log2_self_le hn)
  have hhigh : n < 2 ^ 114 * 4 ^ t := by
    rw [← h4]
    exact Nat.lt_log2_self.trans_le (Nat.pow_le_pow_right (by decide) (by omega))
  have hm1 := (Nat.le_div_iff_mul_le hp).mpr hlow
  have hm2 := (Nat.div_lt_iff_lt_mul hp).mpr hhigh
  obtain ⟨hle, hlt⟩ := isqrt_spec 57 (n / 4 ^ t) (by omega)
  generalize isqrt 57 (n / 4 ^ t) = s at hle hlt ⊢
  refine ⟨(Nat.le_div_iff_mul_le hp).mp hle, (Nat.div_lt_iff_lt_mul hp).mp hlt, ?_, ?_, ?_, hlow⟩
  · by_contra hs
    nlinarith
  · by_contra hs
    nlinarith
  · split
    · exact Or.inl ⟨rfl, by assumption⟩
    · exact Or.inr rfl

/-- From the second binade of a scale on, the midpoints are multiples of twice that scale. -/
theorem two_pow_dvd_midpointSum {j m : Nat} (h : (j + 1) * 2 ^ 52 ≤ m) (hm : m < infMag) :
    2 ^ j ∣ midpointSum m := by
  have hi : infMag < 2 ^ 63 := infMag_lt
  have hdvd {p : Nat} (h1 : (j + 1) * 2 ^ 52 ≤ p) (h2 : p < 2 ^ 63) : 2 ^ j ∣ unitsOfMag p := by
    rw [unitsOfMag_eq h2, if_neg (by omega)]
    exact (pow_dvd_pow 2 (by omega)).mul_left _
  exact dvd_add (hdvd h (by omega)) (hdvd (by omega) (by omega))

/-- Among the multiples of twice its scale, half the sticky root stands where the exact root does, so that the two round
to the same pattern. -/
theorem stickyRoot_separates {n : Nat} (h : 2 ^ 112 ≤ n) :
    ∃ t, 2 ^ 57 * 2 ^ t ≤ stickyRoot n ∧ stickyRoot n < 2 ^ 58 * 2 ^ t ∧ 2 ^ 112 * 4 ^ t ≤ n ∧
      ∀ M, 2 ^ (t + 1) ∣ M → (M ≤ stickyRoot n → M ^ 2 ≤ 4 * n) ∧ (stickyRoot n ≤ M → 4 * n ≤ M ^ 2) := by
  obtain ⟨t, s, b, hS, hle, hlt, hs1, hs2, hb, hn⟩ := stickyRoot_spec h
  have hp : 0 < 2 ^ t := Nat.two_pow_pos t
  rw [hS]
  refine ⟨t, Nat.mul_le_mul_right _ (by omega), Nat.mul_lt_mul_of_pos_right (by omega) hp, hn, ?_⟩
  rintro _ ⟨c, rfl⟩
  have hsq : (2 ^ (t + 1) * c) ^ 2 = 4 * (c * c * 4 ^ t) := by
    rw [show 4 ^ t = 2 ^ t * 2 ^ t by rw [← Nat.mul_pow]]
    ring
  have hM : 2 ^ (t + 1) * c = 2 * c * 2 ^ t := by ring
  rw [hsq, hM]
  constructor
  · intro hc
    have hcs : c ≤ s := by have := Nat.le_of_mul_le_mul_right hc hp; omega
    calc 4 * (c * c * 4 ^ t) ≤ 4 * (s * s * 4 ^ t) := by gcongr
      _ ≤ 4 * n := by omega
  · intro hc
    have hsc := Nat.le_of_mul_le_mul_right hc hp
    rcases hb with ⟨rfl, hexact⟩ | rfl
    · have hcs : s ≤ c := by omega
      rw [← hexact]
      gcongr
    · have hcs : s + 1 ≤ c := by omega
      calc 4 * n ≤ 4 * ((s + 1) * (s + 1) * 4 ^ t) := by omega
        _ ≤ 4 * (c * c * 4 ^ t) := by gcongr

/-- The rounding of a value whose leading bits are scaled by `2 ^ t` lies a few binades above that of `2 ^ t`. -/
theorem roundMag_half_bounds {S t : Nat} (h1 : 2 ^ 57 * 2 ^ t ≤ S) (h2 : S < 2 ^ 58 * 2 ^ t) (ht : t ≤ 2000) :
    (t + 2) * 2 ^ 52 < roundMag S 2 ∧ roundMag S 2 ≤ (t + 6) * 2 ^ 52 := by
  have hi : infMag = 2047 * 2 ^ 52 := by decide
  have hp : 0 < 2 ^ t := Nat.two_pow_pos t
  have hmid (c : Nat) (hc : t + c < 2046) :
      midpointSum ((t + c + 1) * 2 ^ 52) = (2 * 2 ^ 52 + 1) * (2 ^ t * 2 ^ c) := by
    rw [← Nat.pow_add, ← midpointSum_binade hc (by decide) (Or.inr le_rfl), Nat.add_mul _ 1, Nat.one_mul]
  constructor
  · by_contra hle
    have := le_midpointSum_of_roundMag_le (by decide) (not_lt.mp hle) (by omega)
    rw [hmid 1 (by omega)] at this
    omega
  · by_contra hgt
    have := midpointSum_le_of_lt_roundMag (by decide) (not_le.mp hgt)
    rw [hmid 5 (by omega)] at this
    omega

theorem exponent_lt {n a b c e t : Nat} (h1 : 2 ^ a * 4 ^ t ≤ n) (h2 : n < 2 ^ b * 2 ^ c * 2 ^ e) :
    a + 2 * t < b + c + e := by
  refine (Nat.pow_lt_pow_iff_right (by decide : 1 < 2)).mp ?_
  rw [Nat.pow_add, Nat.pow_mul, Nat.pow_add, Nat.pow_add]
  exact h1.trans_lt h2

theorem unitsOfMag_infMag : unitsOfMag infMag = 2 ^ 53 * 2 ^ 2045 := by
  rw [show infMag = 2045 * 2 ^ 52 + 2 ^ 53 by decide, unitsOfMag_binade (by decide) le_rfl (by decide)]

theorem unitsOf_lt {x : F64} (h : isFinite x = true) : unitsOf x < 2 ^ 53 * 2 ^ 2045 := by
  rw [unitsOf_eq_mag, ← unitsOfMag_infMag]
  exact unitsOfMag_lt (isFinite_iff.mp h) le_rfl

/-- The scale of the root of a finite value is small, so that the root is far from overflow. -/
theorem rootScale_lt {x : F64} (hf : isFinite x = true) {t : Nat} (h : 2 ^ 112 * 4 ^ t ≤ unitsOf x * unitsPerOne) :
    t < 1530 := by
  have hlt : unitsOf x * unitsPerOne < 2 ^ 53 * 2 ^ 2045 * 2 ^ 1074 := by
    rw [unitsPerOne]
    gcongr
    exact unitsOf_lt hf
  have := exponent_lt h hlt
  clear h hlt
  omega

/-- `Sqrt64` of a finite positive value. -/
theorem sqrt64_positive {x : F64} (hf : isFinite x = true) (hz : isZero x = false) (hs : signOf x = false) :
    sqrt64 x = round64 false (stickyRoot (unitsOf x * unitsPerOne)) 2 := by
  simp [sqrt64, finite_not_nan hf, hz, hs]

theorem two_pow_le_rootOperand {x : F64} (hf : isFinite x = true) (hz : isZero x = false) :
    2 ^ 112 ≤ unitsOf x * unitsPerOne := by
  have hpos : 0 < unitsOf x := by
    rw [Nat.pos_iff_ne_zero, Ne, unitsOf_eq_zero hf, ← isZero_iff, hz]
    exact Bool.false_ne_true
  have hone : 2 ^ 112 ≤ unitsPerOne := by rw [unitsPerOne]; gcongr <;> decide
  exact hone.trans (Nat.le_mul_of_pos_left _ hpos)

/-- The rounding of half the sticky root of `n` is nearest to the root of `n`. -/
theorem roundMag_stickyRoot {n r : Nat} (hlow : 2 ^ 112 ≤ n) (hscale : ∀ t, 2 ^ 112 * 4 ^ t ≤ n → t < 1530)
    (hr : roundMag (stickyRoot n) 2 = r) :
    0 < r ∧ r + 1 < infMag ∧ midpointSum (r - 1) ^ 2 ≤ 4 * n ∧ 4 * n ≤ midpointSum r ^ 2 := by
  have hi : infMag = 2047 * 2 ^ 52 := by decide
  obtain ⟨t, hS1, hS2, hn, hsep⟩ := stickyRoot_separates hlow
  have ht := hscale t hn
  obtain ⟨hr1, hr2⟩ := roundMag_half_bounds hS1 hS2 (by omega)
  rw [hr] at hr1 hr2
  have hpred : r - 1 < roundMag (stickyRoot n) 2 := by omega
  have hbelow := midpointSum_le_of_lt_roundMag Nat.two_pos hpred
  have habove := le_midpointSum_of_roundMag_le Nat.two_pos hr.le (by omega)
  refine ⟨by omega, by omega, ?_, ?_⟩
  · exact (hsep _ (two_pow_dvd_midpointSum (by omega) (by omega))).1 (by omega)
  · exact (hsep _ (two_pow_dvd_midpointSum (by omega) (by omega))).2 (by omega)

theorem sqrt64_nearest {x : F64} (hf : isFinite x = true) (hz : isZero x = false) (hs : signOf x = false) :
    0 < magOf (sqrt64 x) ∧ magOf (sqrt64 x) + 1 < infMag ∧
      midpointSum (magOf (sqrt64 x) - 1) ^ 2 ≤ 4 * (unitsOf x * unitsPerOne) ∧
      4 * (unitsOf x * unitsPerOne) ≤ midpointSum (magOf (sqrt64 x)) ^ 2 :=
  roundMag_stickyRoot (two_pow_le_rootOperand hf hz) (fun _ => rootScale_lt hf)
    (by rw [sqrt64_positive hf hz hs, magOf_round64])

/-- Settles O55: the sticky root rounds as the exact root does, since no midpoint lies between the two. -/
theorem squareRootIsNearest : Obligations.SquareRootIsNearest := by
  unfold Obligations.SquareRootIsNearest
  intro x
  refine ⟨fun hf hz hs => ?_, ?_, ?_, signOf_ofMag _ _, magOf_ofMag (magOf_lt x)⟩
  · obtain ⟨hpos, hinf, hbelow, habove⟩ := sqrt64_nearest hf hz hs
    rw [midpointSum, Nat.sub_add_cancel hpos, unitsPerOne] at hbelow
    rw [midpointSum, unitsPerOne] at habove
    exact ⟨by rw [sqrt64_positive hf hz hs, signOf_round64], hpos, hinf, hbelow, habove⟩
  · rintro (hz | rfl)
    · simp [sqrt64, zero_not_nan hz, hz]
    · decide
  · rintro (hn | ⟨hs, hz⟩)
    · simp [sqrt64, hn]
    · cases hn : isNaN x <;> simp [sqrt64, hn, hs, hz]

/-! ### Comparisons -/

theorem lt64_iff {x y : F64} (hx : isNaN x = false) (hy : isNaN y = false) :
    lt64 x y = true ↔ orderKey x < orderKey y := by
  simp [lt64, hx, hy]

theorem gt64_iff {x y : F64} (hx : isNaN x = false) (hy : isNaN y = false) :
    gt64 x y = true ↔ orderKey y < orderKey x := by
  simp [gt64, hx, hy]

theorem eq64_iff {x y : F64} (hx : isNaN x = false) (hy : isNaN y = false) :
    eq64 x y = true ↔ orderKey x = orderKey y := by
  simp [eq64, hx, hy]

theorem gt64_eq_lt64 (x y : F64) : gt64 x y = lt64 y x := by
  rw [gt64, lt64, Bool.and_comm (!isNaN x)]

theorem eq64_comm (x y : F64) : eq64 x y = eq64 y x := by
  simp only [eq64, Bool.and_comm (!isNaN x), eq_comm]

/-- The order of the values is total, so that equal keys are equal values. -/
theorem valueOf_eq {x y : F64} (hx : isFinite x = true) (hy : isFinite y = true) :
    valueOf x = valueOf y ↔ orderKey x = orderKey y := by
  have h1 := valueOf_lt hx hy
  have h2 := valueOf_lt hy hx
  omega

theorem orderKey_posInf : orderKey 0x7FF0000000000000 = infMag := by decide

theorem orderKey_negInf : orderKey 0xFFF0000000000000 = -infMag := by decide

theorem magOf_le_of_not_nan {x : F64} (h : isNaN x = false) : magOf x ≤ infMag := by
  rw [isNaN, decide_eq_false_iff_not] at h
  omega

/-- Only a zero shares its key with another pattern. -/
theorem orderKey_inj {x y : F64} (hx : isZero x = false) (h : orderKey x = orderKey y) : x = y := by
  rw [isZero, decide_eq_false_iff_not] at hx
  unfold orderKey at h
  cases hsx : signOf x <;> cases hsy : signOf y <;> simp only [hsx, hsy, Bool.false_eq_true, if_true, if_false] at h
  · exact pattern_ext (hsx.trans hsy.symm) (by omega)
  · omega
  · omega
  · exact pattern_ext (hsx.trans hsy.symm) (by omega)

theorem orderKey_bounds {x : F64} (h : isNaN x = false) : -(infMag : Int) ≤ orderKey x ∧ orderKey x ≤ infMag := by
  have hm := magOf_le_of_not_nan h
  rw [magOf_eq_key] at hm
  omega

/-- A pattern that is not zero equals no other one. -/
theorem eq64_iff_eq {x y : F64} (hx : isNaN x = false) (hy : isNaN y = false) (hz : isZero x = false) :
    eq64 x y = true ↔ y = x := by
  rw [eq64_iff hx hy]
  exact ⟨fun h => (orderKey_inj hz h).symm, fun h => h ▸ rfl⟩

/-- Where the keys are ordered and tell the two patterns apart, the lower one is less than the other unless it is the
same. -/
theorem lt64_of_orderKey_le {x y : F64} (hx : isNaN x = false) (hy : isNaN y = false)
    (hle : orderKey x ≤ orderKey y) (hinj : orderKey x = orderKey y → x = y) :
    lt64 y x = false ∧ (lt64 x y = true ↔ x ≠ y) := by
  rw [← Bool.not_eq_true, lt64_iff hy hx, lt64_iff hx hy]
  exact ⟨hle.not_gt, fun hlt e => hlt.ne (e ▸ rfl), fun hne => lt_of_le_of_ne hle (mt hinj hne)⟩

/-- Nothing is above +Inf, and every other value is below it. -/
theorem compare_posInf {y : F64} (h : isNaN y = false) :
    lt64 0x7FF0000000000000 y = false ∧ (lt64 y 0x7FF0000000000000 = true ↔ y ≠ 0x7FF0000000000000) ∧
      (eq64 0x7FF0000000000000 y = true ↔ y = 0x7FF0000000000000) := by
  have hz : isZero 0x7FF0000000000000 = false := by decide
  obtain ⟨hnot, hlt⟩ := lt64_of_orderKey_le (y := 0x7FF0000000000000) h (by decide)
    (by rw [orderKey_posInf]; exact (orderKey_bounds h).2) fun e => (orderKey_inj hz e.symm).symm
  exact ⟨hnot, hlt, eq64_iff_eq (by decide) h hz⟩

/-- Nothing is below -Inf, and every other value is above it. -/
theorem compare_negInf {y : F64} (h : isNaN y = false) :
    lt64 y 0xFFF0000000000000 = false ∧ (lt64 0xFFF0000000000000 y = true ↔ y ≠ 0xFFF0000000000000) ∧
      (eq64 0xFFF0000000000000 y = true ↔ y = 0xFFF0000000000000) := by
  have hz : isZero 0xFFF0000000000000 = false := by decide
  obtain ⟨hnot, hlt⟩ := lt64_of_orderKey_le (x := 0xFFF0000000000000) (by decide) h
    (by rw [orderKey_negInf]; exact (orderKey_bounds h).1) (orderKey_inj hz)
  exact ⟨hnot, hlt.trans ne_comm, eq64_iff_eq (by decide) h hz⟩

/-- Settles O56: the order of the patterns' keys is the order of the values, with the infinities at its ends. -/
theorem comparisonsFollowTheValues : Obligations.ComparisonsFollowTheValues := by
  unfold Obligations.ComparisonsFollowTheValues
  intro x y
  refine ⟨?_, gt64_eq_lt64 x y, eq64_comm x y, fun hx hy => ?_, ?_, ?_⟩
  · rintro (h | h) <;> simp [lt64, gt64, eq64, h]
  · have nx := (finite_not_nan hx).1
    have ny := (finite_not_nan hy).1
    exact ⟨(lt64_iff nx ny).trans (valueOf_lt hx hy).symm, (eq64_iff nx ny).trans (valueOf_eq hx hy).symm⟩
  · rintro rfl h
    exact compare_posInf h
  · rintro rfl h
    exact compare_negInf h

/-! ### Conversions to integers -/

/-- `n` with the sign of `x`. -/
def signed (x : F64) (n : Nat) : Int := if signOf x then -(n : Int) else n

theorem valueOf_eq_signed (x : F64) : valueOf x = signed x (unitsOf x) := rfl

/-- The distance of two values of one sign is that of their magnitudes. -/
theorem signed_sub_natAbs (x : F64) (a b : Nat) : (signed x a - signed x b).natAbs = ((a : Int) - b).natAbs := by
  unfold signed
  split <;> omega

theorem signed_mul (x : F64) (a d : Nat) : signed x a * (d : Int) = signed x (a * d) := by
  unfold signed
  split <;> simp

theorem signed_emod_two (x : F64) {a : Nat} (h : a % 2 = 0) : signed x a % 2 = 0 := by
  unfold signed
  split <;> omega

theorem signed_tdiv (x : F64) (a d : Nat) : (signed x a).tdiv (d : Int) = signed x (a / d) := by
  unfold signed
  split
  · rw [Int.neg_tdiv, Int.ofNat_tdiv]
  · exact Int.ofNat_tdiv a d

theorem roundNearestEven_nearest (n d : Nat) (hd : 0 < d) :
    2 * (((roundNearestEven n d * d : Nat) : Int) - n).natAbs < d ∨
      (2 * (((roundNearestEven n d * d : Nat) : Int) - n).natAbs = d ∧ roundNearestEven n d % 2 = 0) := by
  have spec := roundNearestEven_spec n d hd
  rw [Nat.add_mul, Nat.mul_assoc 2, Nat.one_mul] at spec
  omega

theorem unitsPerOne_pos : 0 < unitsPerOne := by
  unfold unitsPerOne
  positivity

/-- `RoundSF` of a finite value. -/
theorem roundSF_finite {v : F64} (h : isFinite v = true) :
    roundSF v = max (-2147483647) (min 2147483647 (signed v (roundNearestEven (unitsOf v) unitsPerOne))) := by
  rw [roundSF, (finite_not_nan h).1, (finite_not_nan h).2]
  rfl

theorem roundSF_bounds (v : F64) : -2147483647 ≤ roundSF v ∧ roundSF v ≤ 2147483647 := by
  unfold roundSF maxInt32
  split
  · omega
  · split
    · split <;> omega
    · dsimp only
      omega

/-- Settles O58: the sign is put back on the nearest magnitude, which is the nearest value of that sign. -/
theorem roundSfIsNearestAndClamped : Obligations.RoundSfIsNearestAndClamped := by
  unfold Obligations.RoundSfIsNearestAndClamped
  intro v
  refine ⟨fun h => by simp [roundSF, h], ?_, ?_, fun h => ?_, roundSF_bounds v⟩
  · rintro rfl
    decide
  · rintro rfl
    decide
  · have near := roundNearestEven_nearest (unitsOf v) unitsPerOne unitsPerOne_pos
    refine ⟨signed v (roundNearestEven (unitsOf v) unitsPerOne), ?_, roundSF_finite h⟩
    rw [← unitsPerOne_cast, signed_mul, valueOf_eq_signed, signed_sub_natAbs, ← unitsPerOne]
    exact near.imp_right fun ⟨e, he⟩ => ⟨e, signed_emod_two v he⟩

/-- `TruncQ` between its bounds. -/
theorem truncQ_inRange {u : F64} (hn : isNaN u = false) (h1 : lt64 u 0x41E0000000000000 = true)
    (h2 : gt64 u 0xC1E0000000200000 = true) : truncQ u = signed u (unitsOf u / unitsPerOne) := by
  rw [truncQ, hn, h1, h2]
  rfl

/-- A value at or below the lower bound is below the upper one. -/
theorem lt64_upper_of_not_gt64_lower {u : F64} (hn : isNaN u = false) (h : gt64 u 0xC1E0000000200000 = false) :
    lt64 u 0x41E0000000000000 = true := by
  have hkeys : orderKey 0xC1E0000000200000 < orderKey 0x41E0000000000000 := by decide
  rw [← Bool.not_eq_true, gt64_iff hn (by decide)] at h
  rw [lt64_iff hn (by decide)]
  omega

/-- Settles O59: the quotient of the magnitudes, with the sign put back, is the quotient rounded toward zero. -/
theorem truncQTruncatesAndSaturates : Obligations.TruncQTruncatesAndSaturates := by
  unfold Obligations.TruncQTruncatesAndSaturates
  intro u
  refine ⟨fun hn => by simp [truncQ, hn], fun hn h => ?_, fun hn h => ?_, fun hn h1 h2 => ?_⟩
  · rw [truncQ, hn, h]
    rfl
  · rw [truncQ, hn, lt64_upper_of_not_gt64_lower hn h, h]
    rfl
  · rw [truncQ_inRange hn h1 h2, ← unitsPerOne_cast, valueOf_eq_signed, signed_tdiv]

/-! ### The parameter functions -/

@[simp] theorem signOf_abs64 (x : F64) : signOf (abs64 x) = false := signOf_ofMag _ _

@[simp] theorem magOf_abs64 (x : F64) : magOf (abs64 x) = magOf x := magOf_ofMag (magOf_lt x)

theorem orderKey_of_gt64 {x y : F64} (h : gt64 x y = true) : isNaN x = false ∧ orderKey y < orderKey x := by
  simp only [gt64, Bool.and_eq_true, Bool.not_eq_true', decide_eq_true_eq] at h
  obtain ⟨⟨hx, -⟩, hkey⟩ := h
  exact ⟨hx, hkey⟩

theorem orderKey_of_lt64 {x y : F64} (h : lt64 x y = true) : isNaN x = false ∧ orderKey x < orderKey y := by
  simp only [lt64, Bool.and_eq_true, Bool.not_eq_true', decide_eq_true_eq] at h
  obtain ⟨⟨hx, -⟩, hkey⟩ := h
  exact ⟨hx, hkey⟩

theorem positive_of_orderKey {x : F64} (h : 0 < orderKey x) : signOf x = false ∧ isZero x = false := by
  unfold orderKey at h
  split at h
  · omega
  · exact ⟨Bool.eq_false_iff.mpr ‹_›, decide_eq_false (by omega)⟩

theorem negative_of_orderKey {x : F64} (h : orderKey x < 0) : signOf x = true ∧ isZero x = false := by
  unfold orderKey at h
  split at h
  · exact ⟨‹_›, decide_eq_false (by omega)⟩
  · omega

theorem exp64_nan (P : Params) {x : F64} (h : isNaN x = true) : exp64 P x = quietNaN := by
  simp [exp64, h]

theorem exp64_zero (P : Params) {x : F64} (h : isZero x = true) : exp64 P x = Config.one := by
  simp [exp64, zero_not_nan h, h]

theorem exp64_inf (P : Params) {x : F64} (h : isInf x = true) :
    exp64 P x = if signOf x then plusZero else x := by
  simp [exp64, inf_not_nan h, inf_not_zero h, h]

/-- A magnitude clamped to the finite values keeps its cleared sign. -/
theorem signOf_clamp64_abs64 (x : F64) : signOf (clamp64 plusZero maxFinite (abs64 x)) = false := by
  unfold clamp64
  split
  · decide
  · split
    · decide
    · exact signOf_abs64 x

/-- A finite magnitude is within the finite non-negative values. -/
theorem clamp64_abs64_finite {x : F64} (h : isFinite x = true) :
    clamp64 plusZero maxFinite (abs64 x) = abs64 x := by
  have hn : isNaN (abs64 x) = false := by
    rw [isNaN, magOf_abs64]
    exact (finite_not_nan h).1
  have hkey : orderKey (abs64 x) = magOf x := by rw [orderKey, signOf_abs64, magOf_abs64]; rfl
  have hlow : orderKey plusZero = 0 := by decide
  have hhigh : orderKey maxFinite = infMag - 1 := by decide
  have hm := isFinite_iff.mp h
  refine clamp64_eq hn ?_ ?_
  · rw [← Bool.not_eq_true, lt64_iff hn (by decide)]
    omega
  · rw [← Bool.not_eq_true, gt64_iff hn (by decide)]
    omega

/-- `Exp64` above its greatest operand, +Inf included. -/
theorem exp64_overflow (P : Params) {x : F64} (h : gt64 x expTop = true) : exp64 P x = 0x7FF0000000000000 := by
  obtain ⟨hn, hkey⟩ := orderKey_of_gt64 h
  have htop : 0 < orderKey expTop := by decide
  obtain ⟨hs, hz⟩ := positive_of_orderKey (htop.trans hkey)
  rcases not_nan_cases x hn with hi | hf
  · rw [exp64_inf P hi, hs]
    exact inf_unique hi (by decide) hs
  · rw [exp64_regular P hf hz, if_pos h]
    decide

/-- `Exp64` below its least operand, -Inf included. -/
theorem exp64_underflow (P : Params) {x : F64} (h : lt64 x expBottom = true) : exp64 P x = 0 := by
  obtain ⟨hn, hkey⟩ := orderKey_of_lt64 h
  have hbottom : orderKey expBottom < 0 := by decide
  obtain ⟨hs, hz⟩ := negative_of_orderKey (hkey.trans hbottom)
  rcases not_nan_cases x hn with hi | hf
  · rw [exp64_inf P hi, hs]
    rfl
  · have htop : gt64 x expTop = false := by
      have horder : orderKey expBottom < orderKey expTop := by decide
      rw [← Bool.not_eq_true, gt64_iff hn (by decide)]
      omega
    rw [exp64_regular P hf hz, htop, if_neg Bool.false_ne_true, if_pos h]
    rfl

/-- `Exp64` of an operand within its range. -/
theorem exp64_inRange (P : Params) {x : F64} (hf : isFinite x = true) (hz : isZero x = false)
    (h1 : gt64 x expTop = false) (h2 : lt64 x expBottom = false) :
    exp64 P x = clamp64 plusZero maxFinite (abs64 (P.exp x)) := by
  simp [exp64_regular P hf hz, h1, h2]

/-- `Exp64` is never negative, whatever the parameter. -/
theorem signOf_exp64 (P : Params) {x : F64} (hn : isNaN x = false) : signOf (exp64 P x) = false := by
  rcases not_nan_cases x hn with hi | hf
  · rw [exp64_inf P hi]
    cases hs : signOf x
    · exact hs
    · rw [if_pos rfl]
      decide
  · cases hz : isZero x
    · cases htop : gt64 x expTop
      · cases hbottom : lt64 x expBottom
        · rw [exp64_inRange P hf hz htop hbottom]
          exact signOf_clamp64_abs64 _
        · rw [exp64_underflow P hbottom]
          decide
      · rw [exp64_overflow P htop]
        decide
    · rw [exp64_zero P hz]
      decide

/-- Settles O60: each special case is a branch of its own, and elsewhere the parameter is clamped to its range. -/
theorem parameterFunctionsKeepSpecialCases : Obligations.ParameterFunctionsKeepSpecialCases := by
  unfold Obligations.ParameterFunctionsKeepSpecialCases
  intro P x
  refine ⟨fun hn => ?_, fun hz => ?_, fun hn hz hs => ?_, ?_, ?_, ?_, fun h => ?_, fun hf hz hs => ?_,
    fun hf hz hs h1 => ?_, exp64_overflow P, exp64_underflow P, fun hf hz htop hbottom => ?_⟩
  · simp [pow64, log64, exp64_nan P hn, hn]
  · have hlog : log64 P x = ofMag true infMag := by simp [log64, zero_not_nan hz, hz]
    exact ⟨by simp [pow64, zero_not_nan hz, hz, plusZero], hlog.trans (by decide), exp64_zero P hz⟩
  · simp [pow64, log64, hn, hz, hs]
  · rintro rfl
    exact ⟨rfl, rfl, rfl⟩
  · rintro rfl
    rfl
  · rintro rfl
    rfl
  · refine signOf_exp64 P ?_
    by_contra hn
    rw [exp64_nan P (by simpa using hn)] at h
    exact absurd h (by decide)
  · obtain ⟨-, hlow, hhigh⟩ :=
      clamp64_mem (lo := powBottom) (hi := powTop) (P.pow x Config.powm) (by decide) (by decide) (by decide)
    rw [pow64_regular P hf hz hs]
    exact ⟨clamp64_eq, hlow, hhigh, clamp64_finite _ (by decide) (by decide) (by decide)⟩
  · obtain ⟨-, hlow, hhigh⟩ :=
      clamp64_mem (lo := logBottom) (hi := expTop) (P.log x) (by decide) (by decide) (by decide)
    rw [log64_regular P hf hz hs h1]
    exact ⟨clamp64_eq, hlow, hhigh, clamp64_finite _ (by decide) (by decide) (by decide)⟩
  · rw [exp64_inRange P hf hz htop hbottom]
    exact ⟨clamp64_abs64_finite, clamp64_finite _ (by decide) (by decide) (by decide)⟩

end Sys2Proof.Arithmetic
end

section
/-!
What stands at each place of the register map, and what the machine is at reset: the facts about the table of
10_state.md R30, R35 and R61.
-/

namespace Sys2Proof.StateMap

open Machine Laws
open Config (Params)

/-! ### The stored words of the table -/

/-- Every byte of an element of a local memory lies in the memory. -/
theorem holds_addr {m : Ram} {i j : Nat} (hi : i < m.count) (hj : j < m.stride) : m.holds (m.addr i + j) = true := by
  have hle : m.stride * (i + 1) ≤ m.stride * m.count := Nat.mul_le_mul_left _ hi
  rw [Nat.mul_succ] at hle
  rw [holds_iff, Ram.addr, Ram.bytes, Nat.mul_comm m.count]
  omega

theorem storedWord_reg (P : Params) (a : Arch) (r : Reg) : storedWord P a r.offset = readReg a r := by
  rw [storedWord, locate_reg]

theorem storedWord_ram (P : Params) (a : Arch) {m : Ram} {off : Nat} (h : m.holds off = true) :
    storedWord P a off = readRam P a m off := by
  rw [storedWord, locate_ram h]

theorem storedWord_reserved (P : Params) (a : Arch) {off : Nat} (h : locate off = .reserved) :
    storedWord P a off = 0 := by
  rw [storedWord, h]

/-- An element of a 16-bit memory reads as its stored bits, extended by zeros. -/
theorem storedWord_half (P : Params) (a : Arch) {m : Ram} {i : Nat} (hk : m.kept = 2) (hs : 0 < m.stride)
    (hi : i < m.count) : (storedWord P a (m.addr i)).toNat = (halfAt P a (m.addr i)).toNat := by
  have hread := storedWord_ram P a (holds_addr hi hs)
  rw [Nat.add_zero, readRam, if_pos hk] at hread
  rw [hread]
  exact BitVec.toNat_setWidth_of_le (by decide)

/-- A whole word of a 32-bit or 64-bit memory reads as stored. -/
theorem storedWord_word (P : Params) (a : Arch) {m : Ram} {i j : Nat} (hk : m.kept = 4) (hi : i < m.count)
    (hj : j < m.stride) : storedWord P a (m.addr i + j) = wordAt P a (m.addr i + j) := by
  rw [storedWord_ram P a (holds_addr hi hj), readRam, if_neg (by omega)]

/-- A 64-bit element reads low word first (20_memory.md R75). -/
theorem storedWord_dword (P : Params) (a : Arch) {m : Ram} {i : Nat} (hk : m.kept = 4) (hs : m.stride = 8)
    (hi : i < m.count) :
    storedWord P a (m.addr i) = (dwordAt P a (m.addr i)).extractLsb' 0 32 ∧
      storedWord P a (m.addr i + 4) = (dwordAt P a (m.addr i)).extractLsb' 32 32 :=
  ⟨(storedWord_word P a (j := 0) hk hi (by omega)).trans (wordAt_lo P a _),
    (storedWord_word P a hk hi (by omega)).trans (wordAt_hi P a _)⟩

/-- Settles O14: each register by the map read at its own offset, each local memory by its elements. -/
theorem windowReadsAsTabled : Obligations.WindowReadsAsTabled := by
  unfold Obligations.WindowReadsAsTabled
  intro P a
  have reg := storedWord_reg P a
  refine ⟨⟨reg .id, reg .caps, reg .ctrl, reg .status, reg .cmd, reg .bwReq, reg .rate, reg .bwAch, reg .maxcbs,
      reg .maxcbl, reg .ncbShort, reg .ncbLong, reg .blktype, reg .nsfb, reg .sfcnt⟩,
    ⟨reg .qualityLo, reg .qualityHi, reg .refenrgLo, reg .refenrgHi⟩, fun k hk => ?_, fun n hn => ?_, fun i hi => ?_,
    fun off ho hr => storedWord_reserved P a (reserved_locate ho.2 hr)⟩
  · exact storedWord_half P a (m := .sfboff) rfl (by decide) (Nat.lt_succ_of_le hk)
  · have hn : n < 128 := Nat.lt_succ_of_le hn
    obtain ⟨hlo, hhi⟩ := storedWord_dword P a (m := .bandq) rfl rfl hn
    rw [show 0x1004 + 8 * n = Ram.bandq.addr n + 4 from Nat.add_right_comm 0x1000 4 (8 * n)]
    exact ⟨storedWord_half P a (m := .widthLong) rfl (by decide) hn,
      storedWord_half P a (m := .widthShort) rfl (by decide) hn,
      storedWord_word P a (m := .sf) (j := 0) rfl hn (by decide), hlo, hhi⟩
  · have hi : i < 1024 := Nat.lt_succ_of_le hi
    obtain ⟨hlo, hhi⟩ := storedWord_dword P a (m := .xr) rfl rfl hi
    rw [show 0x2004 + 8 * i = Ram.xr.addr i + 4 from Nat.add_right_comm 0x2000 4 (8 * i)]
    exact ⟨hlo, hhi, storedWord_word P a (m := .xi) (j := 0) rfl hi (by decide)⟩

/-! ### The fields of STATUS -/

/-- The parts of `STATUS` laid end to end, the width written as the sum of theirs (10_state.md R35). -/
def statusParts (a : Arch) : BitVec (8 + 8 + 8 + 3 + 1 + 1 + 1 + 1 + 1) :=
  0#8 ++ a.lastop ++ a.errcode.code ++ 0#3 ++ BitVec.ofBool a.cfgv ++ BitVec.ofBool a.signal ++ BitVec.ofBool a.err ++
    BitVec.ofBool a.done ++ BitVec.ofBool a.busy

theorem statusWord_getLsbD (a : Arch) (i : Nat) : (statusWord a).getLsbD i = (statusParts a).getLsbD i := rfl

theorem statusWord_extractLsb' (a : Arch) (i n : Nat) :
    (statusWord a).extractLsb' i n = (statusParts a).extractLsb' i n := rfl

theorem statusWord_flags (a : Arch) :
    (statusWord a).getLsbD 0 = a.busy ∧ (statusWord a).getLsbD 1 = a.done ∧ (statusWord a).getLsbD 2 = a.err ∧
      (statusWord a).getLsbD 3 = a.signal ∧ (statusWord a).getLsbD 4 = a.cfgv := by
  simp only [statusWord_getLsbD, statusParts, BitVec.getLsbD_append]
  simp

theorem statusWord_fields (a : Arch) :
    (statusWord a).extractLsb' 5 3 = 0 ∧ (statusWord a).extractLsb' 8 8 = a.errcode.code ∧
      (statusWord a).extractLsb' 16 8 = a.lastop ∧ (statusWord a).extractLsb' 24 8 = 0 := by
  simp (disch := decide) only [statusWord_extractLsb', statusParts, BitVec.extractLsb'_append_eq_of_le,
    BitVec.extractLsb'_append_eq_of_add_le]
  simp

/-- Settles O15: the word is its parts laid end to end, and each field is one of them. -/
theorem statusWordHasItsFields : Obligations.StatusWordHasItsFields := by
  unfold Obligations.StatusWordHasItsFields
  intro a
  obtain ⟨busy, done, err, signal, cfgv⟩ := statusWord_flags a
  exact ⟨busy, done, err, signal, cfgv, statusWord_fields a⟩

/-! ### Reset -/

/-- Settles O12: the state after reset is written out, and no byte is listed in its memory. -/
theorem resetStateIsAsTabled : Obligations.ResetStateIsAsTabled := by
  unfold Obligations.ResetStateIsAsTabled
  refine ⟨rfl, rfl, fun r hid hcaps => ?_, rfl, rfl, fun _ _ => rfl⟩
  cases r with
  | id => exact absurd rfl hid
  | caps => exact absurd rfl hcaps
  | _ => rfl

/-! ### Steps written out -/

/-- Settles O4: the command that is due is the one in flight. -/
theorem dueCommandIsRunByStep : Obligations.DueCommandIsRunByStep := by
  unfold Obligations.DueCommandIsRunByStep
  intro s op hrun hdue
  rw [step, dueCommand_eq_some.mpr ⟨hrun, hdue⟩]

/-- A one written clears its flag, a zero keeps it (10_state.md R37, R38). -/
theorem writeStatus_eq (v : Word) (s : Arch) :
    writeStatus v s = { s with
      done := if v.getLsbD 1 then false else s.done
      err := if v.getLsbD 2 then false else s.err
      errcode := if v.getLsbD 2 then .noError else s.errcode } := by
  have clears (b c : Bool) : (b && !c) = if c then false else b := by cases c <;> simp
  simp only [writeStatus, clears]

/-- Settles O28: the step of a word write, at the offset of `STATUS`. -/
theorem statusWriteClearsByOnes : Obligations.StatusWriteClearsByOnes := by
  unfold Obligations.StatusWriteClearsByOnes
  intro s v rest hn
  refine ⟨_, step_write ⟨by decide, by decide⟩ hn, ?_⟩
  rw [busWrite_status]
  exact ⟨rfl, rfl, writeStatus_eq v s.toArch⟩

end Sys2Proof.StateMap
end

section
/-!
What the commands and the Host's events leave unchanged: the frames of the writes and of the completion steps, and from
them the rules of 10_state.md R38 to R40 about which step changes a flag.
-/

namespace Sys2Proof.StateFrame

open Machine Laws StateMap
open Config (Params)

/-! ### Writes -/

/-- A write to a register changes no field of `STATUS`, nor the Sequencer. -/
theorem writeReg_status (v : Word) (s : Arch) (r : Reg) :
    (writeReg v s r).err = s.err ∧ (writeReg v s r).errcode = s.errcode ∧ (writeReg v s r).signal = s.signal ∧
      (writeReg v s r).cfgv = s.cfgv := by
  cases r <;> exact ⟨rfl, rfl, rfl, rfl⟩

/-- A write to an input location is a write to a register, a write to a local memory that the Host writes, or none. -/
theorem writeInput_cases {v : Word} {off : Nat} {s : Arch} (h : (locate off).isInput = true) :
    (∃ r, writeInput v off s = writeReg v s r) ∨
      ∃ m : Ram, m.holds off = true ∧ m.kind = .rw ∧ writeInput v off s = writeRam v m off s := by
  unfold writeInput
  rcases locate_cases off with ⟨r, -, e⟩ | ⟨m, hm, e⟩ | ⟨-, -, e⟩
  · exact Or.inl ⟨r, by rw [e]⟩
  · rw [e] at h
    exact Or.inr ⟨m, hm, by simpa [Loc.isInput] using h, by rw [e]⟩
  · rw [e] at h
    cases h

theorem writeInput_status {v : Word} {off : Nat} {s : Arch} (h : (locate off).isInput = true) :
    (writeInput v off s).err = s.err ∧ (writeInput v off s).errcode = s.errcode ∧
      (writeInput v off s).signal = s.signal ∧ (writeInput v off s).cfgv = s.cfgv := by
  rcases writeInput_cases (v := v) (s := s) h with ⟨r, e⟩ | ⟨m, -, -, e⟩
  · rw [e]
    exact writeReg_status v s r
  · rw [e]
    exact ⟨rfl, rfl, rfl, rfl⟩

/-! ### Completion steps -/

/-- The registers that a QBLK which passes its check may change are `SFCNT` and `SIGNAL`. -/
theorem qblkResults_eq (P : Params) (s : Arch) :
    qblkResults P s =
      { s with mem := (qblkResults P s).mem, sfcnt := (qblkResults P s).sfcnt, signal := blockHasSignal P s } := by
  have stages := sameRegs_trans
    (sameRegs_trans (s := s) (t := clearOutputs s) rfl (sameRegs_of_mem (maskStage_eq P (clearOutputs s))))
    (qlevelStage_eq P _)
  cases h : blockHasSignal P s with
  | false =>
    rw [qblkResults, h]
    rfl
  | true =>
    simp only [qblkResults, h, if_true]
    rw [stages]

theorem signal_qblkResults (P : Params) (s : Arch) : (qblkResults P s).signal = blockHasSignal P s := by
  rw [qblkResults_eq]

theorem cfgv_qblkResults (P : Params) (s : Arch) : (qblkResults P s).cfgv = s.cfgv := by
  rw [qblkResults_eq]

/-- A completion step records an error, or the command's results are there and the command is done. -/
theorem completed_cases (P : Params) (op : Instr) (s : Arch) :
    (∃ e, e ≠ .noError ∧ completed P op s = failCommand e s) ∨
      (op = .limbw ∧ LimbwReady s ∧ completed P op s = completeCommand (limbwResults P s)) ∨
      (op = .qblk ∧ QblkReady P s ∧ completed P op s = completeCommand (qblkResults P s)) := by
  cases op with
  | limbw =>
    rcases limbwComplete_cases P s with ⟨e, he, -, h⟩ | h
    · exact Or.inl ⟨e, he, h⟩
    · exact Or.inr (Or.inl ⟨rfl, h⟩)
  | qblk =>
    rcases qblkComplete_cases P s with ⟨e, he, -, h⟩ | h
    · exact Or.inl ⟨e, he, h⟩
    · exact Or.inr (Or.inr ⟨rfl, h⟩)

/-! ### The error latch (10_state.md R38) -/

/-- `ERR` and `ERRCODE` are as they were, or the first error has been recorded. -/
def LatchKeptOrSet (s t : Arch) : Prop :=
  (t.err = s.err ∧ t.errcode = s.errcode) ∨ (s.err = false ∧ t.err = true ∧ t.errcode ≠ .noError)

theorem recordError_latch {e : ErrCode} (he : e ≠ .noError) (s : Arch) : LatchKeptOrSet s (recordError e s) := by
  cases h : s.err with
  | true => exact Or.inl (by simp [h])
  | false => exact Or.inr (by simp [h, he])

theorem completed_latch (P : Params) (op : Instr) (s : Arch) : LatchKeptOrSet s (completed P op s) := by
  rcases completed_cases P op s with ⟨e, he, h⟩ | ⟨-, -, h⟩ | ⟨-, -, h⟩
  · rw [h]
    exact recordError_latch he s
  · rw [h]
    exact Or.inl ⟨rfl, rfl⟩
  · rw [h, qblkResults_eq]
    exact Or.inl ⟨rfl, rfl⟩

/-- An event other than a reset keeps or sets the latch, unless it is the write that clears it. -/
theorem eventEffect_latch {s : State} {e : HostEvent} {a : Arch} (h : EventEffect s e a) :
    LatchKeptOrSet s.toArch a ∨
      ∃ v, e = .access (.write 0x0C .word v) ∧ v.getLsbD 2 = true ∧ a.err = false ∧ a.errcode = .noError := by
  cases h with
  | none h => exact Or.inl (Or.inl ⟨by rw [h], by rw [h]⟩)
  | ctrl v _ h => exact Or.inl (Or.inl ⟨by rw [h]; rfl, by rw [h]; rfl⟩)
  | status v he h =>
    rw [writeStatus_eq] at h
    cases hv : v.getLsbD 2 with
    | true => exact Or.inr ⟨v, he, hv, by rw [h, hv]; rfl, by rw [h, hv]; rfl⟩
    | false => exact Or.inl (Or.inl ⟨by rw [h, hv]; rfl, by rw [h, hv]; rfl⟩)
  | refused c hc _ h =>
    subst h
    exact Or.inl (recordError_latch (by rcases hc with rfl | rfl <;> decide) _)
  | illegal _ h =>
    subst h
    exact Or.inl (recordError_latch (by decide) _)
  | accepted op _ h => exact Or.inl (Or.inl ⟨by rw [h]; rfl, by rw [h]; rfl⟩)
  | input off v _ _ hin _ h =>
    obtain ⟨herr, hcode, -, -⟩ := writeInput_status (v := v) (s := s.toArch) hin
    subst h
    exact Or.inl (Or.inl ⟨herr, hcode⟩)

/-- Settles O29: completion steps and events keep or set the latch, but for the acknowledging write and reset. -/
theorem errorLatchChangesOnlyByItsRules : Obligations.ErrorLatchChangesOnlyByItsRules := by
  unfold Obligations.ErrorLatchChangesOnlyByItsRules
  intro s t hstep
  have keptOrSet (h : LatchKeptOrSet s.toArch t.toArch) (q : Prop) :
      (t.err = s.err ∧ t.errcode = s.errcode) ∨ (s.err = false ∧ t.err = true ∧ t.errcode ≠ .noError) ∨ q :=
    h.imp_right Or.inl
  rcases step_next_cases hstep with ⟨op, -, -, rfl⟩ | ⟨i, rest, hn, ht⟩ | ⟨e, rest, hn, -, he⟩ | ⟨-, rfl⟩
  · exact keptOrSet (completed_latch _ op s.toArch) _
  · exact Or.inr (Or.inr (Or.inr ⟨i, rest, hn, by rw [ht]; rfl, by rw [ht]; rfl⟩))
  · rcases eventEffect_latch he with h | ⟨v, rfl, h⟩
    · exact keptOrSet h _
    · exact Or.inr (Or.inr (Or.inl ⟨v, rest, hn, h⟩))
  · exact Or.inl ⟨rfl, rfl⟩

/-! ### `CFGV` and `SIGNAL` (10_state.md R39, R40) -/

theorem eventEffect_flags {s : State} {e : HostEvent} {a : Arch} (h : EventEffect s e a) :
    a.signal = s.signal ∧ a.cfgv = s.cfgv := by
  cases h with
  | none h => rw [h]; exact ⟨rfl, rfl⟩
  | ctrl v _ h => rw [h]; exact ⟨rfl, rfl⟩
  | status v _ h => rw [h]; exact ⟨rfl, rfl⟩
  | refused c _ _ h => rw [h]; exact ⟨rfl, rfl⟩
  | illegal _ h => rw [h]; exact ⟨rfl, rfl⟩
  | accepted op _ h => rw [h]; exact ⟨rfl, rfl⟩
  | input off v _ _ hin _ h => rw [h]; exact (writeInput_status hin).2.2

/-- A step that changes `SIGNAL` or `CFGV` completes a command without error or is a reset, which clears both. -/
theorem flags_change {s t : State} (hstep : step s = .next t) (hne : ¬ (t.signal = s.signal ∧ t.cfgv = s.cfgv)) :
    (s.seq = .run .limbw ∧ LimbwReady s.toArch ∧ t.toArch = completeCommand (limbwResults machineParams s.toArch)) ∨
      (s.seq = .run .qblk ∧ QblkReady machineParams s.toArch ∧
        t.toArch = completeCommand (qblkResults machineParams s.toArch)) ∨
      (t.signal = false ∧ t.cfgv = false ∧ ∃ i rest, NextEvent s (.reset i) rest) := by
  rcases step_next_cases hstep with ⟨op, hrun, -, rfl⟩ | ⟨i, rest, hn, ht⟩ | ⟨e, rest, -, -, he⟩ | ⟨-, rfl⟩
  · rcases completed_cases machineParams op s.toArch with ⟨e, -, h⟩ | ⟨rfl, hr, h⟩ | ⟨rfl, hr, h⟩
    · exact absurd ⟨by rw [h]; rfl, by rw [h]; rfl⟩ hne
    · exact Or.inl ⟨hrun, hr, h⟩
    · exact Or.inr (Or.inl ⟨hrun, hr, h⟩)
  · exact Or.inr (Or.inr ⟨by rw [ht]; rfl, by rw [ht]; rfl, i, rest, hn⟩)
  · exact absurd (eventEffect_flags he) hne
  · exact absurd ⟨rfl, rfl⟩ hne

/-- Settles O30: of the two completions only that of LIMBW touches `CFGV`. -/
theorem cfgvIsSetByLimbwAndClearedByReset : Obligations.CfgvIsSetByLimbwAndClearedByReset := by
  unfold Obligations.CfgvIsSetByLimbwAndClearedByReset
  intro s t hstep hne
  rcases flags_change hstep (fun h => hne h.2) with ⟨hrun, hready, ht⟩ | ⟨-, -, ht⟩ | ⟨-, hcfgv, hreset⟩
  · exact Or.inl ⟨by rw [ht]; rfl, hrun, hready, by rw [ht]; rfl⟩
  · exact absurd (by rw [ht, completeCommand_cfgv, cfgv_qblkResults]) hne
  · exact Or.inr ⟨hcfgv, hreset⟩

/-- Settles O31: of the two completions only that of QBLK touches `SIGNAL`, and sets it to the silence scan. -/
theorem signalChangesOnlyByQblkOrReset : Obligations.SignalChangesOnlyByQblkOrReset := by
  unfold Obligations.SignalChangesOnlyByQblkOrReset
  intro s t hstep hne
  rcases flags_change hstep (fun h => hne h.1) with ⟨-, -, ht⟩ | ⟨hrun, hready, ht⟩ | ⟨hsignal, -, hreset⟩
  · exact absurd (by rw [ht]; rfl) hne
  · refine Or.inl ⟨hrun, hready, by rw [ht]; rfl, ?_⟩
    rw [ht, completeCommand_signal, signal_qblkResults, blockHasSignal_iff]
  · exact Or.inr ⟨hsignal, hreset⟩

/-! ### What a command leaves (10_state.md R43 to R58, 43_qblk.md R187) -/

/-- The inputs of the commands lie apart from their outputs. -/
theorem input_byte_bounds {m : Ram} {x : Nat} (hk : m.kind = .rw) (h : m.holds x = true) :
    x < 0xC00 ∨ (0x1400 ≤ x ∧ x < 0x4000) := by
  rw [holds_iff] at h
  cases m with
  | sf | bandq | xi => cases hk
  | sfboff | widthLong | widthShort | xr =>
    simp only [Ram.base, Ram.bytes, Ram.count, Ram.stride] at h
    omega

/-- A QBLK that passes its check writes bytes of `SF`, `BANDQ` and `XI` only. -/
theorem qblkResults_byte {P : Params} {s : Arch} (hr : QblkReady P s) {x : Nat}
    (hx : x < 0xC00 ∨ (0x1400 ≤ x ∧ x < 0x4000)) : byteAt P (qblkResults P s) x = byteAt P s x := by
  by_cases hsig : BlockSignal P s
  · have hn : s.nsfb.toNat ≤ 128 := hr.2.1
    obtain ⟨-, -, hbyte, -⟩ := stages_spec P s hr
    rw [qblkResults_signal hsig]
    exact hbyte x (by omega) (by omega) (by omega)
  · rw [qblkResults_silent hsig]
    exact clearOutputs_byte P s (by omega)

theorem byteAt_completeCommand (P : Params) (s : Arch) (x : Nat) : byteAt P (completeCommand s) x = byteAt P s x := rfl

theorem completed_byte (P : Params) (op : Instr) (s : Arch) {x : Nat} (hx : x < 0xC00 ∨ (0x1400 ≤ x ∧ x < 0x4000)) :
    byteAt P (completed P op s) x = byteAt P s x := by
  rcases completed_cases P op s with ⟨e, -, h⟩ | ⟨-, -, h⟩ | ⟨-, hr, h⟩
  · rw [h]; rfl
  · rw [h]; rfl
  · rw [h, byteAt_completeCommand]
    exact qblkResults_byte hr hx

/-- The registers that a completion step does not write. -/
structure SameInputRegs (s t : Arch) : Prop where
  inputs : s.bwReq = t.bwReq ∧ s.rate = t.rate ∧ s.ncbShort = t.ncbShort ∧ s.ncbLong = t.ncbLong ∧
    s.blktype = t.blktype ∧ s.nsfb = t.nsfb ∧ s.quality = t.quality ∧ s.refenrg = t.refenrg
  ctrl : t.ctrl = s.ctrl
  lastop : t.lastop = s.lastop
  ramEpoch : t.ramEpoch = s.ramEpoch

theorem completed_regs (P : Params) (op : Instr) (s : Arch) :
    SameInputRegs s (completed P op s) ∧ (completed P op s).seq = .idle := by
  rcases completed_cases P op s with ⟨e, -, h⟩ | ⟨-, -, h⟩ | ⟨-, -, h⟩
  · rw [h]
    exact ⟨⟨⟨rfl, rfl, rfl, rfl, rfl, rfl, rfl, rfl⟩, rfl, rfl, rfl⟩, rfl⟩
  · rw [h]
    exact ⟨⟨⟨rfl, rfl, rfl, rfl, rfl, rfl, rfl, rfl⟩, rfl, rfl, rfl⟩, rfl⟩
  · rw [h, qblkResults_eq]
    exact ⟨⟨⟨rfl, rfl, rfl, rfl, rfl, rfl, rfl, rfl⟩, rfl, rfl, rfl⟩, rfl⟩

/-- Settles O34: the registers by the frame of the completion step, the bytes by where its outputs lie. -/
theorem commandsLeaveInputsUnchanged : Obligations.CommandsLeaveInputsUnchanged := by
  unfold Obligations.CommandsLeaveInputsUnchanged
  intro op s
  obtain ⟨⟨hregs, hctrl, hlastop, hepoch⟩, hidle⟩ := completed_regs machineParams op s.toArch
  obtain ⟨hbwReq, hrate, hshort, hlong, hblktype, hnsfb, hquality, hrefenrg⟩ := hregs
  have hbytes : ∀ m : Ram, m.kind = .rw → ∀ x, m.holds x = true →
      byteAt machineParams s.toArch x = byteAt machineParams (completed machineParams op s.toArch) x :=
    fun m hk x hx => (completed_byte machineParams op s.toArch (input_byte_bounds hk hx)).symm
  exact ⟨_, exec_eq op s, ⟨hbwReq, hrate, hshort, hlong, hblktype, hnsfb, hquality, hrefenrg, hbytes⟩, hctrl, hlastop,
    hepoch, hidle, rfl, rfl, rfl, rfl⟩

end Sys2Proof.StateFrame
end

section
/-!
The values that the companding stage stores lie in 0..2^31-1 (10_state.md R59, 42_companding.md R166): the quantity that
`TruncQ` is given never has its sign bit set.
-/

namespace Sys2Proof.Quantized

open Machine Laws Arithmetic
open Config (Params)

theorem sqrt64_zero_or_unsigned (x : F64) : isZero (sqrt64 x) = true ∨ signOf (sqrt64 x) = false := by
  cases hn : isNaN x with
  | true => exact Or.inr (by simp [sqrt64, hn]; decide)
  | false =>
    cases hz : isZero x with
    | true => exact Or.inl (by simp [sqrt64, hn, hz])
    | false =>
      cases hs : signOf x with
      | true => exact Or.inr (by simp [sqrt64, hn, hz, hs]; decide)
      | false =>
        rcases not_nan_cases x hn with hi | hf
        · exact Or.inr (by simp [sqrt64, hn, hz, hs, hi])
        · exact Or.inr (by rw [sqrt64_positive hf hz hs, signOf_round64])

theorem valueOf_nonneg {x : F64} (h : isZero x = true ∨ signOf x = false) : 0 ≤ valueOf x := by
  rcases h with hz | hs
  · simp [valueOf, unitsOf_of_zero hz]
  · simp [valueOf, hs]

theorem valueOf_pos {x : F64} (hf : isFinite x = true) (hz : isZero x = false) (hs : signOf x = false) :
    0 < valueOf x := by
  have hne : unitsOf x ≠ 0 := by
    rw [Ne, unitsOf_eq_zero hf, ← isZero_iff, hz]
    exact Bool.false_ne_true
  simp [valueOf, hs, Nat.pos_of_ne_zero hne]

/-- A sum with a positive finite value has its sign bit clear. -/
theorem signOf_add64_positive {x c : F64} (hx : isZero x = true ∨ signOf x = false) (hc : isFinite c = true)
    (hpos : 0 < valueOf c) : signOf (add64 x c) = false := by
  cases hn : isNaN x with
  | true => rw [add64_nan (Or.inl hn)]; decide
  | false =>
    rcases not_nan_cases x hn with hi | hf
    · rw [(add64_inf_absorbs hi (finite_not_nan hc).1 (Or.inl hc)).1]
      exact hx.resolve_left (by rw [inf_not_zero hi]; decide)
    · have hsum := valueOf_nonneg hx
      rw [add64_finite hf hc, if_neg (by omega), signOf_round64]
      exact decide_eq_false (by omega)

theorem orderKey_of_unsigned {x : F64} (hs : signOf x = false) : orderKey x = magOf x := by
  simp [orderKey, hs]

theorem two_pow_mul_two_pow {a b c d : Nat} (h : a + b = c + d) : 2 ^ a * 2 ^ b = 2 ^ c * 2 ^ d := by
  rw [← Nat.pow_add, h, Nat.pow_add]

/-- The units of 2^31, the upper bound of `TruncQ`. -/
theorem unitsOfMag_two_pow_31 : unitsOfMag 0x41E0000000000000 = 2147483648 * unitsPerOne := by
  have h := unitsOfMag_binade (k := 1053) (q := 2 ^ 52) (by decide) (by decide) (Or.inr (le_refl _))
  have hsplit : 2 ^ 52 * 2 ^ 1053 = 2 ^ 31 * 2 ^ 1074 := two_pow_mul_two_pow (by decide)
  rw [unitsPerOne, show (2147483648 : Nat) = 2 ^ 31 by decide, ← hsplit, ← h]
  congr 1

theorem unitsOf_lt_of_lt64 {u : F64} (hn : isNaN u = false) (hs : signOf u = false)
    (h : lt64 u 0x41E0000000000000 = true) : unitsOf u < 2147483648 * unitsPerOne := by
  have hkey : orderKey 0x41E0000000000000 = (0x41E0000000000000 : Nat) := by decide
  rw [lt64_iff hn (by decide), orderKey_of_unsigned hs, hkey, Int.ofNat_lt] at h
  rw [unitsOf_eq_mag, ← unitsOfMag_two_pow_31]
  exact unitsOfMag_lt h (by decide)

theorem truncQ_bounds {u : F64} (hs : signOf u = false) : 0 ≤ truncQ u ∧ truncQ u ≤ 2147483647 := by
  obtain ⟨ofNaN, saturated, -, -⟩ := truncQTruncatesAndSaturates u
  cases hn : isNaN u with
  | true => simp [ofNaN hn]
  | false =>
    cases htop : lt64 u 0x41E0000000000000 with
    | false => simp [saturated hn htop]
    | true =>
      have hlow : gt64 u 0xC1E0000000200000 = true := by
        have hkey : orderKey 0xC1E0000000200000 < 0 := by decide
        rw [gt64_iff hn (by decide), orderKey_of_unsigned hs]
        omega
      have hdiv : unitsOf u / unitsPerOne < 2147483648 :=
        Nat.div_lt_of_lt_mul (by rw [Nat.mul_comm]; exact unitsOf_lt_of_lt64 hn hs htop)
      have hq : truncQ u = (unitsOf u / unitsPerOne : Nat) := by
        rw [truncQ_inRange hn htop hlow, signed, hs]
        rfl
      generalize unitsOf u / unitsPerOne = q at hq hdiv
      omega

theorem compand_bounds (m x : F64) : 0 ≤ compand m x ∧ compand m x ≤ 2147483647 :=
  truncQ_bounds (signOf_add64_positive (sqrt64_zero_or_unsigned _) (by decide)
    (valueOf_pos (by decide) (by decide) (by decide)))

/-- Every word that companding stores for a line has its sign bit clear. -/
theorem quantizeBand_word_lt {P : Params} {target : F64} {lines : List F64} {w : Word}
    (h : w ∈ (quantizeBand P target lines).2) : w.toNat < 2 ^ 31 := by
  cases hsil : silentBand target lines with
  | true =>
    rw [quantizeBand, if_pos hsil] at h
    obtain ⟨-, -, rfl⟩ := List.mem_map.mp h
    decide
  | false =>
    rw [quantizeBand_of_signal P target lines hsil] at h
    obtain ⟨x, -, rfl⟩ := List.mem_map.mp h
    obtain ⟨hlow, hhigh⟩ := compand_bounds (multiplier P (scaleFactor P target (rmsOf lines lines.length))) x
    rw [BitVec.toNat_ofInt]
    omega

end Sys2Proof.Quantized
end

section
/-!
Every operation of the machine keeps the invariant `Arch.Inv`: first the part of it that speaks of the listed bytes,
then the registers, then the completion steps, the Host's events and the step.
-/

namespace Sys2Proof.Invariant

open Machine Laws StateMap StateFrame Quantized
open Config (Params)

/-! ### The listed bytes -/

/-- A byte that may be listed at an offset: the offset is one of a local memory, and in the top byte of an element of
`XI` the sign bit is 0. -/
def CellLegal (x : Nat) (b : Byte) : Prop :=
  isRamByte x = true ∧ (Ram.xi.holds x = true → x % 4 = 3 → b.toNat < 128)

/-- What the invariant says of the local memories. -/
structure MemLegal (m : Memory) : Prop where
  wf : m.wf
  cells : ∀ c ∈ m, CellLegal c.1 c.2

theorem memLegal_of_inv {s : Arch} (h : s.Inv) : MemLegal s.mem :=
  ⟨h.memWf, fun c hc => ⟨h.memInRam c hc, h.xiNonneg c hc⟩⟩

/-- A change of the local memories alone keeps the invariant where their bytes are legal. -/
theorem inv_with_mem {s : Arch} (h : s.Inv) {m : Memory} (hm : MemLegal m) : ({ s with mem := m } : Arch).Inv :=
  { h with memWf := hm.wf, memInRam := fun c hc => (hm.cells c hc).1, xiNonneg := fun c hc => (hm.cells c hc).2 }

/-- A stored byte of a local memory may be listed, and at the top of an element of `XI` if its sign bit is 0. -/
theorem cellLegal_of_holds {m : Ram} {x : Nat} {b : Byte} (h : m.holds x = true) (hk : x % 4 < m.kept)
    (hxi : m = .xi → x % 4 = 3 → b.toNat < 128) : CellLegal x b := by
  refine ⟨List.any_eq_true.mpr ⟨m, mem_ram_all m, ?_⟩, fun hx => hxi (ram_eq_of_holds h hx)⟩
  rw [h, decide_eq_true hk]
  rfl

/-- A block write of legal bytes keeps the local memories legal. -/
theorem writeBlock_legal {m : Memory} (hm : MemLegal m) {a : Nat} {bs : List Byte}
    (hbs : ∀ k b, bs[k]? = some b → CellLegal (a + k) b) : MemLegal (m.writeBlock a bs) := by
  refine ⟨writeBlock_wf hm.wf a bs, fun c hc => ?_⟩
  rcases mem_writeBlock_get hc with ⟨hc, -⟩ | ⟨hle, -, hget⟩
  · exact hm.cells c hc
  · have h := hbs _ _ hget
    rwa [Nat.add_sub_cancel' hle] at h

theorem ram_bounds_aligned (m : Ram) : m.base % 4 = 0 ∧ m.bytes % 4 = 0 := by cases m <;> decide

/-- A write by the Host keeps the local memories legal: `XI` is not among those it writes. -/
theorem writeRam_legal {s : Arch} (hl : MemLegal s.mem) {m : Ram} {off : Nat} {v : Word} (hk : m.kind = .rw)
    (h : m.holds off = true) (h4 : off % 4 = 0) : MemLegal (writeRam v m off s).mem := by
  refine writeBlock_legal hl (fun k b hb => ?_)
  obtain ⟨hlt, -⟩ := List.getElem?_eq_some_iff.mp hb
  rw [length_leBytes] at hlt
  have hkept : m.kept ≤ 4 := by cases m <;> decide
  obtain ⟨hbase, hbytes⟩ := ram_bounds_aligned m
  rw [holds_iff] at h
  exact cellLegal_of_holds (m := m) (holds_iff.mpr (by omega)) (by omega) (by rintro rfl; cases hk)

theorem leBytes_getElem?_top (v : Nat) : (leBytes 4 v)[3]? = some (BitVec.ofNat 8 (v / 256 / 256 / 256)) := rfl

/-- The top byte of each word in a row. -/
theorem wordBytes_top {ws : List Word} {k : Nat} {b : Byte} (h3 : k % 4 = 3)
    (hb : (ws.flatMap (fun w => leBytes 4 w.toNat))[k]? = some b) :
    ∃ w ∈ ws, b = BitVec.ofNat 8 (w.toNat / 2 ^ 24) := by
  obtain ⟨hlt, -⟩ := List.getElem?_eq_some_iff.mp hb
  rw [length_wordBytes] at hlt
  have hi : k / 4 < ws.length := by omega
  have hslice := congrArg (fun l => l[3]?) (wordBytes_slice ws (k / 4) hi)
  simp only [List.getElem?_take_of_lt (show 3 < 4 by decide), List.getElem?_drop, leBytes_getElem?_top] at hslice
  rw [show 4 * (k / 4) + 3 = k by omega, hb, Option.some_inj, Nat.div_div_eq_div_mul, Nat.div_div_eq_div_mul] at hslice
  exact ⟨_, List.getElem_mem hi, hslice⟩

/-- Words stored in a 32-bit memory keep the local memories legal, if in `XI` they are not negative. -/
theorem putWords_legal {s : Arch} (hl : MemLegal s.mem) {m : Ram} (hk : m.kept = 4) (hs : m.stride = 4) {i : Nat}
    {ws : List Word} (hi : i + ws.length ≤ m.count) (hw : m = .xi → ∀ w ∈ ws, w.toNat < 2 ^ 31) :
    MemLegal (putWords s (m.addr i) ws).mem := by
  refine writeBlock_legal hl (fun k b hb => ?_)
  obtain ⟨hlt, -⟩ := List.getElem?_eq_some_iff.mp hb
  rw [length_wordBytes] at hlt
  have hbase := (ram_bounds_aligned m).1
  have haddr : m.addr i = m.base + 4 * i := by rw [Ram.addr, hs]
  have hbytes : m.bytes = m.count * 4 := by rw [Ram.bytes, hs]
  refine cellLegal_of_holds (m := m) (holds_iff.mpr (by omega)) (by omega) (fun hm h3 => ?_)
  obtain ⟨w, hmem, rfl⟩ := wordBytes_top (by omega) hb
  have := hw hm w hmem
  rw [BitVec.toNat_ofNat]
  omega

/-- A target stored in `BANDQ` keeps the local memories legal. -/
theorem maskBand_legal (P : Params) {s : Arch} (hl : MemLegal s.mem) {b : Nat} (hb : b < 128) :
    MemLegal (maskBand P s b).mem := by
  refine writeBlock_legal hl (fun k v hv => ?_)
  obtain ⟨hlt, -⟩ := List.getElem?_eq_some_iff.mp hv
  rw [length_leBytes] at hlt
  exact cellLegal_of_holds (m := .bandq)
    (holds_iff.mpr (by simp only [Ram.addr, Ram.base, Ram.stride, Ram.bytes, Ram.count]; omega))
    (Nat.mod_lt _ (by decide)) (fun h => by cases h)

/-! ### The stages of QBLK -/

theorem clearOutputs_legal {s : Arch} (hl : MemLegal s.mem) : MemLegal (clearOutputs s).mem := by
  refine putWords_legal (m := .xi) (i := 0) hl rfl rfl ?_ (fun _ w hw => ?_)
  · rw [List.length_replicate]
    decide
  · rw [List.eq_of_mem_replicate hw]
    decide

theorem maskStage_legal (P : Params) {s : Arch} (hl : MemLegal s.mem) (hn : s.nsfb.toNat ≤ 128) :
    MemLegal (maskStage P s).mem :=
  foldl_range_induction (maskBand P) s (fun _ t => MemLegal t.mem) hl _
    (fun _ _ hb ht => maskBand_legal P ht (by omega))

/-- Companding one band of the block keeps the local memories legal. -/
theorem qlevelBand_legal (P : Params) {t : Arch} (hl : MemLegal t.mem) {b : Nat} (hsf : t.sfcnt.toNat < 128)
    (hlo : sfboffAt P t b ≤ sfboffAt P t (b + 1)) (hhi : sfboffAt P t (b + 1) ≤ 1024) :
    MemLegal (qlevelBand P t b).mem := by
  refine putWords_legal (m := .sf) ?_ rfl rfl (Nat.succ_le_of_lt hsf) (fun h => by cases h)
  refine putWords_legal (m := .xi) hl rfl rfl ?_ (fun _ w hw => quantizeBand_word_lt hw)
  rw [length_quantizeBand, length_linesOf]
  simp only [bandBounds, Ram.count]
  omega

/-- What the companding stage has left after the first `n` bands is legal. -/
theorem qlevelUpTo_legal (P : Params) {s : Arch} (hl : MemLegal s.mem) (hn : s.nsfb.toNat ≤ 128)
    (hv : BandTableValid P s) (h0 : s.sfcnt = 0) (n : Nat) (hle : n ≤ s.nsfb.toNat) :
    MemLegal ((List.range n).foldl (qlevelBand P) s).mem := by
  induction n with
  | zero => exact hl
  | succ n ih =>
    obtain ⟨hsame, hcount, -, -⟩ := qlevelUpTo_spec P s hn hv h0 n (by omega)
    have hlo := hv.2.1 n (by omega)
    have hhi := sfboffAt_le_block hv hle
    rw [sfboffAt_congr hsame (by omega)] at hlo hhi
    rw [sfboffAt_congr hsame (by omega)] at hlo
    rw [List.range_succ, List.foldl_append]
    exact qlevelBand_legal P (ih (by omega)) (by omega) hlo.le hhi

/-- The results of a QBLK that passes its check keep the local memories legal. -/
theorem qblkResults_legal {P : Params} {s : Arch} (hl : MemLegal s.mem) (hr : QblkReady P s) :
    MemLegal (qblkResults P s).mem := by
  by_cases hsig : BlockSignal P s
  · obtain ⟨-, hn, hv⟩ := hr
    have hn : s.nsfb.toNat ≤ 128 := hn
    have hvc := BandTableValid.congr (clearOutputs_sameBlock P s) hn hv
    obtain ⟨hsame, -, -⟩ := maskStage_spec P (clearOutputs s) hn hvc
    have hnsfb : (maskStage P (clearOutputs s)).nsfb = s.nsfb := hsame.nsfb.symm
    have h0 : (maskStage P (clearOutputs s)).sfcnt = 0 := by rw [maskStage_eq]; rfl
    rw [qblkResults_signal hsig]
    exact qlevelUpTo_legal P (maskStage_legal P (clearOutputs_legal hl) hn) (by rw [hnsfb]; exact hn)
      (BandTableValid.congr hsame hn hvc) h0 _ (le_refl _)
  · rw [qblkResults_silent hsig]
    exact clearOutputs_legal hl

/-- `SFCNT` after a QBLK that passes its check (43_qblk.md R184, R185). -/
theorem sfcnt_qblkResults {P : Params} {s : Arch} (hr : QblkReady P s) :
    (qblkResults P s).sfcnt = if blockHasSignal P s then s.nsfb else 0 := by
  by_cases hsig : BlockSignal P s
  · obtain ⟨hregs, -⟩ := stages_spec P s hr
    rw [if_pos (blockHasSignal_iff.mpr hsig), qblkResults_signal hsig]
    exact congrArg Arch.sfcnt hregs
  · rw [if_neg (mt blockHasSignal_iff.mp hsig), qblkResults_silent hsig]
    rfl

/-! ### Errors, acceptance and completion -/

theorem recordError_keeps_inv {e : ErrCode} (he : e ≠ .noError) {s : Arch} (h : s.Inv) : (recordError e s).Inv := by
  refine { h with errCode := ?_ }
  cases herr : s.err with
  | false => simp [herr, he]
  | true =>
    have hcode : s.errcode ≠ .noError := fun hc => by rw [h.errCode.mpr hc] at herr; cases herr
    simp [herr, hcode]

theorem idle_keeps_inv {s : Arch} (h : s.Inv) : ({ s with seq := .idle } : Arch).Inv :=
  { h with
    runLastop := fun op hop => by cases hop
    runNotDone := fun hb => by cases hb }

theorem failCommand_keeps_inv {e : ErrCode} (he : e ≠ .noError) {s : Arch} (h : s.Inv) : (failCommand e s).Inv :=
  idle_keeps_inv (recordError_keeps_inv he h)

theorem opcodeByte_legal (op : Instr) : opcodeByte op ≠ 0x00 ∧ (opcodeByte op = 0x01 ∨ opcodeByte op = 0x02) := by
  cases op <;> decide

/-- A command that ends without error was in flight, so that `LASTOP` names it. -/
theorem completeCommand_keeps_inv {s : Arch} (h : s.Inv) {op : Instr} (hrun : s.seq = .run op) :
    (completeCommand s).Inv :=
  { idle_keeps_inv h with
    runNotDone := fun hb => by cases hb
    doneLastop := fun _ => by
      rw [completeCommand_lastop, h.runLastop op hrun]
      exact (opcodeByte_legal op).1 }

theorem acceptCommand_keeps_inv (op : Instr) {s : Arch} (h : s.Inv) : (acceptCommand op s).Inv :=
  { h with
    runLastop := fun op' hop => by cases hop; rfl
    runNotDone := fun _ => rfl
    lastopLegal := Or.inr (opcodeByte_legal op).2
    doneLastop := fun hd => by cases hd }

/-! ### Writes -/

theorem writeStatus_keeps_inv (v : Word) {s : Arch} (h : s.Inv) : (writeStatus v s).Inv := by
  refine { h with runNotDone := fun hb => ?_, errCode := ?_, doneLastop := fun hd => ?_ }
  · simp [h.runNotDone hb]
  · cases hv : v.getLsbD 2 with
    | true =>
      rw [writeStatus_eq, hv]
      exact ⟨fun _ => rfl, fun _ => rfl⟩
    | false =>
      rw [writeStatus_eq, hv]
      exact h.errCode
  · exact h.doneLastop (Bool.and_eq_true_iff.mp hd).1

theorem writeReg_keeps_inv (v : Word) {s : Arch} (h : s.Inv) (r : Reg) : (writeReg v s r).Inv := by
  cases r <;> exact { h with }

theorem writeInput_keeps_inv {v : Word} {off : Nat} {s : Arch} (h : s.Inv) (ho : WordOffset off)
    (hin : (locate off).isInput = true) : (writeInput v off s).Inv := by
  rcases writeInput_cases (v := v) (s := s) hin with ⟨r, e⟩ | ⟨m, hm, hk, e⟩
  · rw [e]
    exact writeReg_keeps_inv v h r
  · rw [e]
    exact inv_with_mem h (writeRam_legal (memLegal_of_inv h) hk hm ho.2)

/-! ### The results of the commands -/

theorem shortBound_le (P : Params) (s : Arch) : (shortBound P s).1 ≤ s.ncbShort.toNat := (accum_spec _ _ _).1.1

theorem longBound_le (P : Params) (s : Arch) : (longBound P s).1 ≤ s.ncbLong.toNat := (accum_spec _ _ _).1.1

theorem limbwResults_keeps_inv (P : Params) {s : Arch} (h : s.Inv) (hr : LimbwReady s) : (limbwResults P s).Inv := by
  obtain ⟨-, hshort, hlong⟩ := hr
  have bound_le {k : Nat} (hk : k ≤ Config.maxSfb) : (BitVec.ofNat 16 k).toNat ≤ Config.maxSfb := by
    rw [BitVec.toNat_ofNat]
    exact (Nat.mod_le _ _).trans hk
  exact { h with
    maxcbsLe := bound_le ((shortBound_le P s).trans hshort)
    maxcblLe := bound_le ((longBound_le P s).trans hlong)
    unconfigured := fun hc => by cases hc
    signalCfgv := fun _ => rfl }

/-- The registers and bytes that a QBLK leaves, whether its block has a signal or not. -/
theorem blockOutputs_keep_inv {s : Arch} (h : s.Inv) (hcfgv : s.cfgv = true) (hn : s.nsfb.toNat ≤ Config.maxSfb)
    {m : Memory} (hm : MemLegal m) (sig : Bool) :
    ({ s with mem := m, sfcnt := if sig then s.nsfb else 0, signal := sig } : Arch).Inv := by
  refine { inv_with_mem h hm with sfcntLe := ?_, signalCfgv := fun _ => hcfgv, sfcntSignal := fun hne => ?_ }
  · cases sig with
    | true => exact hn
    | false => exact Nat.zero_le _
  · by_contra hsig
    exact hne (if_neg hsig)

theorem qblkResults_keeps_inv (P : Params) {s : Arch} (h : s.Inv) (hr : QblkReady P s) : (qblkResults P s).Inv := by
  rw [qblkResults_eq, sfcnt_qblkResults hr]
  exact blockOutputs_keep_inv h hr.1 hr.2.1 (qblkResults_legal (memLegal_of_inv h) hr) _

theorem completed_keeps_inv (P : Params) {op : Instr} {s : Arch} (h : s.Inv) (hrun : s.seq = .run op) :
    (completed P op s).Inv := by
  rcases completed_cases P op s with ⟨e, he, hc⟩ | ⟨-, hr, hc⟩ | ⟨-, hr, hc⟩
  · rw [hc]
    exact failCommand_keeps_inv he h
  · rw [hc]
    exact completeCommand_keeps_inv (limbwResults_keeps_inv P h hr) hrun
  · rw [hc]
    exact completeCommand_keeps_inv (qblkResults_keeps_inv P h hr) (by rw [qblkResults_eq]; exact hrun)

/-! ### Reset, events and steps -/

theorem reset_inv (epoch : Nat) : (Arch.reset epoch).Inv where
  memWf := List.Pairwise.nil
  memInRam := fun c hc => by cases hc
  xiNonneg := fun c hc => by cases hc
  runLastop := fun op hop => by cases hop
  runNotDone := fun _ => rfl
  errCode := ⟨fun _ => rfl, fun _ => rfl⟩
  lastopLegal := Or.inl rfl
  sfcntLe := Nat.zero_le _
  maxcbsLe := Nat.zero_le _
  maxcblLe := Nat.zero_le _
  unconfigured := fun _ => ⟨rfl, rfl, rfl⟩
  signalCfgv := fun hs => by cases hs
  sfcntSignal := fun hs => absurd rfl hs
  doneLastop := fun hd => by cases hd

/-- Settles O10: every register is at its reset value, and no byte is listed. -/
theorem resetSatisfiesInvariant : Obligations.ResetSatisfiesInvariant := by
  unfold Obligations.ResetSatisfiesInvariant
  exact ⟨reset_inv 0, reset_inv⟩

/-- The Host's events keep the invariant. -/
theorem eventEffect_keeps_inv {s : State} {e : HostEvent} {a : Arch} (h : s.toArch.Inv) (he : EventEffect s e a) :
    a.Inv := by
  cases he with
  | none ha => rw [ha]; exact h
  | ctrl v _ ha => rw [ha]; exact writeReg_keeps_inv v h .ctrl
  | status v _ ha => rw [ha]; exact writeStatus_keeps_inv v h
  | refused c hc _ ha => rw [ha]; exact recordError_keeps_inv (by rcases hc with rfl | rfl <;> decide) h
  | illegal _ ha => rw [ha]; exact recordError_keeps_inv (by decide) h
  | accepted op _ ha => rw [ha]; exact acceptCommand_keeps_inv op h
  | input off v _ ho hin _ ha => rw [ha]; exact writeInput_keeps_inv h ho hin

/-- Settles O11, by what one step can be: the completion of the command in flight, a reset, another event, or
nothing. -/
theorem stepKeepsInvariant : Obligations.StepKeepsInvariant := by
  unfold Obligations.StepKeepsInvariant
  intro s t h hstep
  rcases step_next_cases hstep with ⟨op, hrun, -, rfl⟩ | ⟨i, rest, -, ht⟩ | ⟨e, rest, -, -, he⟩ | ⟨-, rfl⟩
  · exact completed_keeps_inv machineParams h hrun
  · rw [ht]
    exact reset_inv _
  · exact eventEffect_keeps_inv h he
  · exact h

end Sys2Proof.Invariant
end

section
/-!
The bus as the Host sees it (20_memory.md): an access outside the window is the one stop of the model, a read changes
nothing, a write that is not taken has no effect, and a write that is taken replaces the stored bits of the word it
names and of no other.
-/

namespace Sys2Proof.BusAccess

open Machine Laws StateMap
open Config (Params)

/-! ### The edge of the window (20_memory.md R70) -/

theorem inWindow_false_iff {a : Access} : a.inWindow = false ↔ 0x10000 ≤ a.off := by
  rw [Access.inWindow, decide_eq_false_iff_not, Nat.not_lt]
  rfl

theorem hostAccess_outside {P : Params} {a : Access} {s : State} (h : 0x10000 ≤ a.off) :
    hostAccess P a s = .fault .outsideWindow := by
  simp [hostAccess, inWindow_false_iff.mpr h]

/-- An access inside the window is performed or refused on the bus, and the machine goes on. -/
theorem hostAccess_inside {P : Params} {a : Access} {s : State} (h : a.inWindow = true) :
    ∃ t, hostAccess P a s = .next t := by
  cases hw : a.wellFormed with
  | true => exact ⟨_, hostAccess_ok hw⟩
  | false => exact ⟨_, hostAccess_refused h hw⟩

theorem hostEvent_outcome (P : Params) (e : HostEvent) (s : State) :
    (∃ t, hostEvent P e s = .next t) ∨
      ∃ a, e = .access a ∧ 0x10000 ≤ a.off ∧ hostEvent P e s = .fault .outsideWindow := by
  cases e with
  | wait => exact Or.inl ⟨_, rfl⟩
  | reset i => exact Or.inl ⟨_, rfl⟩
  | access a =>
    cases h : a.inWindow with
    | true => exact Or.inl (hostAccess_inside h)
    | false =>
      have hoff := inWindow_false_iff.mp h
      exact Or.inr ⟨a, rfl, hoff, hostAccess_outside hoff⟩

/-- A step goes on, or it is the Host's turn and its next event is an access outside the window. -/
theorem step_outcome (s : State) :
    (∃ t, step s = .next t) ∨
      ∃ a rest, NextEvent s (.access a) rest ∧ 0x10000 ≤ a.off ∧ step s = .fault .outsideWindow := by
  rcases step_cases s with ⟨op, -, hs⟩ | ⟨-, -, hs⟩ | ⟨e, rest, hd, hb, hs⟩
  · exact Or.inl ⟨_, hs.trans (exec_eq op s)⟩
  · exact Or.inl ⟨s, hs⟩
  · rw [hs]
    rcases hostEvent_outcome machineParams e { s with bus := rest, lat := s.lat - 1 } with h | ⟨a, rfl, hoff, h⟩
    · exact Or.inl h
    · exact Or.inr ⟨a, rest, nextEvent_of_not_due hd hb, hoff, h⟩

/-- Settles O7, by the outcomes that one step can have. -/
theorem stepFaultsOnlyOutsideTheWindow : Obligations.StepFaultsOnlyOutsideTheWindow := by
  unfold Obligations.StepFaultsOnlyOutsideTheWindow
  intro s
  rcases step_outcome s with ⟨t, h⟩ | ⟨a, rest, ⟨hturn, hbus⟩, hoff, h⟩
  · rw [h]
    exact ⟨nofun, nofun⟩
  · rw [h]
    refine ⟨nofun, fun f hf => ?_⟩
    cases hf
    exact ⟨rfl, hturn, a, rest, hbus, hoff⟩

/-- Settles O24: the step is the access's, which lies outside the window. -/
theorem accessOutsideTheWindowFaults : Obligations.AccessOutsideTheWindowFaults := by
  unfold Obligations.AccessOutsideTheWindowFaults
  intro s a rest hoff hn
  exact (step_event hn).trans (hostAccess_outside hoff)

/-! ### Reads (20_memory.md R72) -/

theorem observedWord_of_idle (P : Params) {a : Arch} (h : a.seq = .idle) (off : Nat) (f : Word) :
    observedWord P a off f = storedWord P a off := by
  simp [observedWord, not_busy_iff.mpr h]

/-- A reserved offset is no output, so it reads 0 while a command runs too. -/
theorem observedWord_reserved (P : Params) (a : Arch) {off : Nat} (h : locate off = .reserved) (f : Word) :
    observedWord P a off f = 0 := by
  simp [observedWord, storedWord_reserved P a h, h, Loc.isOutput]

/-- Settles O17: the step of a word read takes a free word and leaves the architectural state. -/
theorem readReturnsAndChangesNothing : Obligations.ReadReturnsAndChangesNothing := by
  unfold Obligations.ReadReturnsAndChangesNothing
  intro s off rest ho hn
  exact ⟨_, _, step_read ho hn, rfl, rfl, rfl, fun hidle => observedWord_of_idle _ hidle off _⟩

/-! ### Writes that are ignored (20_memory.md R77, R78) -/

/-- The step of a word write to a location that takes no write. -/
theorem step_write_ignored {s : State} {off : Nat} {v : Word} {rest : List HostEvent} (ho : WordOffset off)
    (hin : (locate off).isInput = false) (hctrl : off ∉ [0x8, 0xC, 0x10])
    (hn : NextEvent s (.access (.write off .word v)) rest) :
    step s = .next { s with bus := rest, lat := s.lat - 1, resp := some .okayWrite } := by
  simp only [List.mem_cons, List.not_mem_nil, or_false, not_or] at hctrl
  obtain ⟨h8, hC, h10⟩ := hctrl
  rw [step_write ho hn, busWrite_ignored hin h8 hC h10]

theorem isInput_false_of_readOnly {off : Nat} (h : ReadOnlyOffset off) : (locate off).isInput = false := by
  rcases readOnly_locate h with e | e | e
  · rw [e]; rfl
  · rw [e]; rfl
  · exact isInput_false_of_output e

theorem not_control_of_readOnly {off : Nat} (h : ReadOnlyOffset off) : off ∉ [0x8, 0xC, 0x10] := by
  simp only [ReadOnlyOffset, OutputOffset, List.mem_cons, List.not_mem_nil, or_false] at h ⊢
  omega

/-- Settles O21: no read-only location is an input, `CTRL`, `STATUS` or `CMD`. -/
theorem readOnlyLocationsIgnoreWrites : Obligations.ReadOnlyLocationsIgnoreWrites := by
  unfold Obligations.ReadOnlyLocationsIgnoreWrites
  intro s off v rest ho hro hn
  exact ⟨_, step_write_ignored ho (isInput_false_of_readOnly hro) (not_control_of_readOnly hro) hn, rfl, rfl, rfl⟩

/-- Settles O22: nothing of the register map stands at a reserved offset. -/
theorem reservedOffsetsReadZeroAndIgnoreWrites : Obligations.ReservedOffsetsReadZeroAndIgnoreWrites := by
  unfold Obligations.ReservedOffsetsReadZeroAndIgnoreWrites
  intro s off v rest ho hres
  have hloc := reserved_locate ho.2 hres
  have hctrl : off ∉ [0x8, 0xC, 0x10] := fun h => hres (Or.inr (Or.inr h))
  refine ⟨fun hn => ?_, fun hn => ?_⟩
  · exact ⟨_, step_write_ignored ho (by rw [hloc]; rfl) hctrl hn, rfl, rfl⟩
  · exact ⟨_, step_read ho hn, rfl, by rw [observedWord_reserved _ _ hloc]⟩

/-! ### Writes to registers -/

theorem byteAt_writeReg (P : Params) (v : Word) (s : Arch) (r : Reg) (x : Nat) :
    byteAt P (writeReg v s r) x = byteAt P s x := by
  cases r <;> rfl

theorem writeReg_seq (v : Word) (s : Arch) (r : Reg) : (writeReg v s r).seq = s.seq := by
  cases r <;> rfl

/-- A register that takes writes reads back the bits of the word that it stores. -/
theorem readReg_writeReg_same {r : Reg} (hk : r.kind = .rw) (v : Word) (s : Arch) :
    readReg (writeReg v s r) r = v &&& storedMask r.offset := by
  have whole : v = v &&& BitVec.allOnes 32 := BitVec.and_allOnes.symm
  cases r with
  | ctrl | blktype => exact mask_and v 2 (by decide)
  | ncbShort | ncbLong | nsfb => exact mask_and v 16 (by decide)
  | bwReq | rate => exact whole
  | qualityLo | refenrgLo => exact (lo_append _ v).1.trans whole
  | qualityHi | refenrgHi => exact (lo_append v _).2.trans whole
  | id | caps | status | cmd | bwAch | maxcbs | maxcbl | sfcnt => cases hk

/-- The two words of a 64-bit register are written apart; any other register has a field of its own. -/
theorem readReg_writeReg_other {r r' : Reg} (h : r' ≠ r) (v : Word) (s : Arch) :
    readReg (writeReg v s r) r' = readReg s r' := by
  cases r with
  | qualityLo =>
    cases r' with
    | qualityLo => exact absurd rfl h
    | qualityHi => exact (lo_append _ v).2
    | _ => rfl
  | qualityHi =>
    cases r' with
    | qualityLo => exact (lo_append v _).1
    | qualityHi => exact absurd rfl h
    | _ => rfl
  | refenrgLo =>
    cases r' with
    | refenrgLo => exact absurd rfl h
    | refenrgHi => exact (lo_append _ v).2
    | _ => rfl
  | refenrgHi =>
    cases r' with
    | refenrgLo => exact (lo_append v _).1
    | refenrgHi => exact absurd rfl h
    | _ => rfl
  | id | caps | status | cmd | bwAch | maxcbs | maxcbl | sfcnt => rfl
  | ctrl | bwReq | rate | ncbShort | ncbLong | blktype | nsfb => cases r' <;> first | rfl | exact absurd rfl h

/-! ### Writes to local memories -/

theorem ram_kept (m : Ram) : m.kept = 2 ∨ m.kept = 4 := by cases m <;> decide

/-- The word read from a local memory is made of the bytes it keeps. -/
theorem readRam_congr (P : Params) {s t : Arch} {m : Ram} {off : Nat}
    (h : ∀ i, i < m.kept → byteAt P s (off + i) = byteAt P t (off + i)) : readRam P s m off = readRam P t m off := by
  unfold readRam
  rcases ram_kept m with hk | hk
  · rw [if_pos hk, if_pos hk, halfAt_congr P (by rwa [hk] at h)]
  · rw [if_neg (by omega), if_neg (by omega), wordAt_congr P (by rwa [hk] at h)]

theorem readReg_writeRam (v : Word) (m : Ram) (off : Nat) (s : Arch) (r : Reg) :
    readReg (writeRam v m off s) r = readReg s r := by
  cases r <;> rfl

theorem natAt_writeRam (P : Params) (v : Word) (m : Ram) (off : Nat) (s : Arch) :
    natAt P (writeRam v m off s) off m.kept = v.toNat % 256 ^ m.kept := by
  have h := natAt_putBytes_all P s off (leBytes m.kept v.toNat)
  rwa [length_leBytes, ofLeBytes_leBytes] at h

/-- The stored bits of a local memory's word (10_state.md R30). -/
theorem storedMask_ram {m : Ram} {off : Nat} (h : m.holds off = true) :
    storedMask off = if m.kept = 2 then 0x0000FFFF else 0xFFFFFFFF := by
  rw [holds_iff] at h
  have hbase := ram_base_le m
  rw [storedMask, if_neg (by omega)]
  refine if_congr ?_ rfl rfl
  cases m <;> simp only [Ram.base, Ram.bytes, Ram.count, Ram.stride, Ram.kept, iff_true] at h hbase ⊢ <;> omega

/-- A word of a local memory reads back the bits that it keeps. -/
theorem readRam_writeRam_same (P : Params) (v : Word) {m : Ram} {off : Nat} (h : m.holds off = true) (s : Arch) :
    readRam P (writeRam v m off s) m off = v &&& storedMask off := by
  have hnat := natAt_writeRam P v m off s
  rw [storedMask_ram h]
  rcases ram_kept m with hk | hk
  · rw [hk] at hnat
    have hhalf : halfAt P (writeRam v m off s) off = v.setWidth 16 := by
      rw [halfAt, hnat]
      exact BitVec.eq_of_toNat_eq (by simp)
    rw [readRam, if_pos hk, if_pos hk, hhalf]
    exact mask_and v 16 (by decide)
  · rw [hk] at hnat
    have hword : wordAt P (writeRam v m off s) off = v := by
      rw [wordAt, hnat]
      exact BitVec.eq_of_toNat_eq (by simp [Nat.mod_eq_of_lt v.isLt])
    rw [readRam, if_neg (by omega), if_neg (by omega), hword]
    exact BitVec.and_allOnes.symm

/-- A write to a local memory leaves the bytes of every other word of the window. -/
theorem byteAt_writeRam_other (P : Params) (v : Word) (m : Ram) {off o i : Nat} (s : Arch) (h4 : off % 4 = 0)
    (ho4 : o % 4 = 0) (hne : o ≠ off) (hi : i < 4) : byteAt P (writeRam v m off s) (o + i) = byteAt P s (o + i) := by
  have hkept := ram_kept m
  exact byteAt_putBytes_outside P s (by rw [length_leBytes]; omega)

/-! ### Writes that are taken (20_memory.md R73) -/

/-- The word at an offset is that of the register there, or is made of the bytes there. -/
theorem storedWord_congr {P : Params} {s t : Arch} {o : Nat}
    (hreg : ∀ r : Reg, o = r.offset → readReg t r = readReg s r)
    (hbyte : ∀ i, i < 4 → byteAt P t (o + i) = byteAt P s (o + i)) : storedWord P t o = storedWord P s o := by
  rcases locate_cases o with ⟨r, rfl, -⟩ | ⟨m, hm, -⟩ | ⟨-, -, hres⟩
  · rw [storedWord_reg, storedWord_reg, hreg r rfl]
  · have hkept := ram_kept m
    rw [storedWord_ram P _ hm, storedWord_ram P _ hm, readRam_congr P (fun i hi => hbyte i (by omega))]
  · rw [storedWord_reserved P _ hres, storedWord_reserved P _ hres]

/-- `t` is `s` after `v` has been stored at `off`: the word there holds its stored bits of `v`, and every other word of
the window, and the Sequencer, are as they were. -/
structure StoresWord (P : Params) (off : Nat) (v : Word) (s t : Arch) : Prop where
  stored : storedWord P t off = v &&& storedMask off
  others : ∀ o, WordOffset o → o ≠ off → storedWord P t o = storedWord P s o
  seq : t.seq = s.seq

theorem writeReg_stores (P : Params) {r : Reg} (hk : r.kind = .rw) (v : Word) (s : Arch) :
    StoresWord P r.offset v s (writeReg v s r) where
  stored := by rw [storedWord_reg, readReg_writeReg_same hk]
  others _ _ hne := storedWord_congr
    (fun _ ho => readReg_writeReg_other (fun h => hne (ho.trans (congrArg Reg.offset h))) v s)
    (fun _ _ => byteAt_writeReg P v s r _)
  seq := writeReg_seq v s r

theorem writeRam_stores (P : Params) {m : Ram} {off : Nat} (hm : m.holds off = true) (h4 : off % 4 = 0) (v : Word)
    (s : Arch) : StoresWord P off v s (writeRam v m off s) where
  stored := by rw [storedWord_ram P _ hm, readRam_writeRam_same P v hm]
  others _ ho hne := storedWord_congr (fun r _ => readReg_writeRam v m off s r)
    (fun _ hi => byteAt_writeRam_other P v m s h4 ho.2 hne hi)
  seq := rfl

theorem writeInput_reg (v : Word) (r : Reg) (s : Arch) : writeInput v r.offset s = writeReg v s r := by
  rw [writeInput, locate_reg]

theorem writeInput_ram {m : Ram} {off : Nat} (h : m.holds off = true) (v : Word) (s : Arch) :
    writeInput v off s = writeRam v m off s := by
  rw [writeInput, locate_ram h]

/-- Every input location stores the word written to it, whether it is a register's or a local memory's. -/
theorem writeInput_stores (P : Params) {off : Nat} (h4 : off % 4 = 0) (hin : (locate off).isInput = true) (v : Word)
    (s : Arch) : StoresWord P off v s (writeInput v off s) := by
  rcases locate_cases off with ⟨r, rfl, e⟩ | ⟨m, hm, -⟩ | ⟨-, -, e⟩
  · rw [e] at hin
    rw [writeInput_reg]
    exact writeReg_stores P (isInput_reg_rw hin).1 v s
  · rw [writeInput_ram hm]
    exact writeRam_stores P hm h4 v s
  · rw [e] at hin
    cases hin

/-- The step of a word write to an input location while no command runs. -/
theorem step_write_input {s : State} {off : Nat} {v : Word} {rest : List HostEvent} (ho : WordOffset off)
    (hin : (locate off).isInput = true) (hidle : s.seq = .idle)
    (hn : NextEvent s (.access (.write off .word v)) rest) :
    step s = .next { s with
      toArch := writeInput v off s.toArch, bus := rest, lat := s.lat - 1, resp := some .okayWrite } := by
  rw [step_write ho hn, busWrite_input hin, if_neg (by rw [not_busy_iff.mpr hidle]; decide)]

/-- Settles O19: an idle input location and `CTRL` both store the word written to them. -/
theorem writeReplacesStoredBits : Obligations.WriteReplacesStoredBits := by
  unfold Obligations.WriteReplacesStoredBits
  intro s off v rest ho hcase hn
  rcases hcase with ⟨hinput, hidle⟩ | rfl
  · have hin := (isInput_iff ho.2).mpr hinput
    have hstores := writeInput_stores machineParams ho.2 hin v s.toArch
    exact ⟨_, step_write_input ho hin hidle hn, rfl, rfl, hstores.stored, hstores.others, hstores.seq⟩
  · have hstores := writeReg_stores machineParams (r := .ctrl) rfl v s.toArch
    refine ⟨_, step_write ho hn, ?_⟩
    rw [busWrite_ctrl]
    exact ⟨rfl, rfl, hstores.stored, hstores.others, hstores.seq⟩

/-! ### The two writes of a 64-bit value (20_memory.md R75, R76) -/

theorem run_two {s t u : State} (hs : step s = .next t) (ht : step t = .next u) : core.run 2 s = .next u := by
  have hs : core.step s = .next t := hs
  have ht : core.step t = .next u := ht
  simp only [Host.Core.run, hs, ht]

/-- The architectural state after both words of `p` have been written at `off`, the low word first. -/
def writePair (p : F64) (off : Nat) (s : Arch) : Arch :=
  writeInput (p.extractLsb' 32 32) (off + 4) (writeInput (p.extractLsb' 0 32) off s)

/-- The words at `off` and after it are inputs of the window: `off` is where a 64-bit input stands. -/
structure InputPair (off : Nat) : Prop where
  lowWord : WordOffset off
  lowInput : (locate off).isInput = true
  highWord : WordOffset (off + 4)
  highInput : (locate (off + 4)).isInput = true

theorem inputPair_quality : InputPair 0x40 := ⟨⟨by decide, rfl⟩, rfl, ⟨by decide, rfl⟩, rfl⟩

theorem inputPair_refenrg : InputPair 0x48 := ⟨⟨by decide, rfl⟩, rfl, ⟨by decide, rfl⟩, rfl⟩

theorem inputPair_xr {i : Nat} (hi : i < 1024) : InputPair (Ram.xr.addr i) := by
  have haddr : Ram.xr.addr i = 0x2000 + 8 * i := rfl
  have isInput {j : Nat} (hj : j < Ram.xr.stride) : (locate (Ram.xr.addr i + j)).isInput = true := by
    rw [locate_ram (holds_addr hi hj)]
    rfl
  exact ⟨⟨by omega, by omega⟩, isInput (j := 0) (by decide), ⟨by omega, by omega⟩, isInput (by decide)⟩

/-- `wr64 off, p` on an idle machine is two steps, each the write of one word. -/
theorem run_wr64 {s : State} {off : Nat} {p : F64} {rest : List HostEvent} (hidle : s.seq = .idle)
    (h : InputPair off) (hb : s.bus = expandOp (.wr64 off p) ++ rest) :
    ∃ t, core.run 2 s = .next t ∧ t.bus = rest ∧ t.toArch = writePair p off s.toArch := by
  obtain ⟨hlow, hlowIn, hhigh, hhighIn⟩ := h
  have hseq := (writeInput_stores machineParams hlow.2 hlowIn (p.extractLsb' 0 32) s.toArch).seq.trans hidle
  exact ⟨_, run_two (step_write_input hlow hlowIn hidle ⟨Or.inl hidle, hb⟩)
    (step_write_input hhigh hhighIn hseq ⟨Or.inl hseq, rfl⟩), rfl, rfl⟩

theorem writePair_quality (p : F64) (s : Arch) : writePair p 0x40 s = { s with quality := p } := by
  change writeInput _ Reg.qualityHi.offset (writeInput _ Reg.qualityLo.offset s) = _
  simp only [writeInput_reg, writeReg, lo_append, split_join]

theorem writePair_refenrg (p : F64) (s : Arch) : writePair p 0x48 s = { s with refenrg := p } := by
  change writeInput _ Reg.refenrgHi.offset (writeInput _ Reg.refenrgLo.offset s) = _
  simp only [writeInput_reg, writeReg, lo_append, split_join]

/-- A 64-bit element is the one whose two words are stored. -/
theorem dwordAt_eq_of_storedWords {P : Params} {a : Arch} {m : Ram} {i : Nat} {p : F64} (hk : m.kept = 4)
    (hs : m.stride = 8) (hi : i < m.count) (hlo : storedWord P a (m.addr i) = p.extractLsb' 0 32)
    (hhi : storedWord P a (m.addr i + 4) = p.extractLsb' 32 32) : dwordAt P a (m.addr i) = p := by
  obtain ⟨elo, ehi⟩ := storedWord_dword P a hk hs hi
  rw [← split_join (dwordAt P a (m.addr i)), ← elo, ← ehi, hlo, hhi, split_join]

/-- Every bit of both words of `XR[i]` is stored. -/
theorem and_storedMask_xr (w : Word) {i j : Nat} (hi : i < 1024) (hj : j < 8) :
    w &&& storedMask (Ram.xr.addr i + j) = w := by
  rw [storedMask_ram (m := .xr) (holds_addr hi hj)]
  exact BitVec.and_allOnes

/-- The pair of writes leaves `p` in `XR[i]` and changes no other word. -/
theorem writePair_xr (P : Params) (p : F64) {i : Nat} (hi : i < 1024) (s : Arch) :
    xrAt P (writePair p (Ram.xr.addr i) s) i = p ∧
      (∀ o, WordOffset o → o ≠ Ram.xr.addr i → o ≠ Ram.xr.addr i + 4 →
        storedWord P (writePair p (Ram.xr.addr i) s) o = storedWord P s o) ∧
      (writePair p (Ram.xr.addr i) s).seq = s.seq := by
  obtain ⟨hlow, hlowIn, hhigh, hhighIn⟩ := inputPair_xr hi
  have first := writeInput_stores P hlow.2 hlowIn (p.extractLsb' 0 32) s
  have second := writeInput_stores P hhigh.2 hhighIn (p.extractLsb' 32 32)
    (writeInput (p.extractLsb' 0 32) (Ram.xr.addr i) s)
  have elow := ((second.others _ hlow (by omega)).trans first.stored).trans
    (and_storedMask_xr (j := 0) _ hi (by decide))
  have ehigh := second.stored.trans (and_storedMask_xr _ hi (by decide))
  exact ⟨dwordAt_eq_of_storedWords (m := .xr) rfl rfl hi elow ehigh,
    fun o ho hne hne' => (second.others o ho hne').trans (first.others o ho hne), second.seq.trans first.seq⟩

/-- Settles O20: two steps each, and what the pair of writes leaves in the element. -/
theorem sixtyFourBitWriteStoresTheElement : Obligations.SixtyFourBitWriteStoresTheElement := by
  unfold Obligations.SixtyFourBitWriteStoresTheElement
  intro s p rest hidle
  refine ⟨fun i hi hb => ?_, fun hb => ?_, fun hb => ?_⟩
  · obtain ⟨t, hrun, hbus, ht⟩ := run_wr64 hidle (inputPair_xr hi) hb
    obtain ⟨helem, hothers, hseq⟩ := writePair_xr machineParams p hi s.toArch
    rw [← ht] at helem hothers hseq
    refine ⟨t, hrun, hbus, hseq.trans hidle, helem, fun o ho hne hne' => hothers o ho hne ?_⟩
    rwa [Nat.add_right_comm 0x2000 4 (8 * i)] at hne'
  · rw [← writePair_quality]
    exact run_wr64 hidle inputPair_quality hb
  · rw [← writePair_refenrg]
    exact run_wr64 hidle inputPair_refenrg hb

end Sys2Proof.BusAccess
end

section
/-!
The command words (30_encoding.md): the decoder takes exactly the words that the encoder gives, a write to `CMD` while
no command runs accepts such a word and records an error for every other, and the polling loop ends.
-/

namespace Sys2Proof.Encoding

open Machine Laws StateMap StateFrame BusAccess
open Config (Params)

/-! ### Words, fields and bytes (30_encoding.md R100; 20_memory.md R75) -/

@[simp] theorem ofWord_toWord (c : Cmd32) : Cmd32.ofWord c.toWord = c := by
  have hmbz : (c.mbz ++ c.opc).extractLsb' 8 24 = c.mbz := BitVec.extractLsb'_append_eq_left
  have hopc : (c.mbz ++ c.opc).extractLsb' 0 8 = c.opc := BitVec.extractLsb'_append_eq_right
  exact congrArg₂ Cmd32.mk hmbz hopc

@[simp] theorem toWord_ofWord (w : Word) : (Cmd32.ofWord w).toWord = w :=
  BitVec.extractLsb'_append_extractLsb' (w := 24) (len := 8)

/-- A word has the fields of a command exactly where it is that command's word. -/
theorem ofWord_eq_fields_iff {w : Word} {op : Instr} : Cmd32.ofWord w = op.fields ↔ w = encode op := by
  constructor
  · intro h
    rw [encode, ← h, toWord_ofWord]
  · rintro rfl
    exact ofWord_toWord op.fields

@[simp] theorem wordOfBytes_bytesOfWord (w : Word) :
    wordOfBytes (w.extractLsb' 0 8) (w.extractLsb' 8 8) (w.extractLsb' 16 8) (w.extractLsb' 24 8) = w := by
  rw [wordOfBytes, BitVec.extractLsb'_append_extractLsb'_eq_extractLsb' (start₂ := 24) (start₁ := 16) rfl,
    BitVec.extractLsb'_append_extractLsb'_eq_extractLsb' (start₂ := 16) (start₁ := 8) rfl]
  exact BitVec.extractLsb'_append_extractLsb' (w := 24) (len := 8)

@[simp] theorem decodeBytes_bytesOfWord (w : Word) : decodeBytes (bytesOfWord w) = decodeWord w :=
  congrArg decodeWord (wordOfBytes_bytesOfWord w)

/-! ### The opcode map (30_encoding.md R103, R104) -/

/-- The decoder answers a command exactly for that command's word. -/
theorem decodeWord_eq_ok_iff {w : Word} {op : Instr} : decodeWord w = .ok op ↔ w = encode op := by
  constructor
  · rw [← ofWord_eq_fields_iff, decodeWord]
    generalize Cmd32.ofWord w = c
    obtain ⟨mbz, opc⟩ := c
    intro h
    split at h
    next => cases h
    next hmbz =>
      obtain rfl := not_not.mp hmbz
      split at h
      next h1 => cases h; exact congrArg _ h1
      next =>
        split at h
        next h2 => cases h; exact congrArg _ h2
        next => cases h
  · rintro rfl
    cases op <;> rfl

/-- Legal fields are those of a command (30_encoding.md R104). -/
theorem wellFormed_iff_fields {c : Cmd32} : c.wellFormed = true ↔ ∃ op : Instr, c = op.fields := by
  obtain ⟨mbz, opc⟩ := c
  simp only [Cmd32.wellFormed, Cmd32.opcKnown, Cmd32.mbzZero, Bool.and_eq_true, Bool.or_eq_true, beq_iff_eq]
  constructor
  · rintro ⟨rfl | rfl, rfl⟩
    · exact ⟨.limbw, rfl⟩
    · exact ⟨.qblk, rfl⟩
  · rintro ⟨op, h⟩
    cases op <;> cases h <;> decide

theorem wellFormed_ofWord_iff {w : Word} : (Cmd32.ofWord w).wellFormed = true ↔ ∃ op, w = encode op := by
  simp only [wellFormed_iff_fields, ofWord_eq_fields_iff]

theorem encode_limbw : encode .limbw = 0x00000001 := rfl

theorem encode_qblk : encode .qblk = 0x00000002 := rfl

theorem exists_encode_iff {w : Word} : (∃ op, w = encode op) ↔ w = 0x00000001 ∨ w = 0x00000002 := by
  constructor
  · rintro ⟨op, rfl⟩
    cases op with
    | limbw => exact Or.inl encode_limbw
    | qblk => exact Or.inr encode_qblk
  · rintro (rfl | rfl)
    · exact ⟨.limbw, encode_limbw.symm⟩
    · exact ⟨.qblk, encode_qblk.symm⟩

/-- The decoder refuses a word that is no command's. -/
theorem decodeWord_error {w : Word} (h1 : w ≠ 0x00000001) (h2 : w ≠ 0x00000002) :
    ∃ e, decodeWord w = .error e := by
  cases h : decodeWord w with
  | error e => exact ⟨e, rfl⟩
  | ok op =>
    rcases exists_encode_iff.mp ⟨op, decodeWord_eq_ok_iff.mp h⟩ with hw | hw
    · exact absurd hw h1
    · exact absurd hw h2

/-- Settles O2: a word decodes to a command where it is that command's word, and there are two. -/
theorem onlyTwoWordsAreCommands : Obligations.OnlyTwoWordsAreCommands := by
  unfold Obligations.OnlyTwoWordsAreCommands
  intro w
  exact ⟨decodeWord_eq_ok_iff, decodeWord_eq_ok_iff, wellFormed_ofWord_iff.trans exists_encode_iff, decodeWord_error⟩

/-! ### Words as the table and the Host's memory hold them -/

theorem decodeWord_encode (op : Instr) : decodeWord (encode op) = .ok op := decodeWord_eq_ok_iff.mpr rfl

theorem decodeBytes_encodeBytes (op : Instr) : decodeBytes (encodeBytes op) = .ok op :=
  (decodeBytes_bytesOfWord (encode op)).trans (decodeWord_encode op)

/-- All 32 bits of a word lie in the bus word. -/
theorem tableWord_toNat (w : Word) : tableWord 32 w.toNat = some w := by
  have hw : w.toNat % 2 ^ 32 = w.toNat := Nat.mod_eq_of_lt w.isLt
  rw [tableWord, hw, if_pos w.isLt, BitVec.ofNat_toNat, BitVec.setWidth_eq]

theorem decodeTableWord_encode (op : Instr) : decodeTableWord 32 (encode op).toNat = some op := by
  simp only [decodeTableWord, tableWord_toNat, decodeBytes_bytesOfWord, decodeWord_encode]

/-- Settles O1: the word, its bytes and the table word are decoded as the command's word. -/
theorem encodedCommandsDecodeToThemselves : Obligations.EncodedCommandsDecodeToThemselves := by
  unfold Obligations.EncodedCommandsDecodeToThemselves
  intro op _
  exact ⟨decodeWord_encode op, decodeBytes_encodeBytes op, decodeTableWord_encode op⟩

/-- Settles O3: the first two are the bytes of the commands, and each other word has one field that is refused. -/
theorem writtenOutWordsDecode : Obligations.WrittenOutWordsDecode := by
  unfold Obligations.WrittenOutWordsDecode
  exact ⟨decodeBytes_encodeBytes .limbw, decodeBytes_encodeBytes .qblk, by decide, by decide, by decide⟩

/-! ### Writes to `CMD` (30_encoding.md R101, R102) -/

theorem writeCmd_accepts (P : Params) {w : Word} {op : Instr} {s : State} (hidle : s.seq = .idle)
    (hw : decodeWord w = .ok op) : writeCmd P w s = s.accept P op := by
  simp [writeCmd, not_busy_iff.mpr hidle, hw]

theorem writeCmd_refuses (P : Params) {w : Word} {e : DecodeError} {s : State} (hidle : s.seq = .idle)
    (hw : decodeWord w = .error e) : writeCmd P w s = { s with toArch := recordError .illegalCmd s.toArch } := by
  simp [writeCmd, not_busy_iff.mpr hidle, hw]

/-- The step of a word write to `CMD` gives the word to the decoder. -/
theorem step_write_cmd {s : State} {w : Word} {rest : List HostEvent}
    (hn : NextEvent s (.access (.write 0x10 .word w)) rest) :
    step s = .next { (writeCmd machineParams w { s with bus := rest, lat := s.lat - 1 }) with
      resp := some .okayWrite } := by
  rw [step_write ⟨by decide, rfl⟩ hn, busWrite_cmd]

/-- Settles O5: the word is the command's, so its low byte is the command's opcode, and once it is due it is run. -/
theorem acceptedCommandIsDecodedAndRun : Obligations.AcceptedCommandIsDecodedAndRun := by
  unfold Obligations.AcceptedCommandIsDecodedAndRun
  intro s w op rest hidle hw hb
  have hstep := step_write_cmd ⟨Or.inl hidle, hb⟩
  rw [writeCmd_accepts machineParams (s := { s with bus := rest, lat := s.lat - 1 }) hidle hw] at hstep
  obtain rfl := decodeWord_eq_ok_iff.mp hw
  exact ⟨_, hstep, rfl, rfl, rfl, rfl, rfl, fun hdue => dueCommandIsRunByStep _ op rfl hdue⟩

/-- Settles O27: the decoder refuses the word, and the error is recorded. -/
theorem illegalWordIsRefused : Obligations.IllegalWordIsRefused := by
  unfold Obligations.IllegalWordIsRefused
  intro s w rest hidle h1 h2 hb
  obtain ⟨e, hw⟩ := decodeWord_error h1 h2
  have hstep := step_write_cmd ⟨Or.inl hidle, hb⟩
  rw [writeCmd_refuses machineParams (s := { s with bus := rest, lat := s.lat - 1 }) hidle hw] at hstep
  exact ⟨_, hstep, rfl, rfl, rfl⟩

theorem withFetchWord_of_command {nbits w : Nat} {op : Instr} (h : decodeTableWord nbits w = some op) (s : State) :
    s.withFetchWord nbits w = { s with toArch := acceptCommand op s.toArch, lat := 0 } := by
  simp only [State.withFetchWord, State.presentWord, h]

/-- Settles O6: the placed command is in flight with no event before its completion step, so it is due. -/
theorem fetchWordIsRunNext : Obligations.FetchWordIsRunNext := by
  unfold Obligations.FetchWordIsRunNext
  intro s nbits w op h
  rw [withFetchWord_of_command h]
  exact ⟨dueCommandIsRunByStep _ op rfl (Or.inl rfl), rfl, rfl⟩

/-! ### The polling loop (30_encoding.md R106) -/

theorem run_succ {s t : State} (h : step s = .next t) (k : Nat) : core.run (k + 1) s = core.run k t := by
  have h : core.step s = .next t := h
  simp only [Host.Core.run, h]

/-- Bit 0 of `STATUS` reads `BUSY`, also where the other fields read free values (10_state.md R36). -/
theorem busRead_status_busy (P : Params) (s : State) : (busRead P Reg.status.offset s).getLsbD 0 = s.busy := by
  have flag (signal cfgv : Bool) : (statusWordWith s.toArch signal cfgv).getLsbD 0 = s.busy :=
    (statusWord_flags { s.toArch with signal := signal, cfgv := cfgv }).1
  rw [busRead, observedWord]
  split
  · rw [locate_reg]
    exact flag _ _
  · rw [storedWord_reg]
    exact flag _ _

/-- One turn of the loop reads `STATUS`, and the loop stays first in line while a command runs. -/
theorem step_wait {s : State} {rest : List HostEvent} (hn : NextEvent s .wait rest) :
    ∃ t, step s = .next t ∧ t.toArch = s.toArch ∧ t.lat = s.lat - 1 ∧
      t.bus = if s.busy then .wait :: rest else rest := by
  rw [step_event hn]
  refine ⟨_, rfl, ?_⟩
  simp only [hostWait, busRead_status_busy]
  split <;> exact ⟨rfl, rfl, rfl⟩

theorem step_wait_idle {s : State} {rest : List HostEvent} (hidle : s.seq = .idle) (hb : s.bus = .wait :: rest) :
    ∃ t, step s = .next t ∧ t.seq = .idle ∧ t.bus = rest := by
  obtain ⟨t, hs, harch, -, hbus⟩ := step_wait ⟨Or.inl hidle, hb⟩
  rw [not_busy_iff.mpr hidle] at hbus
  exact ⟨t, hs, by rw [harch, hidle], hbus⟩

theorem completed_seq (P : Params) (op : Instr) (s : Arch) : (completed P op s).seq = .idle := by
  rcases completed_cases P op s with ⟨e, -, h⟩ | ⟨-, -, h⟩ | ⟨-, -, h⟩
  · rw [h, failCommand_seq]
  · rw [h, completeCommand_seq]
  · rw [h, completeCommand_seq]

/-- While a command runs each turn of the loop takes one of the `lat` events before the completion step; that step
comes next, and one more turn ends the loop. -/
theorem wait_busy_ends {n : Nat} {s : State} {op : Instr} {rest : List HostEvent} (hlat : s.lat = n)
    (hrun : s.seq = .run op) (hb : s.bus = .wait :: rest) :
    ∃ t, core.run (n + 2) s = .next t ∧ t.seq = .idle ∧ t.bus = rest := by
  induction n generalizing s with
  | zero =>
    have hs : step s = .next { s with toArch := completed machineParams op s.toArch } :=
      (dueCommandIsRunByStep s op hrun (Or.inl hlat)).trans (exec_eq op s)
    obtain ⟨t, ht, hseq, hbus⟩ := step_wait_idle (s := { s with toArch := completed machineParams op s.toArch })
      (completed_seq _ _ _) hb
    exact ⟨t, run_two hs ht, hseq, hbus⟩
  | succ n ih =>
    obtain ⟨t, hs, harch, htlat, hbus⟩ := step_wait ⟨Or.inr (by omega), hb⟩
    rw [busy_iff.mpr ⟨op, hrun⟩, if_pos rfl] at hbus
    rw [run_succ hs]
    exact ih (by omega) (by rw [harch, hrun]) hbus

/-- Settles O9: after one turn while no command runs, and after `lat + 2` steps while one does. -/
theorem waitLoopEnds : Obligations.WaitLoopEnds := by
  unfold Obligations.WaitLoopEnds
  intro s rest hb
  cases hseq : s.seq with
  | idle =>
    obtain ⟨t, hs, ht⟩ := step_wait_idle hseq hb
    exact ⟨1, t, by omega, fun _ => rfl, run_succ hs 0, ht⟩
  | run op =>
    obtain ⟨t, ht⟩ := wait_busy_ends rfl hseq hb
    exact ⟨s.lat + 2, t, le_rfl, nofun, ht⟩

end Sys2Proof.Encoding
end

section
/-!
LIMBW, the Bandwidth Limiter command (40_limbw.md): its two errors and what it leaves when there is none, the achieved
bandwidth against the requested one, and how its three results follow the request.
-/

namespace Sys2Proof.Bandwidth

open Machine Laws Invariant
open Config (Params)

/-! ### The check (40_limbw.md R121) -/

theorem limbwCheck_of_rate_zero {s : Arch} (h : s.rate = 0) : limbwCheck s = some .bwArg := if_pos h

theorem limbwCheck_of_count_over {s : Arch} (hrate : s.rate ≠ 0)
    (h : Config.maxSfb < s.ncbShort.toNat ∨ Config.maxSfb < s.ncbLong.toNat) : limbwCheck s = some .bandOvf :=
  (if_neg hrate).trans (if_pos h)

theorem exec_limbw_error {s : State} {e : ErrCode} (h : limbwCheck s.toArch = some e) :
    exec .limbw s = .next { s with toArch := failCommand e s.toArch } := by
  rw [exec_limbw, limbwComplete, h]

theorem exec_limbw_ready {s : State} (h : LimbwReady s.toArch) :
    exec .limbw s = .next { s with toArch := completeCommand (limbwResults machineParams s.toArch) } := by
  rw [exec_limbw, limbwComplete, limbwCheck_none.mpr h]

/-- Settles O35: the two branches of the check that answer an error, and the one that answers none. -/
theorem limbwErrorsInOrder : Obligations.LimbwErrorsInOrder := by
  unfold Obligations.LimbwErrorsInOrder
  intro s
  refine ⟨fun hrate => ?_, fun hrate hcount => ?_, fun hrate hshort hlong => ?_⟩
  · exact exec_limbw_error (limbwCheck_of_rate_zero hrate)
  · exact exec_limbw_error (limbwCheck_of_count_over hrate hcount)
  · exact ⟨_, exec_limbw_ready ⟨hrate, hshort, hlong⟩, rfl, rfl, rfl⟩

/-! ### The band bounds (40_limbw.md R123, R124) -/

theorem shortBound_isBandBound (P : Params) (s : Arch) :
    IsBandBound (widthShortAt P s) s.ncbShort.toNat (lineCeiling s Config.bwsNum) (shortBound P s).1 :=
  (accum_spec _ _ _).1

theorem longBound_isBandBound (P : Params) (s : Arch) :
    IsBandBound (widthLongAt P s) s.ncbLong.toNat (lineCeiling s Config.bwlNum) (longBound P s).1 :=
  (accum_spec _ _ _).1

/-- The lines covered are those of the bands in use. -/
theorem longBound_lines (P : Params) (s : Arch) :
    (longBound P s).2 = linesBefore (widthLongAt P s) (longBound P s).1 :=
  (accum_spec _ _ _).2

/-- Settles O36: the accumulation gives the band bounds, and the lines of the long one. -/
theorem limbwCompletesWithItsBounds : Obligations.LimbwCompletesWithItsBounds := by
  unfold Obligations.LimbwCompletesWithItsBounds
  intro s hrate hshort hlong
  refine ⟨_, _, shortBound_isBandBound machineParams s.toArch, longBound_isBandBound machineParams s.toArch, ?_⟩
  rw [exec_limbw_ready ⟨hrate, hshort, hlong⟩, ← longBound_lines]
  rfl

theorem linesBefore_mono (w : Nat → Nat) : Monotone (linesBefore w) :=
  monotone_nat_of_le_succ fun k => by
    rw [linesBefore_succ]
    exact Nat.le_add_right _ _

/-- A higher ceiling never lowers the band bound: a band in use stays below the higher ceiling too. -/
theorem isBandBound_mono {w : Nat → Nat} {n c d j k : Nat} (hcd : c ≤ d) (hj : IsBandBound w n c j)
    (hk : IsBandBound w n d k) : j ≤ k := by
  obtain ⟨hjn, hbelow, -⟩ := hj
  obtain ⟨-, -, hmeets⟩ := hk
  by_contra hlt
  have hkj : k < j := Nat.lt_of_not_le hlt
  have h1 : linesBefore w (k + 1) < c := hbelow k hkj
  have h2 : d ≤ linesBefore w (k + 1) := hmeets (hkj.trans_le hjn)
  omega

/-- No band lies below a ceiling of 0. -/
theorem isBandBound_zero_ceiling {w : Nat → Nat} {n k : Nat} (h : IsBandBound w n 0 k) : k = 0 :=
  (linesBefore_lt_of_bound h).resolve_right (Nat.not_lt_zero _)

theorem linesBefore_le_of_bound {w : Nat → Nat} {n c k : Nat} (h : IsBandBound w n c k) : linesBefore w k ≤ c := by
  rcases linesBefore_lt_of_bound h with rfl | hlt
  · exact Nat.zero_le c
  · exact hlt.le

/-! ### The achieved bandwidth (40_limbw.md R125) -/

theorem achievedHz_mono (s : Arch) : Monotone (achievedHz s) := fun _ _ h =>
  Nat.div_le_div_right (Nat.mul_le_mul_right _ h)

/-- Lines up to the long ceiling never make more than the requested bandwidth. -/
theorem achievedHz_le_bwReq {s : Arch} {l : Nat} (h : l ≤ lineCeiling s Config.bwlNum) :
    achievedHz s l ≤ s.bwReq.toNat := by
  have hscaled : l * s.rate.toNat ≤ s.bwReq.toNat * Config.bwlNum :=
    calc l * s.rate.toNat
      _ ≤ lineCeiling s Config.bwlNum * s.rate.toNat := Nat.mul_le_mul_right _ h
      _ ≤ s.bwReq.toNat * Config.bwlNum := Nat.div_mul_le_self _ _
  exact Nat.div_le_of_le_mul (hscaled.trans_eq (Nat.mul_comm _ _))

theorem achievedHz_longBound_le (P : Params) (s : Arch) : achievedHz s (longBound P s).2 ≤ s.bwReq.toNat := by
  apply achievedHz_le_bwReq
  rw [longBound_lines]
  exact linesBefore_le_of_bound (longBound_isBandBound P s)

/-! ### The results as numbers: none is cut to its register -/

theorem limbwResults_maxcbs_toNat (P : Params) (s : Arch) :
    (limbwResults P s).maxcbs.toNat = (shortBound P s).1 := by
  rw [limbwResults_maxcbs, BitVec.toNat_ofNat, Nat.mod_eq_of_lt ((shortBound_le P s).trans_lt s.ncbShort.isLt)]

theorem limbwResults_maxcbl_toNat (P : Params) (s : Arch) :
    (limbwResults P s).maxcbl.toNat = (longBound P s).1 := by
  rw [limbwResults_maxcbl, BitVec.toNat_ofNat, Nat.mod_eq_of_lt ((longBound_le P s).trans_lt s.ncbLong.isLt)]

theorem limbwResults_bwAch_toNat (P : Params) (s : Arch) :
    (limbwResults P s).bwAch.toNat = achievedHz s (longBound P s).2 := by
  rw [limbwResults_bwAch, BitVec.toNat_ofNat,
    Nat.mod_eq_of_lt ((achievedHz_longBound_le P s).trans_lt s.bwReq.isLt)]

theorem limbwResults_bwAch_le_bwReq (P : Params) (s : Arch) : (limbwResults P s).bwAch.toNat ≤ s.bwReq.toNat :=
  (limbwResults_bwAch_toNat P s).trans_le (achievedHz_longBound_le P s)

/-- The achieved bandwidth is that of the lines of the bands in use. -/
theorem limbwResults_bwAch_eq_lines (P : Params) (s : Arch) :
    (limbwResults P s).bwAch.toNat =
      linesBefore (widthLongAt P s) (longBound P s).1 * s.rate.toNat / Config.bwlNum := by
  rw [limbwResults_bwAch_toNat, longBound_lines, achievedHz]

/-- Settles O37: the lines in use stay within the long ceiling, and so within the request; each result is at most a
number that already has its register's width. -/
theorem limbwNeverExceedsTheRequest : Obligations.LimbwNeverExceedsTheRequest := by
  unfold Obligations.LimbwNeverExceedsTheRequest
  intro s hrate hshort hlong
  exact ⟨_, _, exec_limbw_ready ⟨hrate, hshort, hlong⟩, limbwResults_bwAch_le_bwReq machineParams s.toArch,
    limbwResults_maxcbl_toNat machineParams s.toArch, limbwResults_bwAch_eq_lines machineParams s.toArch,
    longBound_le machineParams s.toArch,
    (limbwResults_maxcbs_toNat machineParams s.toArch).trans_le (shortBound_le machineParams s.toArch)⟩

/-! ### A larger request (40_limbw.md R127) -/

theorem lineCeiling_mono {s : Arch} {bw : Word} (h : s.bwReq.toNat ≤ bw.toNat) (num : Nat) :
    lineCeiling s num ≤ lineCeiling { s with bwReq := bw } num :=
  Nat.div_le_div_right (Nat.mul_le_mul_right _ h)

/-- The widths do not depend on the request, so only the ceiling moves. -/
theorem shortBound_mono (P : Params) {s : Arch} {bw : Word} (h : s.bwReq.toNat ≤ bw.toNat) :
    (shortBound P s).1 ≤ (shortBound P { s with bwReq := bw }).1 :=
  isBandBound_mono (lineCeiling_mono h _) (shortBound_isBandBound P s)
    (shortBound_isBandBound P { s with bwReq := bw })

theorem longBound_mono (P : Params) {s : Arch} {bw : Word} (h : s.bwReq.toNat ≤ bw.toNat) :
    (longBound P s).1 ≤ (longBound P { s with bwReq := bw }).1 :=
  isBandBound_mono (lineCeiling_mono h _) (longBound_isBandBound P s)
    (longBound_isBandBound P { s with bwReq := bw })

theorem longBound_lines_mono (P : Params) {s : Arch} {bw : Word} (h : s.bwReq.toNat ≤ bw.toNat) :
    (longBound P s).2 ≤ (longBound P { s with bwReq := bw }).2 := by
  rw [longBound_lines, longBound_lines]
  exact linesBefore_mono _ (longBound_mono P h)

/-- Settles O38: the ceilings do not decrease with the request, and the results do not decrease with the ceilings. -/
theorem limbwIsMonotoneInTheRequest : Obligations.LimbwIsMonotoneInTheRequest := by
  unfold Obligations.LimbwIsMonotoneInTheRequest
  intro s bw hrate hshort hlong hbw
  have hready : LimbwReady s.toArch := ⟨hrate, hshort, hlong⟩
  refine ⟨_, _, exec_limbw_ready hready, exec_limbw_ready (s := { s with bwReq := bw }) hready, ?_⟩
  simp only [completeCommand_maxcbl, completeCommand_maxcbs, completeCommand_bwAch, limbwResults_maxcbl_toNat,
    limbwResults_maxcbs_toNat, limbwResults_bwAch_toNat]
  exact ⟨longBound_mono _ hbw, shortBound_mono _ hbw, achievedHz_mono _ (longBound_lines_mono _ hbw)⟩

/-! ### A request of 0 (40_limbw.md R126) -/

theorem lineCeiling_of_bwReq_zero {s : Arch} (h : s.bwReq = 0) (num : Nat) : lineCeiling s num = 0 := by
  simp [lineCeiling, h]

/-- Both ceilings are 0, so no band is in use and no line is covered. -/
theorem limbwResults_of_bwReq_zero (P : Params) {s : Arch} (h : s.bwReq = 0) :
    limbwResults P s = { s with maxcbs := 0, maxcbl := 0, bwAch := 0, cfgv := true } := by
  have hshort : (shortBound P s).1 = 0 :=
    isBandBound_zero_ceiling (lineCeiling_of_bwReq_zero h Config.bwsNum ▸ shortBound_isBandBound P s)
  have hlong : (longBound P s).1 = 0 :=
    isBandBound_zero_ceiling (lineCeiling_of_bwReq_zero h Config.bwlNum ▸ longBound_isBandBound P s)
  have hhz : achievedHz s (longBound P s).2 = 0 := by
    have hle := achievedHz_longBound_le P s
    rw [h] at hle
    exact Nat.le_zero.mp hle
  rw [limbwResults, hshort, hlong, hhz]
  rfl

/-- Settles O39: the results of a request of 0, written by a LIMBW that passes its check. -/
theorem limbwZeroRequestGivesZero : Obligations.LimbwZeroRequestGivesZero := by
  unfold Obligations.LimbwZeroRequestGivesZero
  intro s hrate hshort hlong hbw
  rw [exec_limbw_ready ⟨hrate, hshort, hlong⟩, limbwResults_of_bwReq_zero _ hbw]
  rfl

end Sys2Proof.Bandwidth
end

section
/-!
The masking stage of QBLK (41_masking.md): the energies of a band line by line, the target that is stored for it, and the
target of a band of zero lines.
-/

namespace Sys2Proof.Masking

open Machine Laws Arithmetic Quantized
open Config (Params)

/-! ### The energies of a band (41_masking.md R142) -/

theorem bandEnergy_nil : bandEnergy [] = (plusZero, plusZero) := rfl

/-- The lines are taken in ascending order, the last one last. -/
theorem bandEnergy_append_singleton (lines : List F64) (x : F64) :
    bandEnergy (lines ++ [x]) = energyStep (bandEnergy lines) x :=
  List.foldl_concat energyStep _ x lines

/-- An energy that replaces the maximum has compared greater, so it is no NaN. -/
theorem isNaN_energyStep_max {acc : F64 × F64} (h : isNaN acc.2 = false) (x : F64) :
    isNaN (energyStep acc x).2 = false := by
  rw [energyStep]
  split
  next hgt => exact (orderKey_of_gt64 hgt).1
  next => exact h

theorem isNaN_energyStep_sum (acc : F64 × F64) {x : F64} (h : isNaN x = true) :
    isNaN (energyStep acc x).1 = true := by
  rw [energyStep, mul64_nan (Or.inl h), add64_nan (Or.inr isNaN_quietNaN)]
  exact isNaN_quietNaN

/-- The maximum energy of a band is never a NaN. -/
theorem isNaN_bandEnergy_max (lines : List F64) : isNaN (bandEnergy lines).2 = false := by
  induction lines using List.reverseRecOn with
  | nil => decide
  | append_singleton lines x ih =>
    rw [bandEnergy_append_singleton]
    exact isNaN_energyStep_max ih x

/-- Settles O43: a line more is one more `energyStep`, and no step makes the maximum a NaN. -/
theorem bandEnergyAccumulatesInOrder : Obligations.BandEnergyAccumulatesInOrder := by
  unfold Obligations.BandEnergyAccumulatesInOrder
  refine ⟨bandEnergy_nil, fun lines x => ?_⟩
  rw [bandEnergy_append_singleton]
  exact ⟨rfl, rfl, isNaN_bandEnergy_max lines, isNaN_energyStep_sum _⟩

/-! ### The stored target (41_masking.md R140 to R148) -/

theorem storedTarget_of_not_nan (P : Params) {t : F64} (operands : List F64) (h : isNaN t = false) :
    storedTarget P t operands = t := by
  simp [storedTarget, h]

theorem isNaN_storedTarget (P : Params) {t : F64} (operands : List F64) (h : isNaN t = true) :
    isNaN (storedTarget P t operands) = true := by
  rw [storedTarget, if_pos h]
  exact isNaN_nanPattern _

/-- The weight of the long windows applies to every block type but `ONLY_SHORT` (41_masking.md R145). -/
theorem ite_onlyShort {α : Type} (s : Arch) (a b : α) :
    (if s.onlyShort then a else b) = if s.blktype = 2 then a else b := by
  simp [Arch.onlyShort]

/-- Settles O44: QBLK stores `bandTarget` for each band, which is `storedTarget` of the statement's target: `maskTarget`
written out, with the block type for `onlyShort`. -/
theorem qblkStoresMaskingTargets : Obligations.QblkStoresMaskingTargets := by
  unfold Obligations.QblkStoresMaskingTargets
  intro s hr hsig
  obtain ⟨t, hexec, hbands⟩ := exec_qblk_bands hr hsig
  refine ⟨t, hexec, fun b hb => ?_⟩
  obtain ⟨hstored, -, -⟩ := hbands b hb
  rw [hstored]
  simp only [← ite_onlyShort]
  exact ⟨storedTarget_of_not_nan machineParams _, isNaN_storedTarget machineParams _⟩

/-! ### Bounds on rounded results -/

/-- A midpoint lies above the pattern below it. -/
theorem two_mul_unitsOfMag_lt {m : Nat} (h : m < infMag) : 2 * unitsOfMag m < midpointSum m := by
  have := unitsOfMag_lt_succ h
  unfold midpointSum
  omega

/-- A midpoint lies below the pattern above it. -/
theorem midpointSum_lt_two_mul {m : Nat} (h : m < infMag) : midpointSum m < 2 * unitsOfMag (m + 1) := by
  have := unitsOfMag_lt_succ h
  unfold midpointSum
  omega

/-- A value up to that of a finite pattern does not round above the pattern. -/
theorem roundMag_le_of_le {n d m : Nat} (hd : 0 < d) (hm : m < infMag) (h : n ≤ unitsOfMag m * d) :
    roundMag n d ≤ m := by
  by_contra hgt
  have hmid := midpointSum_le_of_lt_roundMag hd (not_le.mp hgt)
  have hstep : 2 * unitsOfMag m * d < midpointSum m * d :=
    Nat.mul_lt_mul_of_pos_right (two_mul_unitsOfMag_lt hm) hd
  rw [Nat.mul_assoc] at hstep
  omega

/-- A value from that of a finite pattern on does not round below the pattern. -/
theorem le_roundMag_of_le {n d m : Nat} (hd : 0 < d) (hm : m < infMag) (h : unitsOfMag m * d ≤ n) :
    m ≤ roundMag n d := by
  by_contra hlt
  obtain ⟨p, rfl⟩ : ∃ p, m = p + 1 := ⟨m - 1, by omega⟩
  have hmid := le_midpointSum_of_roundMag_le hd (Nat.le_of_lt_succ (not_le.mp hlt)) (by omega)
  have hstep : midpointSum p * d < 2 * unitsOfMag (p + 1) * d :=
    Nat.mul_lt_mul_of_pos_right (midpointSum_lt_two_mul (by omega)) hd
  rw [Nat.mul_assoc] at hstep
  omega

theorem roundMag_zero {d : Nat} (hd : 0 < d) : roundMag 0 d = 0 :=
  roundMag_of_exact hd (by decide) (by rw [unitsOfMag_zero, Nat.zero_mul])

theorem unitsOf_one : unitsOf Config.one = unitsPerOne := by
  have h := unitsOfMag_binade (k := 1022) (q := 2 ^ 52) (by decide) (by decide) (Or.inr le_rfl)
  rw [unitsOf_eq_mag, show magOf Config.one = 1022 * 2 ^ 52 + 2 ^ 52 by decide, h, unitsPerOne,
    show 1074 = 52 + 1022 by decide, Nat.pow_add]

/-- A magnitude pattern of 1.0 or more has at least the units of 1. -/
theorem unitsPerOne_le_unitsOf {x : F64} (hf : isFinite x = true) (h : magOf Config.one ≤ magOf x) :
    unitsPerOne ≤ unitsOf x := by
  rw [← unitsOf_one, unitsOf_eq_mag, unitsOf_eq_mag]
  exact unitsOfMag_le h (isFinite_iff.mp hf).le

/-- Dividing by a magnitude of 1 or more does not raise the magnitude. -/
theorem magOf_div64_le {x y : F64} (hx : isFinite x = true) (hy : isFinite y = true)
    (h : magOf Config.one ≤ magOf y) : magOf (div64 x y) ≤ magOf x := by
  have hone := unitsPerOne_le_unitsOf hy h
  have hz : isZero y = false := by
    rw [isZero, decide_eq_false_iff_not]
    have : 0 < magOf Config.one := by decide
    omega
  rw [div64_finite hx hy hz, magOf_round64]
  refine roundMag_le_of_le (unitsPerOne_pos.trans_le hone) (isFinite_iff.mp hx) ?_
  rw [← unitsOf_eq_mag]
  exact Nat.mul_le_mul_left _ hone

theorem div64_isFinite {x y : F64} (hx : isFinite x = true) (hy : isFinite y = true)
    (h : magOf Config.one ≤ magOf y) : isFinite (div64 x y) = true :=
  isFinite_iff.mpr ((magOf_div64_le hx hy h).trans_lt (isFinite_iff.mp hx))

theorem valueOf_unsigned {x : F64} (h : signOf x = false) : valueOf x = unitsOf x := by
  simp [valueOf, h]

/-- The magnitude of a sum of two values whose sign bits are clear. -/
theorem magOf_add64_unsigned {x y : F64} (hx : isFinite x = true) (hy : isFinite y = true)
    (hsx : signOf x = false) (hsy : signOf y = false) :
    magOf (add64 x y) = roundMag (unitsOf x + unitsOf y) 1 := by
  rw [add64_finite hx hy, valueOf_unsigned hsx, valueOf_unsigned hsy, ← Int.natCast_add, Int.natAbs_natCast]
  split
  next h => rw [magOf_zero, Int.natCast_eq_zero.mp h, roundMag_zero Nat.one_pos]
  next => exact magOf_round64 _ _ _

theorem i2f_natCast {n : Nat} (h : n < 2 ^ 53) :
    isFinite (i2f n) = true ∧ signOf (i2f n) = false ∧ unitsOf (i2f n) = n * unitsPerOne := by
  obtain ⟨hf, hval⟩ := integersConvertExactly n (by rw [Int.natAbs_natCast]; exact h)
  have hs : signOf (i2f n) = false := by
    rw [i2f, signOf_round64]
    exact decide_eq_false (Int.natCast_nonneg n).not_gt
  refine ⟨hf, hs, ?_⟩
  rw [valueOf_unsigned hs, ← unitsPerOne_cast] at hval
  exact_mod_cast hval

theorem i2f_ne_zero {n : Nat} (hpos : 0 < n) (h : n < 2 ^ 53) : isZero (i2f n) = false := by
  obtain ⟨-, -, hu⟩ := i2f_natCast h
  refine Bool.eq_false_iff.mpr fun hz => ?_
  rw [unitsOf_of_zero hz] at hu
  exact (Nat.mul_pos hpos unitsPerOne_pos).ne hu

/-! ### The frequency-position factor (41_masking.md R146) -/

/-- One more than a value up to a whole number is finite and at least 1. -/
theorem add64_one_bounds {q : F64} {n : Nat} (hf : isFinite q = true) (hs : signOf q = false)
    (hq : unitsOf q ≤ n * unitsPerOne) (hn : n + 1 < 2 ^ 53) :
    isFinite (add64 Config.one q) = true ∧ magOf Config.one ≤ magOf (add64 Config.one q) := by
  have hmag := magOf_add64_unsigned (x := Config.one) (by decide) hf (by decide) hs
  obtain ⟨m, hm, hu⟩ := exists_unitsOfMag_eq_nat hn
  rw [isFinite_iff, hmag]
  constructor
  · refine (roundMag_le_of_le Nat.one_pos hm ?_).trans_lt hm
    rw [hu, unitsOf_one, Nat.add_mul]
    omega
  · refine le_roundMag_of_le Nat.one_pos (by decide) ?_
    rw [← unitsOf_eq_mag]
    omega

/-- The divisor of the factor is finite and at least 1, so that the factor is finite. -/
theorem positionFactor_isFinite {lo hi : Nat} (h : lo + hi + 1 < 2 ^ 53) : isFinite (positionFactor lo hi) = true := by
  obtain ⟨hf, hs, hu⟩ := i2f_natCast (n := lo + hi) (by omega)
  have hblock : isFinite Config.fBlockLong = true ∧ magOf Config.one ≤ magOf Config.fBlockLong := by decide
  have hqf := div64_isFinite hf hblock.1 hblock.2
  have hqs : signOf (div64 (i2f (lo + hi : Nat)) Config.fBlockLong) = false := by
    rw [div64_finite hf hblock.1 (by decide), signOf_round64, hs]
    decide
  have hqu : unitsOf (div64 (i2f (lo + hi : Nat)) Config.fBlockLong) ≤ (lo + hi) * unitsPerOne := by
    rw [← hu, unitsOf_eq_mag, unitsOf_eq_mag (i2f _)]
    exact unitsOfMag_le (magOf_div64_le hf hblock.1 hblock.2) (isFinite_iff.mp hf).le
  obtain ⟨hdf, hdone⟩ := add64_one_bounds hqf hqs hqu h
  exact div64_isFinite (by decide) hdf hdone

/-! ### A band of zero lines (41_masking.md R149) -/

theorem isZero_round64_zero (b : Bool) {d : Nat} (hd : 0 < d) : isZero (round64 b 0 d) = true :=
  isZero_iff.mpr (by rw [magOf_round64, roundMag_zero hd])

theorem isZero_mul64_left {x y : F64} (hx : isZero x = true) (hy : isFinite y = true) : isZero (mul64 x y) = true := by
  rw [mul64_finite (zero_finite hx) hy, unitsOf_of_zero hx, Nat.zero_mul]
  exact isZero_round64_zero _ unitsPerOne_pos

theorem isZero_mul64_right {x y : F64} (hx : isFinite x = true) (hy : isZero y = true) : isZero (mul64 x y) = true := by
  rw [mul64_finite hx (zero_finite hy), unitsOf_of_zero hy, Nat.mul_zero]
  exact isZero_round64_zero _ unitsPerOne_pos

theorem isZero_add64 {x y : F64} (hx : isZero x = true) (hy : isZero y = true) : isZero (add64 x y) = true := by
  rw [add64_finite (zero_finite hx) (zero_finite hy), if_pos (by simp [valueOf, unitsOf_of_zero hx, unitsOf_of_zero hy])]
  exact isZero_ofMag_zero _

theorem unitsOf_pos {x : F64} (hf : isFinite x = true) (hz : isZero x = false) : 0 < unitsOf x := by
  rw [Nat.pos_iff_ne_zero, Ne, unitsOf_eq_zero hf, ← isZero_iff, hz]
  exact Bool.false_ne_true

theorem isZero_div64 {x y : F64} (hx : isZero x = true) (hf : isFinite y = true) (hz : isZero y = false) :
    isZero (div64 x y) = true := by
  rw [div64_finite (zero_finite hx) hf hz, unitsOf_of_zero hx, Nat.zero_mul]
  exact isZero_round64_zero _ (unitsOf_pos hf hz)

theorem isZero_energyStep {acc : F64 × F64} {x : F64} (hacc : isZero acc.1 = true ∧ isZero acc.2 = true)
    (hx : isZero x = true) : isZero (energyStep acc x).1 = true ∧ isZero (energyStep acc x).2 = true := by
  have hen := isZero_mul64_left hx (zero_finite hx)
  refine ⟨isZero_add64 hacc.1 hen, ?_⟩
  rw [energyStep]
  split
  next => exact hen
  next => exact hacc.2

/-- Both energies of a band of zero lines are zero. -/
theorem isZero_bandEnergy {lines : List F64} (h : ∀ x ∈ lines, isZero x = true) :
    isZero (bandEnergy lines).1 = true ∧ isZero (bandEnergy lines).2 = true := by
  induction lines using List.reverseRecOn with
  | nil => decide
  | append_singleton lines x ih =>
    rw [bandEnergy_append_singleton]
    exact isZero_energyStep (ih fun y hy => h y (List.mem_append_left _ hy)) (h x (by simp))

theorem pow64_zero (P : Params) {x : F64} (h : isZero x = true) : pow64 P x = plusZero := by
  simp [pow64, zero_not_nan h, h]

section ReferenceEnergy

variable {refenrg : F64} (hf : isFinite refenrg = true) (hz : isZero refenrg = false)

include hf hz

theorem isZero_ratioPower (P : Params) {energy : F64} (h : isZero energy = true) :
    isZero (ratioPower P refenrg energy) = true := by
  rw [ratioPower, pow64_zero P (isZero_div64 h hf hz)]
  decide

theorem isZero_blendedTarget (P : Params) {avge maxe : F64} (ha : isZero avge = true) (hm : isZero maxe = true) :
    isZero (blendedTarget P refenrg avge maxe) = true :=
  isZero_add64 (isZero_mul64_right (by decide) (isZero_ratioPower hf hz P ha))
    (isZero_mul64_right (by decide) (isZero_ratioPower hf hz P hm))

end ReferenceEnergy

/-- Settles O52: the energies are zero, so is the blend, and every factor after it is finite. -/
theorem zeroBandHasZeroTarget : Obligations.ZeroBandHasZeroTarget := by
  unfold Obligations.ZeroBandHasZeroTarget
  intro P short refenrg qr lo hi lines hlt hle _ hlines hf hz _ hqr
  obtain ⟨hsum, hmax⟩ := isZero_bandEnergy hlines
  obtain ⟨hwidth, -, -⟩ := i2f_natCast (n := hi - lo) (by omega)
  have havge := isZero_div64 hsum hwidth (i2f_ne_zero (by omega) (by omega))
  have hblend := isZero_blendedTarget hf hz P havge hmax
  have hfactor := positionFactor_isFinite (lo := lo) (hi := hi) (by omega)
  refine isZero_mul64_left (isZero_mul64_left ?_ hfactor) hqr
  split
  next => exact hblend
  next => exact isZero_mul64_left hblend (by decide)

end Sys2Proof.Masking
end

section
/-!
The scale-factor search and the companding law (42_companding.md R165 to R168) at their corners, and between the corners
by monotonicity: the product with a positive constant, the quotient by one, `I2F` and `RoundSF` all keep the order of
the values, so that the two ends of the logarithm's range bound every scale factor and its multiplier.
-/

namespace Sys2Proof.Companding

open Machine Laws Arithmetic Quantized Masking
open Config (Params)

/-- Settles O50: the sum that `TruncQ` is given never has its sign bit set. -/
theorem quantizedValuesAreNonNegative : Obligations.QuantizedValuesAreNonNegative := by
  unfold Obligations.QuantizedValuesAreNonNegative
  exact compand_bounds

/-! ### Rounding keeps the order -/

theorem roundMag_mono {d : Nat} (hd : 0 < d) : Monotone (roundMag · d) := by
  intro n n' hle
  by_contra hgt
  have hlt : roundMag n' d < roundMag n d := not_le.mp hgt
  have hbelow := midpointSum_le_of_lt_roundMag hd hlt
  have habove := le_midpointSum_of_roundMag_le hd le_rfl (hlt.trans_le (roundMag_le n d))
  obtain rfl : n = n' := by omega
  exact hgt le_rfl

theorem roundNearestEven_mono {d : Nat} (hd : 0 < d) : Monotone (roundNearestEven · d) := by
  intro n n' hle
  by_contra hgt
  have hlt : roundNearestEven n' d + 1 ≤ roundNearestEven n d := not_le.mp hgt
  obtain ⟨-, hbelow⟩ := roundNearestEven_spec n d hd
  obtain ⟨habove, -⟩ := roundNearestEven_spec n' d hd
  have hstep : 2 * (roundNearestEven n' d + 1) * d ≤ 2 * roundNearestEven n d * d :=
    Nat.mul_le_mul_right d (Nat.mul_le_mul_left 2 hlt)
  have hsplit : 2 * (roundNearestEven n' d + 1) * d = (2 * roundNearestEven n' d + 1) * d + d := by ring
  obtain rfl : n = n' := by omega
  exact hgt le_rfl

theorem roundNearestEven_zero (d : Nat) : roundNearestEven 0 d = 0 := by
  simp [roundNearestEven]

/-- A function of the magnitude, put back on the value's sign. -/
def oddExtend (f : Nat → Nat) (v : Int) : Int := if v < 0 then -(f v.natAbs : Int) else f v.natAbs

theorem oddExtend_mono {f : Nat → Nat} (h : Monotone f) : Monotone (oddExtend f) := by
  intro v w hvw
  unfold oddExtend
  split
  next hv =>
    split
    next hw => exact neg_le_neg (Int.ofNat_le.mpr (h (by omega)))
    next hw => omega
  next hv =>
    rw [if_neg (by omega)]
    exact Int.ofNat_le.mpr (h (by omega))

/-- Where the function takes 0 to 0, a zero's sign bit is of no account. -/
theorem signed_eq_oddExtend {f : Nat → Nat} (h0 : f 0 = 0) (x : F64) :
    signed x (f (unitsOf x)) = oddExtend f (valueOf x) := by
  unfold signed oddExtend valueOf
  cases signOf x
  · simp
  · rcases Nat.eq_zero_or_pos (unitsOf x) with hu | hu
    · simp [hu, h0]
    · simp [hu]

theorem orderKey_round64 (b : Bool) (n d : Nat) :
    orderKey (round64 b n d) = if b then -(roundMag n d : Int) else roundMag n d := by
  rw [orderKey, signOf_round64, magOf_round64]

theorem valueOf_le_of_orderKey_le {x y : F64} (hx : isFinite x = true) (hy : isFinite y = true)
    (h : orderKey x ≤ orderKey y) : valueOf x ≤ valueOf y :=
  not_lt.mp fun hlt => h.not_gt ((valueOf_lt hy hx).mp hlt)

/-- A pattern between two finite ones is finite. -/
theorem isFinite_of_orderKey_between {lo x hi : F64} (hlo : isFinite lo = true) (hhi : isFinite hi = true)
    (h1 : orderKey lo ≤ orderKey x) (h2 : orderKey x ≤ orderKey hi) : isFinite x = true := by
  rw [isFinite_iff, magOf_eq_key] at hlo hhi ⊢
  omega

section PositiveConstant

variable {x y c : F64} (hx : isFinite x = true) (hc : isFinite c = true) (hs : signOf c = false)

include hx hc hs

theorem orderKey_mul64_eq :
    orderKey (mul64 x c) = oddExtend (fun n => roundMag (n * unitsOf c) unitsPerOne) (valueOf x) := by
  rw [← signed_eq_oddExtend (by simp only [Nat.zero_mul, roundMag_zero unitsPerOne_pos]), mul64_finite hx hc,
    orderKey_round64, hs, Bool.xor_false, signed]

theorem orderKey_div64_eq (hz : isZero c = false) :
    orderKey (div64 x c) = oddExtend (fun n => roundMag (n * unitsPerOne) (unitsOf c)) (valueOf x) := by
  rw [← signed_eq_oddExtend (by simp only [Nat.zero_mul, roundMag_zero (unitsOf_pos hc hz)]), div64_finite hx hc hz,
    orderKey_round64, hs, Bool.xor_false, signed]

theorem mul64_mono (hy : isFinite y = true) (h : orderKey x ≤ orderKey y) :
    orderKey (mul64 x c) ≤ orderKey (mul64 y c) := by
  rw [orderKey_mul64_eq hx hc hs, orderKey_mul64_eq hy hc hs]
  exact oddExtend_mono (fun _ _ hle => roundMag_mono unitsPerOne_pos (Nat.mul_le_mul_right _ hle))
    (valueOf_le_of_orderKey_le hx hy h)

theorem div64_mono (hz : isZero c = false) (hy : isFinite y = true) (h : orderKey x ≤ orderKey y) :
    orderKey (div64 x c) ≤ orderKey (div64 y c) := by
  rw [orderKey_div64_eq hx hc hs hz, orderKey_div64_eq hy hc hs hz]
  exact oddExtend_mono (fun _ _ hle => roundMag_mono (unitsOf_pos hc hz) (Nat.mul_le_mul_right _ hle))
    (valueOf_le_of_orderKey_le hx hy h)

end PositiveConstant

theorem orderKey_i2f (n : Int) : orderKey (i2f n) = oddExtend (fun k => roundMag (k * unitsPerOne) 1) n := by
  rw [i2f, orderKey_round64]
  simp only [decide_eq_true_eq]
  rfl

theorem i2f_mono {m n : Int} (h : m ≤ n) : orderKey (i2f m) ≤ orderKey (i2f n) := by
  rw [orderKey_i2f, orderKey_i2f]
  exact oddExtend_mono (fun _ _ hle => roundMag_mono Nat.one_pos (Nat.mul_le_mul_right _ hle)) h

theorem roundSF_mono {x y : F64} (hx : isFinite x = true) (hy : isFinite y = true) (h : orderKey x ≤ orderKey y) :
    roundSF x ≤ roundSF y := by
  have hsigned (v : F64) : signed v (roundNearestEven (unitsOf v) unitsPerOne) =
      oddExtend (roundNearestEven · unitsPerOne) (valueOf v) :=
    signed_eq_oddExtend (f := (roundNearestEven · unitsPerOne)) (roundNearestEven_zero unitsPerOne) v
  have hle := oddExtend_mono (roundNearestEven_mono unitsPerOne_pos) (valueOf_le_of_orderKey_le hx hy h)
  rw [roundSF_finite hx, roundSF_finite hy, hsigned, hsigned]
  exact max_le_max_left _ (min_le_min_left _ hle)

/-! ### The scale factor of a finite positive ratio (42_companding.md R165) -/

/-- The logarithm lies in its range, the one of 1 too (log entry 20). -/
theorem log64_between (P : Params) {x : F64} (hf : isFinite x = true) (hz : isZero x = false) (hs : signOf x = false) :
    orderKey logBottom ≤ orderKey (log64 P x) ∧ orderKey (log64 P x) ≤ orderKey expTop := by
  by_cases h1 : x = Config.one
  · have hlog : log64 P x = plusZero := by
      rw [h1]
      rfl
    rw [hlog]
    decide
  · obtain ⟨hn, hlow, hhigh⟩ :=
      clamp64_mem (lo := logBottom) (hi := expTop) (P.log x) (by decide) (by decide) (by decide)
    rw [log64_regular P hf hz hs h1]
    rw [← Bool.not_eq_true, lt64_iff hn (by decide)] at hlow
    rw [← Bool.not_eq_true, gt64_iff hn (by decide)] at hhigh
    exact ⟨not_lt.mp hlow, not_lt.mp hhigh⟩

theorem sfstep_positive :
    isFinite Config.sfstep = true ∧ signOf Config.sfstep = false ∧ isZero Config.sfstep = false := by decide

theorem scaleFactor_between (P : Params) {target rms : F64} (hf : isFinite (div64 target rms) = true)
    (hz : isZero (div64 target rms) = false) (hs : signOf (div64 target rms) = false) :
    -4311 ≤ scaleFactor P target rms ∧ scaleFactor P target rms ≤ 4110 := by
  obtain ⟨hcf, hcs, -⟩ := sfstep_positive
  obtain ⟨hlow, hhigh⟩ := log64_between P hf hz hs
  have hbottom : isFinite logBottom = true := by decide
  have htop : isFinite expTop = true := by decide
  have hlog := isFinite_of_orderKey_between hbottom htop hlow hhigh
  have hmlow := mul64_mono hbottom hcf hcs hlog hlow
  have hmhigh := mul64_mono hlog hcf hcs htop hhigh
  have hbottomMul : isFinite (mul64 logBottom Config.sfstep) = true := by decide +kernel
  have htopMul : isFinite (mul64 expTop Config.sfstep) = true := by decide +kernel
  have hmul := isFinite_of_orderKey_between hbottomMul htopMul hmlow hmhigh
  have hbottomSf : roundSF (mul64 logBottom Config.sfstep) = -4311 := by decide +kernel
  have htopSf : roundSF (mul64 expTop Config.sfstep) = 4110 := by decide +kernel
  exact ⟨hbottomSf.symm.trans_le (roundSF_mono hbottomMul hmul hmlow),
    (roundSF_mono hmul htopMul hmhigh).trans_eq htopSf⟩

/-! ### Its multiplier (42_companding.md R166) -/

/-- `Exp64` is finite up to its greatest operand. -/
theorem exp64_isFinite (P : Params) {x : F64} (hf : isFinite x = true) (h : orderKey x ≤ orderKey expTop) :
    isFinite (exp64 P x) = true := by
  have htop : gt64 x expTop = false := by
    rw [← Bool.not_eq_true, gt64_iff (finite_not_nan hf).1 (by decide)]
    exact h.not_gt
  cases hz : isZero x with
  | true =>
    rw [exp64_zero P hz]
    decide
  | false =>
    cases hbottom : lt64 x expBottom with
    | true =>
      rw [exp64_underflow P hbottom]
      decide
    | false =>
      rw [exp64_inRange P hf hz htop hbottom]
      exact clamp64_finite _ (by decide) (by decide) (by decide)

theorem multiplier_isFinite (P : Params) {sf : Int} (h1 : -4311 ≤ sf) (h2 : sf ≤ 4110) :
    isFinite (multiplier P sf) = true := by
  obtain ⟨hcf, hcs, hcz⟩ := sfstep_positive
  obtain ⟨hlowF, -⟩ := integersConvertExactly (-4311) (by decide)
  obtain ⟨hsfF, -⟩ := integersConvertExactly sf (by omega)
  obtain ⟨hhighF, -⟩ := integersConvertExactly 4110 (by decide)
  have hlow := div64_mono hlowF hcf hcs hcz hsfF (i2f_mono h1)
  have hhigh := div64_mono hsfF hcf hcs hcz hhighF (i2f_mono h2)
  have htop : orderKey (div64 (i2f 4110) Config.sfstep) ≤ orderKey expTop := by decide +kernel
  exact exp64_isFinite P (isFinite_of_orderKey_between (by decide +kernel) (by decide +kernel) hlow hhigh)
    (hhigh.trans htop)

theorem multiplier_zero (P : Params) : multiplier P 0 = 0x3FF0000000000000 :=
  exp64_zero P (by decide +kernel)

theorem multiplier_greatest (P : Params) : multiplier P 2147483647 = 0x7FF0000000000000 :=
  exp64_overflow P (by decide +kernel)

theorem multiplier_least (P : Params) : multiplier P (-2147483647) = 0x0000000000000000 :=
  exp64_underflow P (by decide +kernel)

/-! ### The other targets (42_companding.md R168) -/

/-- A ratio to a finite positive RMS has the target's sign, and is no NaN if the target is none. -/
theorem div64_positive_sign {target rms : F64} (hn : isNaN target = false) (hf : isFinite rms = true)
    (hz : isZero rms = false) (hs : signOf rms = false) :
    isNaN (div64 target rms) = false ∧ signOf (div64 target rms) = signOf target := by
  rcases not_nan_cases target hn with hi | ht
  · simp [div64_inf_left hi hf, hs, inf_not_nan]
  · simp [div64_finite ht hf hz, hs]

theorem scaleFactor_of_nan_log {P : Params} {target rms : F64} (h : isNaN (log64 P (div64 target rms)) = true) :
    scaleFactor P target rms = 0 := by
  rw [scaleFactor, mul64_nan (Or.inl h)]
  rfl

theorem scaleFactor_of_nan_target (P : Params) {target : F64} (rms : F64) (h : isNaN target = true) :
    scaleFactor P target rms = 0 := by
  apply scaleFactor_of_nan_log
  rw [div64_nan (Or.inl h)]
  rfl

theorem scaleFactor_of_negative_ratio (P : Params) {target rms : F64} (hn : isNaN (div64 target rms) = false)
    (hz : isZero (div64 target rms) = false) (hs : signOf (div64 target rms) = true) :
    scaleFactor P target rms = 0 :=
  scaleFactor_of_nan_log (by simp [log64, hn, hz, hs])

theorem scaleFactor_of_infinite_target (P : Params) {rms : F64} (hf : isFinite rms = true) (hs : signOf rms = false) :
    scaleFactor P 0x7FF0000000000000 rms = 2147483647 := by
  have hratio : div64 0x7FF0000000000000 rms = 0x7FF0000000000000 := by
    rw [div64_inf_left (by decide) hf, hs]
    decide
  have hlog : log64 P 0x7FF0000000000000 = 0x7FF0000000000000 := rfl
  rw [scaleFactor, hratio, hlog]
  decide

theorem scaleFactor_of_zero_ratio (P : Params) {target rms : F64} (h : isZero (div64 target rms) = true) :
    scaleFactor P target rms = -2147483647 := by
  have hlog : log64 P (div64 target rms) = ofMag true infMag := by simp [log64, zero_not_nan h, h]
  rw [scaleFactor, hlog]
  decide

/-! ### The lines (42_companding.md R166, R168) -/

@[simp] theorem isNaN_abs64 (x : F64) : isNaN (abs64 x) = isNaN x := by simp [isNaN]

@[simp] theorem isZero_abs64 (x : F64) : isZero (abs64 x) = isZero x := by simp [isZero]

@[simp] theorem isFinite_abs64 (x : F64) : isFinite (abs64 x) = isFinite x := by simp [isFinite]

theorem compand_of_nan_product {m x : F64} (h : mul64 (abs64 x) m = quietNaN) : compand m x = 0 := by
  rw [compand, h]
  decide

theorem compand_nan {x : F64} (m : F64) (h : isNaN x = true) : compand m x = 0 :=
  compand_of_nan_product (mul64_nan (Or.inl (by rw [isNaN_abs64, h])))

theorem compand_inf_zero {x : F64} (h : isZero x = true) : compand 0x7FF0000000000000 x = 0 := by
  refine compand_of_nan_product ?_
  rw [mul64_inf_right (by decide) (by rw [isNaN_abs64, (zero_not_nan h).1]), isZero_abs64, if_pos h]

theorem compand_inf_of_ne_zero {x : F64} (hn : isNaN x = false) (hz : isZero x = false) :
    compand 0x7FF0000000000000 x = 2147483647 := by
  have hmul : mul64 (abs64 x) 0x7FF0000000000000 = 0x7FF0000000000000 := by
    rw [mul64_inf_right (by decide) (by rw [isNaN_abs64, hn]), isZero_abs64, hz, signOf_abs64]
    decide
  rw [compand, hmul]
  decide

/-- The product is +0 for a finite line and a NaN for an infinite one; `MAGIC` alone truncates to 0. -/
theorem compand_zero_multiplier (x : F64) : compand 0x0000000000000000 x = 0 := by
  cases hn : isNaN x with
  | true => exact compand_nan _ hn
  | false =>
    rcases not_nan_cases x hn with hi | hf
    · refine compand_of_nan_product ?_
      have habs : isInf (abs64 x) = true := by rw [isInf_iff, magOf_abs64, isInf_iff.mp hi]
      rw [mul64_inf_left habs (by decide), if_pos (by decide)]
    · have hmul : mul64 (abs64 x) 0 = 0 := by
        rw [mul64_finite (by rw [isFinite_abs64, hf]) (by decide), unitsOf_of_zero (x := 0) (by decide), Nat.mul_zero,
          round64, roundMag_zero unitsPerOne_pos, signOf_abs64]
        decide
      rw [compand, hmul]
      decide +kernel

/-- Settles O51: each corner by its own lemma, and the finite positive ratios by the ends of the logarithm's range. -/
theorem cornerTargetsGiveTheirScaleFactors : Obligations.CornerTargetsGiveTheirScaleFactors := by
  unfold Obligations.CornerTargetsGiveTheirScaleFactors
  intro P
  refine ⟨fun target rms hf hz hs => ⟨scaleFactor_of_nan_target P rms, fun hn hneg hratio => ?_, ?_,
    scaleFactor_of_zero_ratio P, fun hfin hratio hpos => ?_⟩, multiplier_zero P, multiplier_greatest P,
    multiplier_least P, fun x => ⟨?_, compand_inf_of_ne_zero, compand_zero_multiplier x, fun hn m => compand_nan m hn⟩⟩
  · obtain ⟨hrn, hrs⟩ := div64_positive_sign hn hf hz hs
    exact scaleFactor_of_negative_ratio P hrn hratio (hrs.trans hneg)
  · rintro rfl
    exact scaleFactor_of_infinite_target P hf hs
  · have hn : isNaN target = false := by
      refine Bool.eq_false_iff.mpr fun hn => ?_
      rw [div64_nan (Or.inl hn)] at hfin
      exact absurd hfin (by decide)
    obtain ⟨-, hrs⟩ := div64_positive_sign hn hf hz hs
    obtain ⟨hlow, hhigh⟩ := scaleFactor_between P hfin hratio (hrs.trans hpos)
    exact ⟨hlow, hhigh, multiplier_isFinite P hlow hhigh⟩
  · rintro (hn | hz)
    · exact compand_nan _ hn
    · exact compand_inf_zero hz

end Sys2Proof.Companding
end

section
/-!
The scale factor and companding stage band by band (42_companding.md R160 to R169): what a QBLK leaves of a band, line
by line, from the band's own lines.
-/

namespace Sys2Proof.BandQuantization

open Machine Laws
open Config (Params)

/-! ### One line of a band -/

/-- What the companding stage stores for the line `x` of a band. -/
def quantizedLine (P : Params) (target : F64) (lines : List F64) (x : F64) : Word :=
  if silentBand target lines then 0
  else BitVec.ofInt 32 (compand (multiplier P (scaleFactor P target (rmsOf lines lines.length))) x)

theorem quantizeBand_lines (P : Params) (target : F64) (lines : List F64) :
    (quantizeBand P target lines).2 = lines.map (quantizedLine P target lines) := by
  unfold quantizeBand quantizedLine
  split <;> rfl

/-- The two causes of silence (42_companding.md R162, R163); both zeros are a zero target. -/
theorem silentBand_iff {target : F64} {lines : List F64} :
    silentBand target lines = true ↔ lt64 (peakOf lines) Config.silFloor = true ∨ isZero target = true := by
  rw [silentBand, eq64_plusZero, Bool.or_eq_true]

theorem quantizeBand_sf_of_silent {P : Params} {target : F64} {lines : List F64}
    (h : silentBand target lines = true) : (quantizeBand P target lines).1 = P.sfSilent := by
  rw [quantizeBand, if_pos h]

theorem quantizedLine_of_silent {P : Params} {target : F64} {lines : List F64} (h : silentBand target lines = true)
    (x : F64) : quantizedLine P target lines x = 0 :=
  if_pos h

theorem quantizedLine_of_signal {P : Params} {target : F64} {lines : List F64} (h : silentBand target lines = false)
    (x : F64) : quantizedLine P target lines x =
      BitVec.ofInt 32 (compand (multiplier P (scaleFactor P target (rmsOf lines lines.length))) x) := by
  rw [quantizedLine, h, if_neg Bool.false_ne_true]

/-! ### The bands of a block with signal -/

/-- What a QBLK of a block with signal leaves of each band, its lines by their number in the block. -/
theorem exec_qblk_lines {s : State} (hr : QblkReady machineParams s.toArch) (hb : BlockSignal machineParams s.toArch) :
    ∃ t, exec .qblk s = .next t ∧ ∀ b, b < s.nsfb.toNat →
      bandqAt machineParams t.toArch b = bandTarget machineParams s.toArch b ∧
      sfAt machineParams t.toArch b =
        (quantizeBand machineParams (bandTarget machineParams s.toArch b) (bandLines machineParams s.toArch b)).1 ∧
      ∀ i, sfboffAt machineParams s.toArch b ≤ i → i < sfboffAt machineParams s.toArch (b + 1) →
        xiAt machineParams t.toArch i = quantizedLine machineParams (bandTarget machineParams s.toArch b)
          (bandLines machineParams s.toArch b) (xrAt machineParams s.toArch i) := by
  obtain ⟨t, hexec, hbands⟩ := exec_qblk_bands hr hb
  refine ⟨t, hexec, fun b hlt => ?_⟩
  obtain ⟨htarget, hsf, hlines⟩ := hbands b hlt
  refine ⟨htarget, hsf, fun i hlo hhi => ?_⟩
  obtain ⟨j, rfl⟩ := Nat.exists_eq_add_of_le hlo
  have hj : j < (bandLines machineParams s.toArch b).length := by
    rw [bandLines, length_linesOf]
    exact Nat.lt_sub_of_add_lt (by rwa [Nat.add_comm])
  simp only [quantizeBand_lines] at hlines
  rw [hlines j (by rwa [List.length_map]), List.getElem_map]
  exact congrArg _ (getElem_linesOf machineParams s.toArch _ _ j hj)

/-- Settles O45: either cause makes the band silent. -/
theorem qblkSilentBandsGetTheSentinel : Obligations.QblkSilentBandsGetTheSentinel := by
  unfold Obligations.QblkSilentBandsGetTheSentinel
  intro s hr hsig
  obtain ⟨t, hexec, hbands⟩ := exec_qblk_lines hr hsig
  refine ⟨t, hexec, fun b hlt => ?_⟩
  obtain ⟨htarget, hsf, hlines⟩ := hbands b hlt
  intro lo hi hcause
  rw [htarget] at hcause
  have hsilent : silentBand (bandTarget machineParams s.toArch b) (bandLines machineParams s.toArch b) = true :=
    silentBand_iff.mpr hcause
  exact ⟨hsf.trans (quantizeBand_sf_of_silent hsilent),
    fun i hlo hhi => (hlines i hlo hhi).trans (quantizedLine_of_silent hsilent _)⟩

/-- Settles O46: a band with neither cause of silence is companded with the scale factor of its own target and RMS,
which the statement writes out. -/
theorem qblkCompandsTheOtherBands : Obligations.QblkCompandsTheOtherBands := by
  unfold Obligations.QblkCompandsTheOtherBands
  intro s hr hsig
  obtain ⟨t, hexec, hbands⟩ := exec_qblk_lines hr hsig
  refine ⟨t, hexec, fun b hlt => ?_⟩
  obtain ⟨htarget, hsf, hlines⟩ := hbands b hlt
  intro lo hi energy target rms sf m hpeak hzero
  have hsignal : silentBand target (bandLines machineParams s.toArch b) = false := by
    rw [← Bool.not_eq_true, silentBand_iff, not_or, Bool.not_eq_true, Bool.not_eq_true]
    exact ⟨hpeak, hzero⟩
  have hrms : rms = rmsOf (bandLines machineParams s.toArch b) (bandLines machineParams s.toArch b).length := by
    rw [bandLines, length_linesOf]
    rfl
  have hscale : sf = scaleFactor machineParams target
      (rmsOf (bandLines machineParams s.toArch b) (bandLines machineParams s.toArch b).length) := by
    rw [← hrms]
    rfl
  rw [← htarget] at hsf hlines
  refine ⟨?_, fun i hlo hhi => ?_⟩
  · rw [hsf, quantizeBand_of_signal _ _ _ hsignal, hscale]
  · rw [hlines i hlo hhi, quantizedLine_of_signal hsignal, ← hscale]
    rfl

/-! ### Independence of the bands (42_companding.md R169) -/

section TwoBlocks

variable {P : Params} {s s' : Arch} {b c : Nat}

theorem bandLines_eq_of_same_lines (hlo : sfboffAt P s b = sfboffAt P s' c)
    (hhi : sfboffAt P s (b + 1) = sfboffAt P s' (c + 1))
    (hxr : ∀ i, sfboffAt P s b ≤ i → i < sfboffAt P s (b + 1) → xrAt P s i = xrAt P s' i) :
    bandLines P s b = bandLines P s' c := by
  simp only [bandLines, bandBounds, linesOf, ← hlo, ← hhi]
  refine List.map_congr_left fun i hi => ?_
  have hmem := List.mem_range'_1.mp hi
  exact hxr i (by omega) (by omega)

/-- A band's target, its NaN pattern too (log entry 5), is a function of the settings, its bounds and its lines. -/
theorem bandTarget_eq_of_same_operands (hblk : s.blktype = s'.blktype) (href : s.refenrg = s'.refenrg)
    (hqual : s.quality = s'.quality) (hlo : sfboffAt P s b = sfboffAt P s' c)
    (hhi : sfboffAt P s (b + 1) = sfboffAt P s' (c + 1)) (hlines : bandLines P s b = bandLines P s' c) :
    bandTarget P s b = bandTarget P s' c := by
  simp only [bandLines, bandBounds, hlo, hhi] at hlines
  simp only [bandTarget, bandBounds, qualityRatio, targetOperands, Arch.onlyShort, hblk, href, hqual, hlines, hlo, hhi]

end TwoBlocks

/-- Settles O48: the two bands have the same lines and so the same target, of which every result is a function. -/
theorem bandsAreQuantizedIndependently : Obligations.BandsAreQuantizedIndependently := by
  unfold Obligations.BandsAreQuantizedIndependently
  intro s s' b c hr hr' hsig hsig' hb hc hblk href hqual hlo hhi hxr
  have hlines := bandLines_eq_of_same_lines hlo hhi hxr
  have htarget := bandTarget_eq_of_same_operands hblk href hqual hlo hhi hlines
  obtain ⟨t, hexec, hbands⟩ := exec_qblk_lines hr hsig
  obtain ⟨t', hexec', hbands'⟩ := exec_qblk_lines hr' hsig'
  obtain ⟨hq, hsf, hxi⟩ := hbands b hb
  obtain ⟨hq', hsf', hxi'⟩ := hbands' c hc
  refine ⟨t, t', hexec, hexec', ?_, ?_, fun i hi1 hi2 => ?_⟩
  · rw [hq, hq', htarget]
  · rw [hsf, hsf', htarget, hlines]
  · rw [hxi i hi1 hi2, hxi' i (hlo ▸ hi1) (hhi ▸ hi2), htarget, hlines, hxr i hi1 hi2]

end Sys2Proof.BandQuantization
end

section
/-!
QBLK, the Block Quantization Orchestrator command (43_qblk.md), as a whole: its three errors, what it leaves of a silent
block and of a block with signal, and which lines its bands cover.
-/

namespace Sys2Proof.BlockOrchestration

open Machine Laws StateFrame
open Config (Params)

/-! ### The check (43_qblk.md R181) -/

theorem qblkCheck_of_unconfigured {P : Params} {s : Arch} (h : s.cfgv = false) : qblkCheck P s = some .cfgUninit :=
  if_pos (by rw [h]; rfl)

theorem qblkCheck_of_count_over {P : Params} {s : Arch} (hcfgv : s.cfgv = true) (h : Config.maxSfb < s.nsfb.toNat) :
    qblkCheck P s = some .bandOvf := by
  rw [qblkCheck, hcfgv, if_neg (by decide), if_pos h]

theorem qblkCheck_of_invalid_table {P : Params} {s : Arch} (hcfgv : s.cfgv = true)
    (hcount : s.nsfb.toNat ≤ Config.maxSfb) (h : ¬ BandTableValid P s) : qblkCheck P s = some .bandTable := by
  rw [← bandTableOk_iff, Bool.not_eq_true] at h
  rw [qblkCheck, hcfgv, if_neg (by decide), if_neg hcount.not_gt, h, if_pos (by decide)]

/-- The three ways a band table can be invalid. -/
theorem not_bandTableValid_iff {P : Params} {s : Arch} :
    ¬ BandTableValid P s ↔ sfboffAt P s 0 ≠ 0 ∨ (∃ b, b < s.nsfb.toNat ∧ sfboffAt P s (b + 1) ≤ sfboffAt P s b) ∨
      Config.frameLen < sfboffAt P s s.nsfb.toNat := by
  simp only [BandTableValid, not_and_or, not_forall, not_lt, not_le, exists_prop, ne_eq]

theorem exec_qblk_error {s : State} {e : ErrCode} (h : qblkCheck machineParams s.toArch = some e) :
    exec .qblk s = .next { s with toArch := failCommand e s.toArch } := by
  rw [exec_qblk, qblkComplete, h]

/-- Settles O40: the three branches of the check that answer an error, and the one that answers none. -/
theorem qblkErrorsInOrder : Obligations.QblkErrorsInOrder := by
  unfold Obligations.QblkErrorsInOrder
  intro s
  refine ⟨fun hcfgv => ?_, fun hcfgv hcount => ?_, fun hcfgv hcount htable => ?_, fun hready => ?_⟩
  · exact exec_qblk_error (qblkCheck_of_unconfigured hcfgv)
  · exact exec_qblk_error (qblkCheck_of_count_over hcfgv hcount)
  · exact exec_qblk_error (qblkCheck_of_invalid_table hcfgv hcount (not_bandTableValid_iff.mpr htable))
  · refine ⟨_, exec_qblk_ready hready, rfl, ?_, ?_⟩
    · rw [qblkResults_eq]; rfl
    · rw [qblkResults_eq]; rfl

/-! ### A silent block (43_qblk.md R185) -/

/-- Settles O41: a silent block runs the output reset alone. -/
theorem qblkSilentBlockCompletes : Obligations.QblkSilentBlockCompletes := by
  unfold Obligations.QblkSilentBlockCompletes
  intro s hready hbelow
  have hsilent : ¬ BlockSignal machineParams s.toArch := by
    rintro ⟨i, hi, habove⟩
    exact absurd ((hbelow i hi).symm.trans habove) (by decide)
  refine ⟨(clearOutputs s.toArch).mem, ?_, fun i hi => clearOutputs_xi machineParams s.toArch hi,
    fun x hx => clearOutputs_byte machineParams s.toArch hx⟩
  rw [exec_qblk_ready hready, qblkResults_silent hsilent]
  rfl

/-! ### A block with signal (43_qblk.md R184) -/

/-- A byte is read from the listed bytes and the reset's number alone. -/
theorem byteAt_with_mem {s t : Arch} (P : Params) (h : t.ramEpoch = s.ramEpoch) (x : Nat) :
    byteAt P { s with mem := t.mem } x = byteAt P t x := by
  simp only [byteAt, h]

/-- Settles O42: the frame of the two stages, to which completion adds `SIGNAL`, `DONE` and the idle Sequencer. -/
theorem qblkWithSignalCompletes : Obligations.QblkWithSignalCompletes := by
  unfold Obligations.QblkWithSignalCompletes
  intro s hready hsignal
  obtain ⟨hregs, -, hbytes, -, -⟩ := stages_spec machineParams s.toArch hready
  refine ⟨(qlevelStage machineParams (maskStage machineParams (clearOutputs s.toArch))).mem, ?_,
    fun x hsf hbandq hxi => ?_⟩
  · rw [exec_qblk_ready hready, qblkResults_signal hsignal, hregs]
    rfl
  · rw [byteAt_with_mem machineParams (by rw [hregs])]
    exact hbytes x hsf hbandq hxi

/-! ### The lines outside every band (43_qblk.md R186) -/

/-- Whether its block has a signal or not, a QBLK leaves 0 in the lines from the table's last boundary on. -/
theorem qblkResults_xi_of_no_band {P : Params} {s : Arch} (hr : QblkReady P s) {i : Nat}
    (hlast : sfboffAt P s s.nsfb.toNat ≤ i) (hi : i < 1024) : xiAt P (qblkResults P s) i = 0 := by
  by_cases hsignal : BlockSignal P s
  · obtain ⟨-, -, -, hlines, -⟩ := stages_spec P s hr
    rw [qblkResults_signal hsignal]
    exact hlines i hlast hi
  · rw [qblkResults_silent hsignal]
    exact clearOutputs_xi P s hi

theorem xiAt_completeCommand (P : Params) (s : Arch) (i : Nat) : xiAt P (completeCommand s) i = xiAt P s i := rfl

/-- Settles O47: `SIGNAL` is the scan over all lines, and no stage writes a line that belongs to no band. -/
theorem qblkZeroesLinesOutsideEveryBand : Obligations.QblkZeroesLinesOutsideEveryBand := by
  unfold Obligations.QblkZeroesLinesOutsideEveryBand
  intro s hready
  refine ⟨_, exec_qblk_ready hready, ?_, fun i hlast hi => ?_⟩
  · rw [completeCommand_signal, signal_qblkResults, blockHasSignal_iff]
  · rw [xiAt_completeCommand]
    exact qblkResults_xi_of_no_band hready hlast hi

/-! ### The lines of the bands (43_qblk.md R188) -/

/-- The number of lines of band `b` of the table. -/
def bandWidth (P : Params) (s : Arch) (b : Nat) : Nat := sfboffAt P s (b + 1) - sfboffAt P s b

/-- In a valid table the bands before boundary `k` cover the lines below it without a gap. -/
theorem linesBefore_bandWidth {P : Params} {s : Arch} (hv : BandTableValid P s) {k : Nat} (hk : k ≤ s.nsfb.toNat) :
    linesBefore (bandWidth P s) k = sfboffAt P s k := by
  obtain ⟨hzero, hrises, -⟩ := hv
  induction k with
  | zero => exact hzero.symm
  | succ k ih =>
    have hlt : sfboffAt P s k < sfboffAt P s (k + 1) := hrises k hk
    rw [linesBefore_succ, ih (Nat.le_of_succ_le hk), bandWidth, Nat.add_sub_cancel' hlt.le]

/-- Settles O49: the widths are summed up to the last boundary. -/
theorem bandWidthsSumToTheLengthInUse : Obligations.BandWidthsSumToTheLengthInUse := by
  unfold Obligations.BandWidthsSumToTheLengthInUse
  intro P s hready
  obtain ⟨-, -, hv⟩ := hready
  exact ⟨linesBefore_bandWidth hv le_rfl, sfboffAt_le_block hv le_rfl⟩

end Sys2Proof.BlockOrchestration
end

section
/-!
The interrupt line, the accesses that the bus refuses, and what the Host's events leave of the commands' outputs
(60_exceptions.md R202, R210, R225).
-/

namespace Sys2Proof.Exceptions

open Machine Laws StateMap StateFrame BusAccess
open Config (Params)

/-! ### The interrupt line (60_exceptions.md R210) -/

theorem irq_iff (a : Arch) :
    a.irq = true ↔ (a.done = true ∧ a.ieDone = true) ∨ (a.err = true ∧ a.ieErr = true) := by
  simp only [Arch.irq, Bool.or_eq_true, Bool.and_eq_true]

/-- `DONE` and `ERR` as `STATUS` reads. -/
theorem readReg_status_flags (a : Arch) :
    (readReg a .status).getLsbD 1 = a.done ∧ (readReg a .status).getLsbD 2 = a.err := by
  obtain ⟨-, hdone, herr, -, -⟩ := statusWord_flags a
  exact ⟨hdone, herr⟩

/-- `IE_DONE` and `IE_ERR` as `CTRL` reads. -/
theorem readReg_ctrl_enables (a : Arch) :
    (readReg a .ctrl).getLsbD 0 = a.ieDone ∧ (readReg a .ctrl).getLsbD 1 = a.ieErr := by
  simp [readReg, Arch.ieDone, Arch.ieErr]

/-- Acceptance clears `DONE`, so only `ERR` can hold the line up. -/
theorem irq_acceptCommand (op : Instr) (a : Arch) :
    (acceptCommand op a).irq = true ↔ a.err = true ∧ a.ieErr = true := by
  simp [irq_iff, Arch.ieErr]

/-- Settles O16: the flags and the enables are the bits read, and acceptance leaves the error's part of the line. -/
theorem irqFollowsStatusAndControl : Obligations.IrqFollowsStatusAndControl := by
  unfold Obligations.IrqFollowsStatusAndControl
  intro a op
  obtain ⟨hdone, herr⟩ := readReg_status_flags a
  obtain ⟨hieDone, hieErr⟩ := readReg_ctrl_enables a
  rw [hdone, herr, hieDone, hieErr]
  exact ⟨irq_iff a, irq_acceptCommand op a⟩

/-! ### Refused accesses (20_memory.md R74, 60_exceptions.md R202) -/

theorem inWindow_of_lt {a : Access} (h : a.off < 0x10000) : a.inWindow = true := decide_eq_true h

theorem wellFormed_false_of_refused {a : Access} (h : a.off % 4 ≠ 0 ∨ a.width ≠ .word) : a.wellFormed = false := by
  rcases h with hoff | hwidth
  · have haligned : a.aligned = false := beq_false_of_ne hoff
    simp [Access.wellFormed, haligned]
  · have hword : a.isWord = false := beq_false_of_ne hwidth
    simp [Access.wellFormed, hword]

/-- The step of an access that is misaligned or not 32 bits wide. -/
theorem step_refused {s : State} {a : Access} {rest : List HostEvent} (hoff : a.off < 0x10000)
    (h : a.off % 4 ≠ 0 ∨ a.width ≠ .word) (hn : NextEvent s (.access a) rest) :
    step s = .next { s with bus := rest, lat := s.lat - 1, resp := some (refusedResponse a) } :=
  (step_event hn).trans (hostAccess_refused (inWindow_of_lt hoff) (wellFormed_false_of_refused h))

/-- Settles O23: the step of a refused access changes the bus, its response and the countdown alone. -/
theorem refusedAccessChangesNothing : Obligations.RefusedAccessChangesNothing := by
  unfold Obligations.RefusedAccessChangesNothing
  intro s a rest hoff h hn
  refine ⟨_, step_refused hoff h hn, rfl, rfl, fun o w hread => ?_, fun o w v hwrite => ?_⟩
  · rw [hread]; rfl
  · rw [hwrite]; rfl

/-! ### The outputs between completion steps (20_memory.md R81, 60_exceptions.md R225) -/

/-- A word that begins in a local memory lies in it whole. -/
theorem holds_word {m : Ram} {off x : Nat} (h : m.holds off = true) (h4 : off % 4 = 0) (hle : off ≤ x)
    (hlt : x < off + 4) : m.holds x = true := by
  have hbase : m.base % 4 = 0 := by cases m <;> rfl
  have hbytes : m.bytes % 4 = 0 := by cases m <;> rfl
  rw [holds_iff] at h ⊢
  omega

/-- A word that the Host writes to a local memory has no byte in an output memory. -/
theorem output_byte_outside_word {m n : Ram} {off x : Nat} (hm : m.holds off = true) (hrw : m.kind = .rw)
    (h4 : off % 4 = 0) (hn : n.holds x = true) (hro : n.kind = .ro) : x < off ∨ off + 4 ≤ x := by
  by_contra hin
  have hmn : m = n := ram_eq_of_holds (holds_word hm h4 (by omega) (by omega)) hn
  rw [hmn, hro] at hrw
  cases hrw

/-- It serves every operation that sets fields other than the outputs: these unfold to the same values. -/
theorem sameOutputs_refl (P : Params) (s : Arch) : SameOutputs P s s :=
  ⟨rfl, rfl, rfl, rfl, rfl, rfl, fun _ _ _ _ => rfl⟩

theorem writeReg_sameOutputs (P : Params) (v : Word) (s : Arch) (r : Reg) : SameOutputs P s (writeReg v s r) := by
  cases r <;> exact sameOutputs_refl P s

theorem writeRam_sameOutputs (P : Params) (v : Word) {m : Ram} {off : Nat} (hm : m.holds off = true)
    (hrw : m.kind = .rw) (h4 : off % 4 = 0) (s : Arch) : SameOutputs P s (writeRam v m off s) := by
  refine ⟨rfl, rfl, rfl, rfl, rfl, rfl, fun n hro x hn => ?_⟩
  have houtside := output_byte_outside_word hm hrw h4 hn hro
  have hkept := ram_kept m
  exact (byteAt_putBytes_outside P s (by rw [length_leBytes]; omega)).symm

theorem writeInput_sameOutputs (P : Params) (v : Word) {off : Nat} (hin : (locate off).isInput = true)
    (h4 : off % 4 = 0) (s : Arch) : SameOutputs P s (writeInput v off s) := by
  rcases writeInput_cases (v := v) (s := s) hin with ⟨r, e⟩ | ⟨m, hm, hrw, e⟩
  · rw [e]
    exact writeReg_sameOutputs P v s r
  · rw [e]
    exact writeRam_sameOutputs P v hm hrw h4 s

theorem recordError_sameOutputs (P : Params) (e : ErrCode) (s : Arch) : SameOutputs P s (recordError e s) :=
  sameOutputs_refl P s

/-- No event of the Host but a reset changes an output of the commands. -/
theorem eventEffect_sameOutputs (P : Params) {s : State} {e : HostEvent} {a : Arch} (h : EventEffect s e a) :
    SameOutputs P s.toArch a := by
  cases h with
  | none h => rw [h]; exact sameOutputs_refl P s.toArch
  | ctrl v _ h => rw [h]; exact writeReg_sameOutputs P v s.toArch .ctrl
  | status v _ h => rw [h]; exact sameOutputs_refl P s.toArch
  | refused c _ _ h => rw [h]; exact recordError_sameOutputs P c s.toArch
  | illegal _ h => rw [h]; exact recordError_sameOutputs P .illegalCmd s.toArch
  | accepted op _ h => rw [h]; exact sameOutputs_refl P s.toArch
  | input off v _ ho hin _ h => rw [h]; exact writeInput_sameOutputs P v hin ho.2 s.toArch

theorem step_idle_of_no_event {s : State} (hidle : s.seq = .idle) (hbus : s.bus = []) : step s = .next s := by
  rw [step, dueCommand_of_idle hidle]
  simp [hostTurn, hbus]

/-- Settles O32: by the effect that an event can have; an idle machine without one has nothing to do. -/
theorem outputsChangeOnlyInCompletionOrReset : Obligations.OutputsChangeOnlyInCompletionOrReset := by
  unfold Obligations.OutputsChangeOnlyInCompletionOrReset
  refine ⟨fun s t e rest hn hreset hstep => ?_, fun s => step_idle_of_no_event⟩
  exact eventEffect_sameOutputs machineParams (step_event_effect hn hreset hstep).1

end Sys2Proof.Exceptions
end

section
/-!
Reset and the busy window (70_reset_and_hazards.md): what reset leaves, what the Host reads and which writes are refused
while a command runs, and that nothing but a reset or an access outside the window keeps the command from completing.
-/

namespace Sys2Proof.ResetHazards

open Machine Laws StateMap BusAccess Encoding Exceptions
open Config (Params)

/-! ### Reset (70_reset_and_hazards.md R230, R231) -/

/-- Settles O13: the step of a reset event, whose response depends only on whether it interrupts an access. -/
theorem resetEventResetsTheMachine : Obligations.ResetEventResetsTheMachine := by
  unfold Obligations.ResetEventResetsTheMachine
  intro s i rest hn
  refine ⟨_, step_event hn, rfl, rfl, rfl, rfl, fun hi => ?_, fun hi => ?_⟩
  · rw [hi]; rfl
  · obtain ⟨a, ha⟩ := Option.ne_none_iff_exists'.mp hi
    rw [ha]; rfl

/-! ### Writes that a busy window refuses (70_reset_and_hazards.md R241, R243) -/

theorem busy_of_run {a : Arch} {op : Instr} (h : a.seq = .run op) : a.busy = true := busy_iff.mpr ⟨op, h⟩

theorem writeCmd_of_busy (P : Params) (w : Word) {s : State} (h : s.busy = true) :
    writeCmd P w s = { s with toArch := recordError .cmdBusy s.toArch } := if_pos h

theorem busWrite_input_of_busy (P : Params) {off : Nat} (v : Word) {s : State} (hin : (locate off).isInput = true)
    (h : s.busy = true) : busWrite P off v s = { s with toArch := recordError .wrBusy s.toArch } := by
  rw [busWrite_input hin, if_pos h]

/-- Settles O25: the write becomes the recording of its error. -/
theorem inputWriteWhileBusyIsRefused : Obligations.InputWriteWhileBusyIsRefused := by
  unfold Obligations.InputWriteWhileBusyIsRefused
  intro s op off v rest hrun ho hinput hn
  have hstep := step_write ho hn
  rw [busWrite_input_of_busy (s := { s with bus := rest, lat := s.lat - 1 }) _ v ((isInput_iff ho.2).mpr hinput)
    (busy_of_run hrun)] at hstep
  exact ⟨_, hstep, rfl, rfl, rfl⟩

/-- Settles O26: the word does not reach the decoder. -/
theorem commandWriteWhileBusyIsRefused : Obligations.CommandWriteWhileBusyIsRefused := by
  unfold Obligations.CommandWriteWhileBusyIsRefused
  intro s op w rest hrun hn
  have hstep := step_write_cmd hn
  rw [writeCmd_of_busy (s := { s with bus := rest, lat := s.lat - 1 }) _ w (busy_of_run hrun)] at hstep
  exact ⟨_, hstep, rfl, rfl, rfl⟩

/-! ### Reads in a busy window (70_reset_and_hazards.md R242) -/

/-- A register stands at its own offset only. -/
theorem eq_offset_of_locate {off : Nat} {r : Reg} (h : locate off = .reg r) : off = r.offset := by
  rcases locate_cases off with ⟨r', hoff, h'⟩ | ⟨m, -, h'⟩ | ⟨-, -, h'⟩
  · rw [h] at h'
    cases h'
    exact hoff
  · rw [h] at h'; cases h'
  · rw [h] at h'; cases h'

theorem observedWord_status_of_busy (P : Params) {a : Arch} (hb : a.busy = true) (f : Word) :
    observedWord P a 0x0C f = statusWordWith a (f.getLsbD 3) (f.getLsbD 4) := by
  have hloc : locate 0x0C = .reg .status := locate_reg .status
  simp [observedWord, hb, hloc]

theorem observedWord_of_busy (P : Params) {a : Arch} (hb : a.busy = true) {off : Nat} (hoff : off ≠ 0x0C) (f : Word) :
    observedWord P a off f = if (locate off).isOutput then f else storedWord P a off := by
  rw [observedWord, if_pos hb]
  split
  · rename_i hloc
    exact absurd (eq_offset_of_locate hloc) hoff
  · rfl

/-- `SIGNAL` and `CFGV` are bits 3 and 4, and no other bit of `STATUS` depends on them (10_state.md R35). -/
theorem statusWordWith_getLsbD (a : Arch) (signal cfgv : Bool) {n : Nat} (h3 : n ≠ 3) (h4 : n ≠ 4) :
    (statusWordWith a signal cfgv).getLsbD n = (statusWord a).getLsbD n := by
  have hparts : (statusParts { a with signal := signal, cfgv := cfgv }).getLsbD n = (statusParts a).getLsbD n := by
    simp only [statusParts, BitVec.getLsbD_append]
    rcases Nat.lt_or_ge n 3 with hlow | hhigh
    · have hflag : n < 1 ∨ n - 1 < 1 ∨ n - 1 - 1 < 1 := by omega
      rcases hflag with h | h | h <;> simp only [h, if_true] <;> rfl
    · have hsignal : ¬ n - 1 - 1 - 1 < 1 := by omega
      have hcfgv : ¬ n - 1 - 1 - 1 - 1 < 1 := by omega
      simp only [hsignal, hcfgv, if_false]
      rfl
  exact hparts

theorem not_outputOffset_status : ¬ OutputOffset 0x0C := by
  simp [OutputOffset]

/-- Settles O18: `STATUS` by its fields, any other location by whether it is an output. -/
theorem busyReadsOfInputsAreExact : Obligations.BusyReadsOfInputsAreExact := by
  unfold Obligations.BusyReadsOfInputsAreExact
  intro s op off rest hrun ho hn
  have hb : s.busy = true := busy_of_run hrun
  refine ⟨_, _, step_read ho hn, rfl, rfl, fun hout hoff => ?_, fun hoff n h3 h4 => ?_, fun hout => ?_⟩
  · rw [observedWord_of_busy _ hb hoff, if_neg (fun h => hout ((isOutput_iff ho.2).mp h))]
  · rw [hoff, observedWord_status_of_busy _ hb]
    exact statusWordWith_getLsbD s.toArch _ _ h3 h4
  · have hoff : off ≠ 0x0C := fun h => not_outputOffset_status (h ▸ hout)
    rw [observedWord_of_busy _ hb hoff, if_pos ((isOutput_iff ho.2).mpr hout)]

/-! ### What the Host's events leave of a busy window (70_reset_and_hazards.md R241, R245) -/

/-- Like `sameOutputs_refl`, it serves every operation that sets fields other than the inputs. -/
theorem sameInputs_refl (P : Params) (s : Arch) : SameInputs P s s :=
  ⟨rfl, rfl, rfl, rfl, rfl, rfl, rfl, rfl, fun _ _ _ _ => rfl⟩

theorem sameInputs_trans {P : Params} {s t u : Arch} (hst : SameInputs P s t) (htu : SameInputs P t u) :
    SameInputs P s u := by
  obtain ⟨a1, a2, a3, a4, a5, a6, a7, a8, amem⟩ := hst
  obtain ⟨b1, b2, b3, b4, b5, b6, b7, b8, bmem⟩ := htu
  exact ⟨a1.trans b1, a2.trans b2, a3.trans b3, a4.trans b4, a5.trans b5, a6.trans b6, a7.trans b7, a8.trans b8,
    fun m hk x hx => (amem m hk x hx).trans (bmem m hk x hx)⟩

theorem sameOutputs_trans {P : Params} {s t u : Arch} (hst : SameOutputs P s t) (htu : SameOutputs P t u) :
    SameOutputs P s u := by
  obtain ⟨a1, a2, a3, a4, a5, a6, amem⟩ := hst
  obtain ⟨b1, b2, b3, b4, b5, b6, bmem⟩ := htu
  exact ⟨a1.trans b1, a2.trans b2, a3.trans b3, a4.trans b4, a5.trans b5, a6.trans b6,
    fun m hk x hx => (amem m hk x hx).trans (bmem m hk x hx)⟩

/-- While a command runs, an event of the Host writes `CTRL` or `STATUS` or records an error, and the command stays in
flight with its inputs. -/
theorem eventEffect_of_busy (P : Params) {s : State} {e : HostEvent} {a : Arch} {op : Instr} (hrun : s.seq = .run op)
    (h : EventEffect s e a) : SameInputs P s.toArch a ∧ a.seq = .run op := by
  have not_idle : s.seq ≠ .idle := by rw [hrun]; exact nofun
  cases h with
  | none h => rw [h]; exact ⟨sameInputs_refl P s.toArch, hrun⟩
  | ctrl v _ h => rw [h]; exact ⟨sameInputs_refl P s.toArch, hrun⟩
  | status v _ h => rw [h]; exact ⟨sameInputs_refl P s.toArch, hrun⟩
  | refused c _ _ h => rw [h]; exact ⟨sameInputs_refl P s.toArch, hrun⟩
  | illegal hidle _ => exact absurd hidle not_idle
  | accepted _ hidle _ => exact absurd hidle not_idle
  | input _ _ _ _ _ hidle _ => exact absurd hidle not_idle

/-- Settles O33, by the effect that an event can have in a busy window. -/
theorem inputsAreFrozenWhileBusy : Obligations.InputsAreFrozenWhileBusy := by
  unfold Obligations.InputsAreFrozenWhileBusy
  intro s t op e rest hrun hn hreset hstep
  exact eventEffect_of_busy machineParams hrun (step_event_effect hn hreset hstep).1

/-! ### The countdown to the completion step (70_reset_and_hazards.md R245) -/

/-- Only the acceptance of a command sets the countdown anew, and a busy window accepts none. -/
theorem busWrite_lat_of_busy (P : Params) (off : Nat) (v : Word) {s : State} (hb : s.busy = true) :
    (busWrite P off v s).lat = s.lat := by
  unfold busWrite
  split
  · rw [writeCmd_of_busy P v hb]
  · rfl
  · rfl
  · rw [if_pos hb]
    split <;> rfl

theorem performAccess_lat_of_busy (P : Params) (a : Access) {s : State} (hb : s.busy = true) :
    (performAccess P a s).lat = s.lat := by
  cases a with
  | read off w => rfl
  | write off w v => exact busWrite_lat_of_busy P off v hb

theorem hostWait_lat_of_busy (P : Params) {s : State} (hb : s.busy = true) : (hostWait P s).lat = s.lat := by
  unfold hostWait
  dsimp only
  split <;> exact performAccess_lat_of_busy P statusRead hb

theorem hostAccess_lat_of_busy {P : Params} {a : Access} {s t : State} (hb : s.busy = true)
    (h : hostAccess P a s = .next t) : t.lat = s.lat := by
  cases hin : a.inWindow with
  | false =>
    rw [hostAccess_outside (inWindow_false_iff.mp hin)] at h
    cases h
  | true =>
    cases hwf : a.wellFormed with
    | false =>
      rw [hostAccess_refused hin hwf] at h
      cases h
      rfl
    | true =>
      rw [hostAccess_ok hwf] at h
      cases h
      exact performAccess_lat_of_busy P a hb

/-- While a command runs, every event of the Host but a reset takes one from the countdown. -/
theorem step_event_lat_of_busy {s t : State} {e : HostEvent} {rest : List HostEvent} (hb : s.busy = true)
    (hn : NextEvent s e rest) (hreset : ∀ i, e ≠ .reset i) (hstep : step s = .next t) : t.lat = s.lat - 1 := by
  rw [step_event hn] at hstep
  cases e with
  | reset i => exact absurd rfl (hreset i)
  | wait =>
    cases hstep
    exact hostWait_lat_of_busy machineParams hb
  | access a => exact hostAccess_lat_of_busy (s := { s with bus := rest, lat := s.lat - 1 }) hb hstep

/-! ### The completion step is reached -/

/-- The events that let a command in flight run on: no reset, and no access outside the window. -/
def LetsRunOn (e : HostEvent) : Prop := e.inWindow = true ∧ ∀ i, e ≠ .reset i

/-- From `s` to `t` the command has stayed in flight, with its inputs and outputs as they were. -/
structure StaysInFlight (op : Instr) (s t : State) : Prop where
  running : t.seq = .run op
  inputs : SameInputs machineParams s.toArch t.toArch
  outputs : SameOutputs machineParams s.toArch t.toArch

theorem staysInFlight_refl {op : Instr} {s : State} (hrun : s.seq = .run op) : StaysInFlight op s s :=
  ⟨hrun, sameInputs_refl _ _, sameOutputs_refl _ _⟩

theorem staysInFlight_trans {op : Instr} {s t u : State} (hst : StaysInFlight op s t) (htu : StaysInFlight op t u) :
    StaysInFlight op s u :=
  ⟨htu.running, sameInputs_trans hst.inputs htu.inputs, sameOutputs_trans hst.outputs htu.outputs⟩

theorem step_next_of_inWindow {s : State} {e : HostEvent} {rest : List HostEvent} (hn : NextEvent s e rest)
    (hin : e.inWindow = true) : ∃ t, step s = .next t := by
  rw [step_event hn]
  cases e with
  | access a => exact hostAccess_inside hin
  | wait => exact ⟨_, rfl⟩
  | reset i => exact ⟨_, rfl⟩

/-- One event of a busy window leaves the command in flight, one event nearer to its completion step; what is then on
the bus was there before. -/
theorem step_event_staysInFlight {s : State} {op : Instr} {e : HostEvent} {rest : List HostEvent}
    (hrun : s.seq = .run op) (hn : NextEvent s e rest) (he : LetsRunOn e) :
    ∃ t, step s = .next t ∧ StaysInFlight op s t ∧ t.lat = s.lat - 1 ∧ t.bus ⊆ e :: rest := by
  obtain ⟨hin, hreset⟩ := he
  obtain ⟨t, hstep⟩ := step_next_of_inWindow hn hin
  obtain ⟨heffect, hbus⟩ := step_event_effect hn hreset hstep
  obtain ⟨hinputs, hseq⟩ := eventEffect_of_busy machineParams hrun heffect
  refine ⟨t, hstep, ⟨hseq, hinputs, eventEffect_sameOutputs machineParams heffect⟩,
    step_event_lat_of_busy (busy_of_run hrun) hn hreset hstep, ?_⟩
  rcases hbus with h | ⟨rfl, h⟩
  · rw [h]; exact List.subset_cons_self e rest
  · rw [h]; exact List.Subset.refl _

/-- The command is due at once, or the first event on the bus takes one from the countdown. -/
theorem run_to_completion_step {n : Nat} {s : State} {op : Instr} (hlat : s.lat = n) (hrun : s.seq = .run op)
    (hbus : ∀ e ∈ s.bus, LetsRunOn e) :
    ∃ k t, k ≤ n ∧ core.run k s = .next t ∧ step t = exec op t ∧ StaysInFlight op s t := by
  induction n generalizing s with
  | zero =>
    exact ⟨0, s, le_rfl, rfl, dueCommandIsRunByStep s op hrun (Or.inl hlat), staysInFlight_refl hrun⟩
  | succ n ih =>
    cases hb : s.bus with
    | nil =>
      exact ⟨0, s, n.succ.zero_le, rfl, dueCommandIsRunByStep s op hrun (Or.inr hb), staysInFlight_refl hrun⟩
    | cons e rest =>
      rw [hb] at hbus
      obtain ⟨u, hstep, hsu, hulat, hubus⟩ :=
        step_event_staysInFlight hrun ⟨Or.inr (by omega), hb⟩ (hbus e List.mem_cons_self)
      obtain ⟨k, t, hk, hkrun, hexec, hut⟩ := ih (by omega) hsu.running fun e' he' => hbus e' (hubus he')
      exact ⟨k + 1, t, Nat.succ_le_succ hk, (run_succ hstep k).trans hkrun, hexec, staysInFlight_trans hsu hut⟩

/-- Settles O8, by induction on the countdown `lat`. -/
theorem commandInFlightReachesCompletion : Obligations.CommandInFlightReachesCompletion := by
  unfold Obligations.CommandInFlightReachesCompletion
  intro s op hrun hbus
  obtain ⟨k, t, hk, hkrun, hexec, hrunning, hinputs, houtputs⟩ := run_to_completion_step rfl hrun hbus
  exact ⟨k, t, hk, hkrun, hrunning, hexec, hinputs, houtputs⟩

end Sys2Proof.ResetHazards
end
